-- ==== Sys2Proof/Word.lean ====
section
/-! DEFINITION. The word types of GRIN-HTE (spec/00_scope.md R9, R11): every integer is unsigned. -/

namespace Sys2Proof

/-- A host register, a command word, a counter: REG_W = CNT_W = 32 bits (R9). -/
abbrev Word := BitVec 32

/-- A raw data symbol on sin or sout: BYTE_W = 8 bits (R9). -/
abbrev Byte := BitVec 8

/-- A symbol of the serialized tree: SYM_W = 9 bits (R9); legal values are 0..256. -/
abbrev Symbol := BitVec 9

/-- A node index: IDX_W = 10 bits (R9). -/
abbrev NodeIdx := BitVec 10

/-- The OP field of a command word (spec/30_encoding.md R111). -/
abbrev Opcode := BitVec 4

/-- A byte offset in the register space (spec/20_memory.md R80). -/
abbrev Offset := BitVec 8

/-- A bit string, first bit first (R12). A code is a bit string, never a number. -/
abbrev Bits := List Bool

end Sys2Proof
end

