-- ==== Sys2Proof/Config.lean ====
section
/-! DEFINITION. The implementation parameters of GRIN-HTE (spec/00_scope.md R9). -/

namespace Sys2Proof

/-- NODE_CAP: entries of the node store (R9). -/
abbrev Config.nodeCap : Nat := 513

/-- NSYM: number of symbols, 0..256, and entries of the code table (R9). -/
abbrev Config.nsym : Nat := 257

/-- SENTINEL: the end-of-stream symbol (R9). -/
abbrev Config.sentinel : Symbol := 256#9

/-- ID_VALUE (R9, spec/10_state.md R33). -/
def Config.idValue : Word := 0x47524E01#32

/-- CAPS: NODE_CAP in bits [9:0], MAX_CODE_LEN in bits [24:16] (spec/10_state.md R34). -/
def Config.capsValue : Word := 0x01000201#32

/-- PRESUMED (log 2, unsafe). The value State.reset takes for the OPEN parameter MAGIC_RESET. The spec suggests
it from general knowledge (spec/92_eei_decisions.md, OPEN parameters). The parameter itself is State's field
`magicReset`, which no step changes, so a statement about every state holds for every MAGIC_RESET. -/
def Config.magicReset : Word := 0x00000736#32

/-- REG_BASE: OPEN, platform-defined (spec/92_eei_decisions.md, OPEN parameters): no value is known here. DESIGN CHOICE
(log 14, safe). -/
opaque Config.regBase : Nat

/-- Bit `pos` of the endless bit stream number `stream` (spec/00_scope.md R17): a free value, which nothing constrains,
so a statement about it holds for every infinite sequence of bits. DESIGN CHOICE (log 16, safe). -/
opaque Config.endlessBit (stream pos : Nat) : Bool

/-- Byte `pos` of the endless byte stream number `stream` (R17): a free value. DESIGN CHOICE (log 16, safe). -/
opaque Config.endlessByte (stream pos : Nat) : Byte

/-- The platform address of a register offset (spec/20_memory.md R80). The block itself sees only the offset. -/
def Config.regAddress (off : Offset) : Nat := Config.regBase + off.toNat

end Sys2Proof
end

