-- ==== Sys2Proof/Syntax.lean ====
section
/-! DEFINITION. The command set GRIN-HTE-CMD version 1: one constructor per row of spec/opcode_table.json. -/

namespace Sys2Proof

/-- A command word written to CMD (spec/30_encoding.md R111, R112). No command has an operand field. -/
inductive Instr where
  /-- NOP, OP 0x0 (spec/40_control.md R160). -/
  | nop
  /-- CLEAR, OP 0x1 (spec/40_control.md R161). -/
  | clear
  /-- TREE_LOAD, OP 0x2 (spec/42_tree_codec.md R200). -/
  | treeLoad
  /-- TREE_EMIT, OP 0x3 (spec/42_tree_codec.md R210). -/
  | treeEmit
  /-- ENCODE, OP 0x4 (spec/43_stream_encoder.md R240). -/
  | encode
  /-- DECODE, OP 0x5 (spec/44_stream_decoder.md R260). -/
  | decode
  /-- HDR_WRITE, OP 0x6 (spec/45_container_header.md R280). -/
  | hdrWrite
  /-- HDR_CHECK, OP 0x7 (spec/45_container_header.md R282). -/
  | hdrCheck
  /-- (illegal): any other word, OP 0x8..0xF or RSVD not 0 (spec/30_encoding.md R113, R114). -/
  | illegal (op : Opcode) (rsvd : BitVec 28)
  deriving DecidableEq, Repr

end Sys2Proof
end

