-- ==== Sys2Proof/WellFormed.lean ====
section
/-! DEFINITION. Which terms of Instr stand for a command word. -/

namespace Sys2Proof

/-- An (illegal) word has OP 8..15 or RSVD not 0 (spec/30_encoding.md R113, R114); the eight commands carry no field. -/
def Instr.wf : Instr → Bool
  | .nop => true
  | .clear => true
  | .treeLoad => true
  | .treeEmit => true
  | .encode => true
  | .decode => true
  | .hdrWrite => true
  | .hdrCheck => true
  | .illegal op rsvd => decide (8 ≤ op.toNat) || decide (rsvd ≠ 0)

end Sys2Proof
end

