-- ==== Sys2Proof/Decode.lean ====
section
/-! DEFINITION. Decoding a command word and encoding a command (spec/30_encoding.md R111-R114). -/

namespace Sys2Proof

/-- OP, bits [3:0] of a command word (R111). -/
def opField (w : Word) : Opcode := w.extractLsb' 0 4

/-- RSVD, bits [31:4] of a command word (R111). -/
def rsvdField (w : Word) : BitVec 28 := w.extractLsb' 4 28

/-- The command of a CMD value (R112). Total: what is no command is the (illegal) row (R113, R114). -/
def decodeWord (w : Word) : Instr :=
  if rsvdField w ≠ 0 then .illegal (opField w) (rsvdField w)
  else match (opField w).toNat with
    | 0 => .nop
    | 1 => .clear
    | 2 => .treeLoad
    | 3 => .treeEmit
    | 4 => .encode
    | 5 => .decode
    | 6 => .hdrWrite
    | 7 => .hdrCheck
    | _ => .illegal (opField w) (rsvdField w)

/-- The opcode map (R112). -/
def Instr.opcode : Instr → Opcode
  | .nop => 0x0#4
  | .clear => 0x1#4
  | .treeLoad => 0x2#4
  | .treeEmit => 0x3#4
  | .encode => 0x4#4
  | .decode => 0x5#4
  | .hdrWrite => 0x6#4
  | .hdrCheck => 0x7#4
  | .illegal op _ => op

/-- The reserved bits of a command's word: 0 for the eight commands (R111, R112). -/
def Instr.reserved : Instr → BitVec 28
  | .nop => 0
  | .clear => 0
  | .treeLoad => 0
  | .treeEmit => 0
  | .encode => 0
  | .decode => 0
  | .hdrWrite => 0
  | .hdrCheck => 0
  | .illegal _ rsvd => rsvd

/-- The word of a command: RSVD above OP (R111). -/
def encode (i : Instr) : Word := i.reserved ++ i.opcode

/-- Why bytes are no command word. -/
inductive DecodeError where
  /-- A register access is one aligned 32-bit word (spec/20_memory.md R86); this many bytes are not. -/
  | notOneWord (n : Nat)
  deriving DecidableEq, Repr

/-- The four byte lanes of a word: lane k carries bits [8k+7:8k] (spec/20_memory.md R85). -/
def wordLanes (w : Word) : List Byte :=
  [w.extractLsb' 0 8, w.extractLsb' 8 8, w.extractLsb' 16 8, w.extractLsb' 24 8]

/-- Decoding the byte lanes of a CMD write, lane 0 first; anything but four bytes is rejected by name (R86). -/
def decodeBytes : List Byte → Except DecodeError Instr
  | [b0, b1, b2, b3] => .ok (decodeWord (b3 ++ b2 ++ b1 ++ b0))
  | bs => .error (.notOneWord bs.length)

/-- The command read from an instruction of the opcode table whose bits are w; the bits at nbits and above are 0. -/
def decodeTableWord (nbits w : Nat) : Option Instr :=
  if nbits ≤ 32 then
    match decodeBytes (wordLanes (BitVec.ofNat 32 (w % 2 ^ nbits))) with
    | .ok i => some i
    | .error _ => none
  else none

end Sys2Proof
end

