-- ==== Sys2Proof/Machine/State.lean ====
section
/-! DEFINITION. The state of GRIN-HTE (spec/10_state.md) and of its host and environment, as plain data. -/

namespace Sys2Proof.Machine

/-! ## The internal memories -/

/-- An internal memory (spec/20_memory.md R81, R82): sorted (index, entry) pairs, with no entry equal to what an
unlisted index reads as. `Memory.wf` in Ops.lean states that form. -/
abbrev Memory (α : Type) := List (Nat × α)

/-- A node-store entry (spec/10_state.md R55). Frequencies are not stored. -/
inductive Node where
  | leaf (sym : Symbol)
  | internal (left right : NodeIdx)
  deriving DecidableEq, Repr

/-- A code-table entry (spec/10_state.md R58). LEN is the length of PATH and is stored once, as PATH
(DESIGN CHOICE, log 19). -/
structure CodeEntry where
  valid : Bool
  path : Bits
  deriving DecidableEq, Repr

/-- A frame of the walk stack (spec/10_state.md R62). The parser keeps an Internal node whose left subtree is complete,
and the root of the right subtree it is parsing. The code builder and the serializer keep the right child still to be
visited, the code builder with the path to it; they leave `right` at 0. Which nodes get a frame: log 6. -/
structure Frame where
  node : NodeIdx
  right : NodeIdx
  path : Bits
  deriving DecidableEq, Repr

/-! ## The engine -/

/-- The error causes (spec/60_exceptions.md R300). -/
inductive Cause where
  | badMagic
  | malformedTree
  | truncatedStream
  | lookupError
  | treeOverflow
  | degenerateTree
  | noTree
  | illegalCommand
  deriving DecidableEq, Repr

/-- Who is waiting for the bits of a ReadBit or ReadBits (spec/20_memory.md R90, spec/30_encoding.md R121). -/
inductive Reader where
  /-- Parse: the tag bit of the next subtree (spec/42_tree_codec.md R201). -/
  | tag
  /-- Parse: the 9-bit symbol of the leaf at node idx (R201). -/
  | symbol (idx : NodeIdx)
  /-- DECODE: the next bit of the walk (spec/44_stream_decoder.md R260). -/
  | code
  /-- HDR_CHECK: the 32-bit magic number (spec/45_container_header.md R282). -/
  | magic
  deriving DecidableEq, Repr

/-- ENG.K: the point reached in the running command's pseudocode, with its local variables (spec/10_state.md R60). -/
inductive Point where
  /-- CLEAR's updates (spec/40_control.md R161). -/
  | clear
  /-- TREE_LOAD's first updates (spec/42_tree_codec.md R200). -/
  | load
  /-- In ReadBits: `left` bits still to read, `v` the bits read so far; waiting on bin while left > 0. -/
  | recv (left : Nat) (v : Word) (who : Reader)
  /-- ReadBit has returned EOS to `who`. -/
  | starved (who : Reader)
  /-- Parse returns the node idx to its caller (R201). -/
  | parseRet (idx : NodeIdx)
  /-- Walk(i, p) of the code table builder (R203). -/
  | walk (i : NodeIdx) (p : Bits)
  /-- Walk returns to its caller (R203). -/
  | walkRet
  /-- TREE_LOAD's last updates (R200). -/
  | loadDone
  /-- TREE_EMIT's first statement: Emit(0) is called (R210). -/
  | emitRoot
  /-- Emit(i) of the serializer (R210). -/
  | emit (i : NodeIdx)
  /-- Emit returns to its caller (R210). -/
  | emitRet
  /-- In WriteBits: these bits still to be offered on bout, then `next` (spec/20_memory.md R92). -/
  | send (bits : Bits) (next : Point)
  /-- In WriteBit: a bit is offered on bout; `rest` comes after it, then `next` (R92). -/
  | drain (rest : Bits) (next : Point)
  /-- The head of ENCODE's loop, waiting on sin in ReadSym (spec/43_stream_encoder.md R240). -/
  | encode
  /-- ReadSym has returned a byte, or EOS (R240). -/
  | gotSym (b : Option Byte)
  /-- The head of DECODE's loop (spec/44_stream_decoder.md R260). -/
  | decode
  /-- WriteSym(v), before the byte is offered on sout (spec/20_memory.md R93). -/
  | put (v : Byte)
  /-- WriteSym, a byte is offered on sout (R93). -/
  | drainSym
  /-- HDR_WRITE's first statement (spec/45_container_header.md R280). -/
  | hdrWrite
  /-- HDR_CHECK's first statement (R282). -/
  | hdrCheck
  /-- Complete() (spec/40_control.md R153). -/
  | finish
  deriving DecidableEq, Repr

/-- ENG.ST, and while RUN also ENG.OP and ENG.K (spec/10_state.md R60). -/
inductive Engine where
  | idle
  | run (op : Opcode) (k : Point)
  deriving DecidableEq, Repr

/-! ## The host and the environment -/

/-- The width of a host register access. Only `word`, 32 bits, is supported (spec/20_memory.md R86). -/
inductive AccessWidth where
  | byte
  | half
  | word
  | double
  deriving DecidableEq, Repr

/-- A statement of a host program (spec/30_encoding.md R126), and the events of the environment. -/
inductive HostStmt where
  /-- WR: a register write, the triple (W, off, val) (spec/30_encoding.md R124). -/
  | wr (width : AccessWidth) (off : Offset) (val : Word)
  /-- RD: a register read, the triple (R, off, value returned) (R124). -/
  | rd (width : AccessWidth) (off : Offset)
  /-- BIN: the bin producer will offer these bits in order, then show bin_end if `fin`. -/
  | bin (bits : Bits) (fin : Bool)
  /-- SIN: the sin producer will offer these bytes in order, then show sin_end if `fin`. -/
  | sin (bytes : List Byte) (fin : Bool)
  /-- The bin producer will offer the endless bit stream of this number (spec/00_scope.md R17). -/
  | binEndless (stream : Nat)
  /-- The sin producer will offer the endless byte stream of this number (R17). -/
  | sinEndless (stream : Nat)
  /-- The host removes what is left on bin from the producer (spec/70_reset_and_hazards.md R354, R342). -/
  | binRemove
  /-- The host removes what is left on sin from the producer (R342). -/
  | sinRemove
  /-- EXPECT: an assertion on the value a read at this point gives; no block access. -/
  | expect (off : Offset) (val : Word)
  /-- BNZ: branch to statement `target` if the field [hi:lo] of the register last read at `off` is not 0. -/
  | bnz (off : Offset) (hi lo : Nat) (target : Nat)
  /-- The bout consumer's ready level changes (spec/20_memory.md R88, R99). -/
  | boutReady (level : Bool)
  /-- The sout consumer's ready level changes (R88, R99). -/
  | soutReady (level : Bool)
  /-- Hardware reset by rst_n, one event (spec/70_reset_and_hazards.md R340). -/
  | resetPin
  /-- From here on, this many engine actions fall after each host event (spec/20_memory.md R100). -/
  | pace (n : Nat)
  deriving DecidableEq, Repr

/-- What comes after the last beat that a producer lists. -/
inductive Tail where
  /-- Nothing yet: end = 0. -/
  | more
  /-- The end marker: end = 1 (spec/20_memory.md R89). -/
  | fin
  /-- The endless stream of this number, from position `pos` on (spec/00_scope.md R17). -/
  | endless (stream pos : Nat)
  deriving DecidableEq, Repr

/-- The data a stream producer will offer: a finite or infinite sequence, optionally followed by the end marker
(spec/00_scope.md R17). The beats of a finite part are listed, what follows them is the tail (log 16). -/
@[ext]
structure Source (α : Type) where
  items : List α
  tail : Tail
  deriving DecidableEq, Repr

/-- The host and the environment (spec/00_scope.md R17): the MODEL's own fields (logs 1 and 8). -/
@[ext]
structure Env where
  /-- The host program (R126). -/
  hostProg : List HostStmt
  /-- The index of the host's next statement. -/
  hostPc : Nat
  /-- The register values read so far, newest first. -/
  reads : List (Offset × Word)
  /-- Engine actions after each host event: the interleaving of spec/20_memory.md R100. -/
  pace : Nat
  /-- What the bin producer offers; bin_valid, bin_bit and bin_end show its head (R88, R89). -/
  bin : Source Bool
  /-- What the sin producer offers; sin_valid, sin_data and sin_end show its head (R88, R89). -/
  sin : Source Byte
  /-- bout_ready (R88). -/
  boutReady : Bool
  /-- sout_ready (R88). -/
  soutReady : Bool
  /-- The bits transferred on bout, oldest first (R92). -/
  boutTaken : Bits
  /-- The bytes transferred on sout, oldest first (R93). -/
  soutTaken : List Byte
  deriving DecidableEq, Repr

/-! ## The state -/

/-- The whole state (spec/10_state.md). Derived and constant registers (ID, CAPS, BUSY, IRQ, NODE_DATA, CT_INFO,
CT_DATA, bin_ready, sin_ready) are functions of it, in Flags.lean and Operands.lean. -/
@[ext]
structure State where
  /-- CTRL.IE_DONE (R35). -/
  ieDone : Bool
  /-- CTRL.IE_ERR (R35). -/
  ieErr : Bool
  /-- STATUS.DONE (R40). -/
  done : Bool
  /-- STATUS.ERR (R41). -/
  err : Bool
  /-- STATUS.TREE_VALID (R42). -/
  treeValid : Bool
  /-- STATUS.DROP (R43). -/
  drop : Bool
  /-- STATUS.OP (R45). -/
  op : Opcode
  /-- ERRINFO (R46). -/
  errinfo : Word
  /-- MAGIC (R47). -/
  magic : Word
  /-- MAGIC_RESET, the OPEN parameter of this machine; no step changes it (log 2). -/
  magicReset : Word
  /-- NODE_COUNT (R48). -/
  nodeCount : NodeIdx
  /-- BITS_IN (R49). -/
  bitsIn : Word
  /-- BITS_OUT (R49). -/
  bitsOut : Word
  /-- SYMS_IN (R49). -/
  symsIn : Word
  /-- SYMS_OUT (R49). -/
  symsOut : Word
  /-- NODE_SEL.IDX (R50). -/
  nodeSel : NodeIdx
  /-- CT_SEL.SYM (R52). -/
  ctSelSym : Symbol
  /-- CT_SEL.WORD (R52). -/
  ctSelWord : BitVec 3
  /-- The node store NS (R55). -/
  ns : Memory Node
  /-- The code table CT (R58). -/
  ct : Memory CodeEntry
  /-- ENG.ST, ENG.OP, ENG.K (R60). -/
  eng : Engine
  /-- POS (R61). -/
  pos : NodeIdx
  /-- The walk stack, innermost frame first (R62). -/
  stack : List Frame
  /-- The parser's allocation counter n (R62). -/
  alloc : NodeIdx
  /-- BOUT.VALID (R63). -/
  boutValid : Bool
  /-- BOUT.BIT (R63). -/
  boutBit : Bool
  /-- SOUT.VALID (R63). -/
  soutValid : Bool
  /-- SOUT.DATA (R63). -/
  soutData : Byte
  /-- The host and the environment (spec/00_scope.md R17). -/
  env : Env
  deriving DecidableEq, Repr

/-- Why the machine stops with a fault. -/
inductive Fault where
  /-- An engine action names a node index of 513 or more: there is no such entry (spec/10_state.md R55). Raised by
  every access to NS. DEDUCED (log 12), safe: the spec says that the engine computes its indices within range (20 R98). -/
  | nodeRange
  /-- An engine action names a symbol of 257 or more as a code-table index: there is no such entry (R58). Raised by
  the code table builder. DEDUCED (log 12), safe: TREE_LOAD stores no such symbol (42 R202). -/
  | codeRange
  /-- DECODE takes a child of a leaf, which has none (R55). Raised by the walk of DECODE. DEDUCED (log 12), safe: POS is an internal
  node whenever a bit is read (44 R265). -/
  | childOfLeaf
  /-- A host program's EXPECT does not hold (30 R126). Raised by the host statement. DESIGN CHOICE
  (log 13), safe: no block access. -/
  | expectFailed
  deriving DecidableEq, Repr

/-- Why the machine gives a step no meaning. -/
inductive Refusal where
  /-- The instruction of this mnemonic is not modelled. Raised by no arm of exec today. Safe. -/
  | notModelled (mnemonic : String)
  /-- A register access that is not an aligned 32-bit word: the spec refuses it (20 R86, 93 U9). Raised by host
  reads and writes. DEDUCED (log 10), safe. -/
  | unsupportedAccess
  /-- A producer offers data after it has shown its end marker to a running command: the environment must not (20 R99,
  70 R355, 93 U10). Raised by the statements of the producers. DEDUCED (log 11), safe: the spec gives the action no
  move. -/
  | dataAfterEnd
  /-- An offered beat is removed from a producer while a command runs: the environment must not (20 R99, 93 U10). Raised
  by the host statements binRemove and sinRemove. DEDUCED (log 11), safe: the spec gives the action no move. -/
  | dataWithdrawn
  /-- A host program's BNZ names a register it has never read (30 R126). Raised by the host statement. DESIGN CHOICE
  (log 13), safe: no block access. -/
  | branchBeforeRead
  deriving DecidableEq, Repr

/-- What one step or one action answers. -/
abbrev Res := Host.Outcome State Fault Refusal

/-- The environment of State.reset: DESIGN CHOICE (logs 1 and 8), the MODEL's own fields. -/
def Env.start : Env where
  hostProg := []
  hostPc := 0
  reads := []
  pace := 1
  bin := ⟨[], .more⟩
  sin := ⟨[], .more⟩
  boutReady := true
  soutReady := true
  boutTaken := []
  soutTaken := []

/-- The reset values of spec/10_state.md R65 for a block whose parameter MAGIC_RESET is m, in environment e.
Unspecified and unobservable state takes the values of logs 3, 4, 5 and 7. -/
def State.resetIn (m : Word) (e : Env) : State where
  ieDone := false
  ieErr := false
  done := false
  err := false
  treeValid := false
  drop := false
  op := 0
  errinfo := 0
  magic := m
  magicReset := m
  nodeCount := 0
  bitsIn := 0
  bitsOut := 0
  symsIn := 0
  symsOut := 0
  nodeSel := 0
  ctSelSym := 0
  ctSelWord := 0
  ns := []
  ct := []
  eng := .idle
  pos := 0
  stack := []
  alloc := 0
  boutValid := false
  boutBit := false
  soutValid := false
  soutData := 0
  env := e

/-- The machine right after reset (R65), with the suggested MAGIC_RESET (PRESUMED, log 2). -/
def State.reset : State := State.resetIn Config.magicReset Env.start

end Sys2Proof.Machine
end

