-- ==== Sys2Proof/Machine/Ops.lean ====
section
/-! DEFINITION. The named operations over the memories, the ports and the command lifecycle. -/

namespace Sys2Proof.Machine

/-! ## Internal memories -/

/-- The entry at index a; an unlisted index reads as d. -/
def Memory.read {α : Type} (d : α) : Memory α → Nat → α
  | [], _ => d
  | (k, v) :: m, a => if a = k then v else Memory.read d m a

/-- The memory with v at index a, in canonical form: indices strictly rising, no entry equal to d. -/
def Memory.write {α : Type} [DecidableEq α] (d : α) : Memory α → Nat → α → Memory α
  | [], a, v => if v = d then [] else [(a, v)]
  | (k, w) :: m, a, v =>
    if a < k then (if v = d then (k, w) :: m else (a, v) :: (k, w) :: m)
    else if a = k then (if v = d then m else (a, v) :: m)
    else (k, w) :: Memory.write d m a v

/-- Every listed index is at least lo, indices rise strictly, and no entry equals d. -/
def Memory.wfFrom {α : Type} [DecidableEq α] (d : α) : Nat → Memory α → Bool
  | _, [] => true
  | lo, (k, v) :: m => decide (lo ≤ k) && decide (v ≠ d) && Memory.wfFrom d (k + 1) m

/-- The canonical form of an internal memory. -/
def Memory.wf {α : Type} [DecidableEq α] (d : α) (m : Memory α) : Bool := Memory.wfFrom d 0 m

/-- What a node-store entry that nothing has written reads as. DESIGN CHOICE (log 3): the spec leaves it unspecified
and unobservable (spec/10_state.md R57, R65). -/
def Node.unwritten : Node := .leaf 0

/-- What a code-table entry that nothing has written reads as: VALID = 0 (spec/10_state.md R65). LEN and PATH are
unspecified and unobservable then; DESIGN CHOICE (log 4) they are 0 and empty. -/
def CodeEntry.unwritten : CodeEntry := ⟨false, []⟩

/-- NS[i] as plain data, for the read windows (spec/10_state.md R51). -/
def State.nodeData (s : State) (i : NodeIdx) : Node := Memory.read Node.unwritten s.ns i.toNat

/-- NS[i] for the engine: the store has entries 0..512 only (spec/10_state.md R55). -/
def State.node? (s : State) (i : NodeIdx) : Option Node :=
  if i.toNat < Config.nodeCap then some (s.nodeData i) else none

/-- NS[i] <- e (spec/00_scope.md R13); the store has entries 0..512 only. -/
def State.setNode? (s : State) (i : NodeIdx) (e : Node) : Option State :=
  if i.toNat < Config.nodeCap then some { s with ns := Memory.write Node.unwritten s.ns i.toNat e } else none

/-- CT[sym] (spec/10_state.md R58). -/
def State.code (s : State) (sym : Symbol) : CodeEntry := Memory.read CodeEntry.unwritten s.ct sym.toNat

/-- CT[sym] <- (VALID = 1, LEN = |p|, PATH = p) (spec/42_tree_codec.md R203); the table has entries 0..256 only. -/
def State.setCode? (s : State) (sym : Symbol) (p : Bits) : Option State :=
  if sym.toNat < Config.nsym then
    some { s with ct := Memory.write CodeEntry.unwritten s.ct sym.toNat ⟨true, p⟩ }
  else none

/-- Discard the tree: TREE_VALID <- 0, NODE_COUNT <- 0, CT[s].VALID <- 0 for every s, the first updates of TREE_LOAD
and of CLEAR (spec/42_tree_codec.md R200, spec/40_control.md R161). LEN and PATH of an invalid entry: log 4. -/
def State.dropTree (s : State) : State := { s with treeValid := false, nodeCount := 0, ct := [] }

/-! ## The engine's control -/

/-- STATUS.BUSY: the engine is in state RUN (spec/10_state.md R39). -/
def State.busy (s : State) : Bool :=
  match s.eng with
  | .idle => false
  | .run _ _ => true

/-- ENG.K <- k, while the engine runs. -/
def Engine.goto (e : Engine) (k : Point) : Engine :=
  match e with
  | .idle => .idle
  | .run op _ => .run op k

/-- The engine goes on at point k. -/
def State.goto (s : State) (k : Point) : State := { s with eng := s.eng.goto k }

/-- Complete() (spec/40_control.md R153): the only effects of a successful end. -/
def State.complete (s : State) : State := { s with eng := .idle, done := true }

/-! ## Error entry and the way out -/

/-- ERRINFO.CAUSE (spec/60_exceptions.md R300). -/
def Cause.code : Cause → BitVec 4
  | .badMagic => 1
  | .malformedTree => 2
  | .truncatedStream => 3
  | .lookupError => 4
  | .treeOverflow => 5
  | .degenerateTree => 6
  | .noTree => 7
  | .illegalCommand => 8

/-- ERRINFO's fields (spec/10_state.md R46). -/
def errinfoWord (cause : BitVec 4) (eop : Opcode) (sub : BitVec 4) (esym : Symbol) : Word :=
  cause.setWidth 32 ||| (eop.setWidth 32 <<< 4) ||| (sub.setWidth 32 <<< 8) ||| (esym.setWidth 32 <<< 16)

/-- raise E(sub, esym): the ONE error entry, from a running command or from acceptance (spec/60_exceptions.md R305). -/
def State.raise (s : State) (e : Cause) (sub : BitVec 4) (esym : Symbol) : State :=
  { s with eng := .idle, done := false, err := true, errinfo := errinfoWord e.code s.op sub esym }

/-- CLEAR's way out of the error state (spec/40_control.md R161, spec/60_exceptions.md R315). -/
def State.leaveError (s : State) : State := { s with err := false, errinfo := 0, drop := false }

/-- The reset event, by rst_n or by CTRL.SRST (spec/70_reset_and_hazards.md R340, R341): the block takes the values
of spec/10_state.md R65; what the producers offer and what the consumers hold stays (R342). -/
def State.blockReset (s : State) : State := State.resetIn s.magicReset s.env

/-! ## Command request and acceptance -/

/-- All four event counters <- 0 (spec/10_state.md R49). -/
def State.zeroCounters (s : State) : State := { s with bitsIn := 0, bitsOut := 0, symsIn := 0, symsOut := 0 }

/-- TREE_EMIT, ENCODE and DECODE need a loaded tree (spec/40_control.md R151). -/
def needsTree (op : Opcode) : Bool := op == 0x3#4 || op == 0x4#4 || op == 0x5#4

/-- accept(op, legal) (spec/40_control.md R151); `start` is the first statement of op's pseudocode. -/
def State.accept (s : State) (op : Opcode) (legal : Bool) (start : Point) : State :=
  let t := { s.zeroCounters with done := false, op := op }
  if !legal then t.raise .illegalCommand 0 0
  else if needsTree op && !t.treeValid then t.raise .noTree 0 0
  else { t with eng := .run op start }

/-- A host write to CMD, in the write's own event (spec/40_control.md R150, spec/60_exceptions.md R310). -/
def State.request (s : State) (op : Opcode) (legal : Bool) (start : Point) : State :=
  if s.busy then { s with drop := true }
  else if legal && op == 0x0#4 then s
  else if s.err && !(legal && op == 0x1#4) then { s with drop := true }
  else s.accept op legal start

/-! ## The stream ports -/

/-- What a producer shows at an input port (spec/20_memory.md R88, R89). -/
inductive Beat (α : Type) where
  /-- valid = 0 and end = 0: the engine waits. -/
  | waiting
  /-- valid = 0 and end = 1: end of stream, observed and not consumed. -/
  | ended
  /-- valid = 1: a beat, whatever end says. -/
  | beat (x : α)
  deriving DecidableEq, Repr

/-- What a producer shows now (R89); `gen` gives the beats of the endless streams (spec/00_scope.md R17). -/
def Source.beat {α : Type} (gen : Nat → Nat → α) (p : Source α) : Beat α :=
  match p.items with
  | x :: _ => .beat x
  | [] =>
    match p.tail with
    | .more => .waiting
    | .fin => .ended
    | .endless stream pos => .beat (gen stream pos)

/-- The tail once a beat of it is consumed. -/
def Tail.drop : Tail → Tail
  | .endless stream pos => .endless stream (pos + 1)
  | t => t

/-- The producer once its offered beat is consumed. -/
def Source.drop {α : Type} (p : Source α) : Source α :=
  match p.items with
  | _ :: xs => ⟨xs, p.tail⟩
  | [] => ⟨[], p.tail.drop⟩

/-- The producer will then offer xs, and show the end marker if fin (spec/30_encoding.md R126). Nothing comes after an
endless stream. -/
def Source.extend {α : Type} (p : Source α) (xs : List α) (fin : Bool) : Source α :=
  match p.tail with
  | .endless _ _ => p
  | _ => ⟨p.items ++ xs, if fin then .fin else .more⟩

/-- The producer will then offer an endless stream, from its first beat on (spec/00_scope.md R17). -/
def Source.extendEndless {α : Type} (p : Source α) (stream : Nat) : Source α :=
  match p.tail with
  | .endless _ _ => p
  | _ => ⟨p.items, .endless stream 0⟩

/-- Whether the producer offers a beat: valid = 1 (R88). -/
def Source.offering {α : Type} (p : Source α) : Bool :=
  match p.items, p.tail with
  | _ :: _, _ => true
  | [], .endless _ _ => true
  | [], _ => false

/-- The bin port. -/
def State.binBeat (s : State) : Beat Bool := s.env.bin.beat Config.endlessBit

/-- The sin port. -/
def State.sinBeat (s : State) : Beat Byte := s.env.sin.beat Config.endlessByte

/-- ReadBit's transfer: the offered bit is consumed, BITS_IN counts it modulo 2^32 (spec/20_memory.md R90). -/
def State.takeBit (s : State) : State :=
  { s with bitsIn := s.bitsIn + 1, env := { s.env with bin := s.env.bin.drop } }

/-- ReadSym's transfer: the offered byte is consumed, SYMS_IN counts it modulo 2^32 (R91). -/
def State.takeSym (s : State) : State :=
  { s with symsIn := s.symsIn + 1, env := { s.env with sin := s.env.sin.drop } }

/-- WriteBit's offer: BOUT.BIT <- b, BOUT.VALID <- 1 (R92). -/
def State.offerBit (s : State) (b : Bool) : State := { s with boutBit := b, boutValid := true }

/-- WriteBit's transfer: the consumer takes BOUT.BIT, BOUT.VALID <- 0, BITS_OUT counts it modulo 2^32 (R92). -/
def State.sendBit (s : State) : State :=
  { s with
    boutValid := false, bitsOut := s.bitsOut + 1,
    env := { s.env with boutTaken := s.env.boutTaken ++ [s.boutBit] } }

/-- WriteSym's offer: SOUT.DATA <- v, SOUT.VALID <- 1 (R93). -/
def State.offerSym (s : State) (v : Byte) : State := { s with soutData := v, soutValid := true }

/-- WriteSym's transfer: the consumer takes SOUT.DATA, SOUT.VALID <- 0, SYMS_OUT counts it modulo 2^32 (R93). -/
def State.sendSym (s : State) : State :=
  { s with
    soutValid := false, symsOut := s.symsOut + 1,
    env := { s.env with soutTaken := s.env.soutTaken ++ [s.soutData] } }

/-! ## The host program -/

/-- The host goes on to its next statement. -/
def State.advanceHost (s : State) : State := { s with env := { s.env with hostPc := s.env.hostPc + 1 } }

/-- The host goes on at statement `target`. -/
def State.hostJump (s : State) (target : Nat) : State := { s with env := { s.env with hostPc := target } }

/-- The host has read v at off. -/
def State.noteRead (s : State) (off : Offset) (v : Word) : State :=
  { s with env := { s.env with reads := (off, v) :: s.env.reads } }

end Sys2Proof.Machine
end

