-- ==== Sys2Proof/Machine/Flags.lean ====
section
/-! DEFINITION. STATUS, CTRL, the interrupt and the ready outputs, as functions of the state. -/

namespace Sys2Proof.Machine

/-- The irq output, a level, and STATUS.IRQ (spec/60_exceptions.md R320, spec/10_state.md R44). -/
def State.irq (s : State) : Bool := (s.ieDone && s.done) || (s.ieErr && s.err)

/-- A one-bit field at bit n of a register. -/
def flagBit (b : Bool) (n : Nat) : Word := if b then 1#32 <<< n else 0#32

/-- The value of STATUS (spec/10_state.md R38). -/
def State.statusWord (s : State) : Word :=
  flagBit s.busy 0 ||| flagBit s.done 1 ||| flagBit s.err 2 ||| flagBit s.treeValid 3 ||| flagBit s.drop 4 |||
    flagBit s.irq 5 ||| (s.op.setWidth 32 <<< 8)

/-- The value of CTRL: SRST reads 0 (spec/10_state.md R35). -/
def State.ctrlWord (s : State) : Word := flagBit s.ieDone 1 ||| flagBit s.ieErr 2

/-- A host write to STATUS clears DONE and DROP where it writes 1, and nothing else (R38, R40, R43). -/
def State.writeStatus (s : State) (w : Word) : State :=
  { s with done := s.done && !w.getLsbD 1, drop := s.drop && !w.getLsbD 4 }

/-- A host write to CTRL: SRST resets the block and discards the IE bits of that write; otherwise the IE bits are
stored (R36). -/
def State.writeCtrl (s : State) (w : Word) : State :=
  if w.getLsbD 0 then s.blockReset else { s with ieDone := w.getLsbD 1, ieErr := w.getLsbD 2 }

/-- A host write to MAGIC is ignored while a command runs (R47, spec/70_reset_and_hazards.md R351). -/
def State.writeMagic (s : State) (w : Word) : State := if s.busy then s else { s with magic := w }

/-- bin_ready is 1 exactly while the engine waits in ReadBit (R64). -/
def State.binReady (s : State) : Bool :=
  match s.eng with
  | .run _ (.recv (_ + 1) _ _) => true
  | _ => false

/-- sin_ready is 1 exactly while the engine waits in ReadSym (R64). -/
def State.sinReady (s : State) : Bool :=
  match s.eng with
  | .run _ .encode => true
  | _ => false

/-- Whether the running command has seen sin_end: ENCODE after ReadSym returned EOS, up to the command's end
(spec/70_reset_and_hazards.md R355). -/
def Point.afterSinEnd : Point → Bool
  | .gotSym none => true
  | .send _ .finish => true
  | .drain _ .finish => true
  | .finish => true
  | _ => false

/-- The bin producer has shown bin_end to a running command: ReadBit has returned EOS, and the raise that every reader
of bin answers it with is the engine's next action (spec/70_reset_and_hazards.md R355). -/
def State.binEndShown (s : State) : Bool :=
  match s.eng with
  | .run _ (.starved _) => true
  | _ => false

/-- The sin producer has shown sin_end to a running command: ENCODE (OP 4) is in its last part. -/
def State.sinEndShown (s : State) : Bool :=
  match s.eng with
  | .idle => false
  | .run op k => op == 0x4#4 && k.afterSinEnd

end Sys2Proof.Machine
end

