-- ==== Sys2Proof/Machine/Operands.lean ====
section
/-! DEFINITION. Operand assembly and conversion (spec/30_encoding.md R121-R123), the register map and the read
windows (spec/10_state.md R31, R51-R54). -/

namespace Sys2Proof.Machine

/-- v <- (v << 1) | b, one step of ReadBits (spec/30_encoding.md R121). -/
def shiftIn (v : Word) (b : Bool) : Word := (v <<< 1) ||| flagBit b 0

/-- The n low bits of v, most significant first: what WriteBits(v, n) gives to bout (R122). -/
def bitsOf (v : Word) : Nat → Bits
  | 0 => []
  | n + 1 => v.getLsbD n :: bitsOf v n

/-- A leaf symbol as WriteBits(sym, 9) gives it (R116, R122). -/
def symbolBits (sym : Symbol) : Bits := bitsOf (sym.setWidth 32) 9

/-- A byte from sin as a symbol: zext_9 (R123). -/
def symOfByte (b : Byte) : Symbol := b.setWidth 9

/-- A leaf symbol as the byte for sout: its low 8 bits (R123). -/
def byteOfSym (sym : Symbol) : Byte := sym.setWidth 8

/-- The first n bits of p, most significant first, 0 where p has no bit. -/
def packBits : Nat → Bits → Word → Word
  | 0, _, v => v
  | n + 1, p, v => packBits n p.tail (shiftIn v (p.headD false))

/-- One 32-bit word of a path: bit 31-j is p[32 w + j], 0 past its end (spec/10_state.md R54). -/
def pathWord (p : Bits) (w : Nat) : Word := packBits 32 (p.drop (32 * w)) 0

/-- NODE_DATA's value for an entry (R51). -/
def Node.word : Node → Word
  | .leaf sym => 0x80000000#32 ||| sym.setWidth 32
  | .internal l r => 0xC0000000#32 ||| (r.setWidth 32 <<< 16) ||| l.setWidth 32

/-- NODE_DATA (R51). -/
def State.nodeDataWord (s : State) : Word :=
  if !s.busy && decide (s.nodeSel.toNat < s.nodeCount.toNat) then (s.nodeData s.nodeSel).word else 0

/-- The code-table entry the window shows: none while busy, for SYM 257..511, or for an entry with VALID = 0 (R53). -/
def State.window? (s : State) : Option CodeEntry :=
  if !s.busy && decide (s.ctSelSym.toNat ≤ 256) && (s.code s.ctSelSym).valid then some (s.code s.ctSelSym) else none

/-- CT_INFO (R53). -/
def State.ctInfoWord (s : State) : Word :=
  match s.window? with
  | some e => 0x80000000#32 ||| (BitVec.ofNat 9 e.path.length).setWidth 32
  | none => 0

/-- CT_DATA (R54). -/
def State.ctDataWord (s : State) : Word :=
  match s.window? with
  | some e => pathWord e.path s.ctSelWord.toNat
  | none => 0

/-- CT_SEL's value (R52). -/
def State.ctSelWordValue (s : State) : Word := s.ctSelSym.setWidth 32 ||| (s.ctSelWord.setWidth 32 <<< 16)

/-! ## The register map (R31) -/

/-- The offset of CMD. -/
def offCmd : Offset := 0x0C#8

/-- The offset of STATUS. -/
def offStatus : Offset := 0x10#8

/-- A register read (R31): free of side effects; reserved offsets and CMD read 0. -/
def State.regRead (s : State) (off : Offset) : Word :=
  match off.toNat with
  | 0x00 => Config.idValue
  | 0x04 => Config.capsValue
  | 0x08 => s.ctrlWord
  | 0x0C => 0
  | 0x10 => s.statusWord
  | 0x14 => s.errinfo
  | 0x18 => s.magic
  | 0x1C => s.nodeCount.setWidth 32
  | 0x20 => s.bitsIn
  | 0x24 => s.bitsOut
  | 0x28 => s.symsIn
  | 0x2C => s.symsOut
  | 0x30 => s.nodeSel.setWidth 32
  | 0x34 => s.nodeDataWord
  | 0x38 => s.ctSelWordValue
  | 0x3C => s.ctInfoWord
  | 0x40 => s.ctDataWord
  | _ => 0

/-- A register write other than to CMD (R31): read-only registers and reserved offsets ignore it. -/
def State.regWrite (s : State) (off : Offset) (w : Word) : State :=
  match off.toNat with
  | 0x08 => s.writeCtrl w
  | 0x10 => s.writeStatus w
  | 0x18 => s.writeMagic w
  | 0x30 => { s with nodeSel := w.setWidth 10 }
  | 0x38 => { s with ctSelSym := w.setWidth 9, ctSelWord := w.extractLsb' 16 3 }
  | _ => s

/-- An access the block supports: 32 bits wide, at a multiple of 4 (spec/20_memory.md R86). -/
def supported (width : AccessWidth) (off : Offset) : Bool :=
  (width == .word) && off.toNat % 4 == 0

end Sys2Proof.Machine
end

