-- ==== Sys2Proof/Machine/Ports.lean ====
section
/-! DEFINITION. The engine's actions at the ports: WriteBit, WriteBits, WriteSym (spec/20_memory.md R92, R93,
spec/30_encoding.md R122), and the waiting part of ReadBit and ReadBits (R90, R121). -/

namespace Sys2Proof.Machine

/-- ReadBits with `left + 1` bits still to read: wait, consume a bit, or observe EOS (R90, R121). Bits already read
stay consumed and counted. -/
def actRecvBit (left : Nat) (v : Word) (who : Reader) (s : State) : Res :=
  match s.binBeat with
  | .waiting => .next s
  | .ended => .next (s.goto (.starved who))
  | .beat b => .next (s.takeBit.goto (.recv left (shiftIn v b) who))

/-- WriteBits: offer the next bit, or go on when none is left (R92, R122). -/
def actSend (bits : Bits) (next : Point) (s : State) : Res :=
  match bits with
  | [] => .next (s.goto next)
  | b :: rest => .next ((s.offerBit b).goto (.drain rest next))

/-- WriteBit: wait until bout_ready = 1, then the beat transfers (R92). The offered bit is held until then (R96). -/
def actDrain (rest : Bits) (next : Point) (s : State) : Res :=
  if s.env.boutReady then .next (s.sendBit.goto (.send rest next)) else .next s

/-- WriteSym: offer the byte (R93). -/
def actPut (v : Byte) (s : State) : Res := .next ((s.offerSym v).goto .drainSym)

/-- WriteSym: wait until sout_ready = 1, then the beat transfers, and DECODE's loop goes on (R93, R260). -/
def actDrainSym (s : State) : Res :=
  if s.env.soutReady then .next (s.sendSym.goto .decode) else .next s

end Sys2Proof.Machine
end

