-- ==== Sys2Proof/Machine/Decoder.lean ====
section
/-! DEFINITION. The engine's actions of DECODE (spec/44_stream_decoder.md). -/

namespace Sys2Proof.Machine

/-- The walk reads its next bit (R260). -/
def walkPoint : Point := .recv 1 0 .code

/-- The head of DECODE's loop (R260): POS <- 0; a one-leaf tree ends at once or is a DEGENERATE_TREE (R261). -/
def actDecode (s : State) : Res :=
  let t := { s with pos := 0 }
  match t.node? 0 with
  | none => .fault .nodeRange
  | some (.leaf sym) =>
    if sym = Config.sentinel then .next (t.goto .finish) else .next (t.raise .degenerateTree 0 sym)
  | some (.internal _ _) => .next (t.goto walkPoint)

/-- The walk has moved to POS (R260): the sentinel's leaf ends DECODE, another leaf's byte goes to sout, and an
Internal node reads the next bit. -/
def actArrive (s : State) : Res :=
  match s.node? s.pos with
  | none => .fault .nodeRange
  | some (.leaf sym) =>
    if sym = Config.sentinel then .next (s.goto .finish) else .next (s.goto (.put (byteOfSym sym)))
  | some (.internal _ _) => .next (s.goto walkPoint)

/-- DECODE has read the bit b (R260): POS moves to the left child on 0 and to the right child on 1 (R265). -/
def actCodeBit (b : Bool) (s : State) : Res :=
  match s.node? s.pos with
  | none => .fault .nodeRange
  | some (.leaf _) => .fault .childOfLeaf
  | some (.internal l r) => actArrive { s with pos := if b then r else l }

end Sys2Proof.Machine
end

