-- ==== Sys2Proof/Machine/Encoder.lean ====
section
/-! DEFINITION. The engine's actions of ENCODE (spec/43_stream_encoder.md). -/

namespace Sys2Proof.Machine

/-- The head of ENCODE's loop: ReadSym waits, consumes a byte, or observes EOS (spec/20_memory.md R91, R240). -/
def actReadSym (s : State) : Res :=
  match s.sinBeat with
  | .waiting => .next s
  | .ended => .next (s.goto (.gotSym none))
  | .beat b => .next (s.takeSym.goto (.gotSym (some b)))

/-- The code of symbol sym goes to bout, then `next`; a symbol without a code is a LOOKUP_ERROR, found before any bit
of the code (R240, R242). -/
def actEmitCode (sym : Symbol) (next : Point) (s : State) : Res :=
  if (s.code sym).valid then .next (s.goto (.send (s.code sym).path next))
  else .next (s.raise .lookupError 0 sym)

/-- ENCODE has ReadSym's answer: a byte's code, or at EOS the sentinel's code and the end (R240, R241). -/
def actGotSym (b : Option Byte) (s : State) : Res :=
  match b with
  | some v => actEmitCode (symOfByte v) .encode s
  | none => actEmitCode Config.sentinel .finish s

end Sys2Proof.Machine
end

