-- ==== Sys2Proof/Machine/Header.lean ====
section
/-! DEFINITION. The engine's actions of HDR_WRITE and HDR_CHECK (spec/45_container_header.md). -/

namespace Sys2Proof.Machine

/-- HDR_WRITE: WriteBits(MAGIC, 32), then Complete (R280). -/
def actHdrWrite (s : State) : Res := .next (s.goto (.send (bitsOf s.magic 32) .finish))

/-- HDR_CHECK calls ReadBits(32) (R282). -/
def actHdrCheck (s : State) : Res := .next (s.goto (.recv 32 0 .magic))

/-- HDR_CHECK has the 32 bits v (R282): all are consumed before the compare. -/
def actMagic (v : Word) (s : State) : Res :=
  if v = s.magic then .next (s.goto .finish) else .next (s.raise .badMagic 0 0)

end Sys2Proof.Machine
end

