-- ==== Sys2Proof/Machine/TreeCodec.lean ====
section
/-! DEFINITION. The engine's actions of TREE_LOAD and TREE_EMIT (spec/42_tree_codec.md). Each is a maximal run of
internal updates (spec/40_control.md R152). -/

namespace Sys2Proof.Machine

/-- Parse is entered: it reads the tag bit of its subtree (R201). -/
def parsePoint : Point := .recv 1 0 .tag

/-- TREE_LOAD's first updates (R200): the previous tree is discarded, n <- 0, and Parse is called. -/
def actLoad (s : State) : Res := .next ({ s.dropTree with alloc := 0, stack := [] }.goto parsePoint)

/-- Parse has its tag bit t (R201): capacity check, node allocation, and a leaf's symbol field or the left subtree. An
Internal node takes no frame before its left subtree is complete: until then it is the index before its left child's
(log 6). -/
def actTag (t : Bool) (s : State) : Res :=
  if s.alloc.toNat = Config.nodeCap then .next (s.raise .treeOverflow 0 0)
  else if t then
    .next ({ s with alloc := s.alloc + 1 }.goto parsePoint)
  else .next ({ s with alloc := s.alloc + 1 }.goto (.recv 9 0 (.symbol s.alloc)))

/-- Parse has the symbol field v of the leaf at idx (R201, R202 (c)). -/
def actSymbol (idx : NodeIdx) (v : Symbol) (s : State) : Res :=
  if 256 < v.toNat then .next (s.raise .malformedTree 1 v)
  else match s.setNode? idx (.leaf v) with
    | none => .fault .nodeRange
    | some t => .next (t.goto (.parseRet idx))

/-- Parse returns the left child idx to the Internal node before it, and the right child is parsed next (R201): from
here on the Internal node needs a frame. -/
def actParseRight (idx : NodeIdx) (s : State) : Res :=
  .next ({ s with stack := ⟨idx - 1, s.alloc, []⟩ :: s.stack }.goto parsePoint)

/-- Parse returns idx to its caller (R201): a right child ends its Internal node, which is written and returned; the root
ends Parse, and the code table is built; every other node is a left child. -/
def actParseRet (idx : NodeIdx) (s : State) : Res :=
  match s.stack with
  | [] => if idx = 0 then .next (s.goto (.walk 0 [])) else actParseRight idx s
  | f :: fs =>
    if idx = f.right then
      match s.setNode? f.node (.internal (f.node + 1) idx) with
      | none => .fault .nodeRange
      | some t => .next ({ t with stack := fs }.goto (.parseRet f.node))
    else actParseRight idx s

/-- Walk(i, p) (R203): record a leaf's path, or go to the left child and keep the right one. -/
def actWalk (i : NodeIdx) (p : Bits) (s : State) : Res :=
  match s.node? i with
  | none => .fault .nodeRange
  | some (.leaf sym) =>
    match s.setCode? sym p with
    | none => .fault .codeRange
    | some t => .next (t.goto .walkRet)
  | some (.internal l r) =>
    .next ({ s with stack := ⟨r, 0, p ++ [true]⟩ :: s.stack }.goto (.walk l (p ++ [false])))

/-- Walk returns (R203): to the right child still to be visited, or to TREE_LOAD. -/
def actWalkRet (s : State) : Res :=
  match s.stack with
  | [] => .next (s.goto .loadDone)
  | f :: fs => .next ({ s with stack := fs }.goto (.walk f.node f.path))

/-- TREE_LOAD's last updates before Complete (R200). -/
def actLoadDone (s : State) : Res := .next ({ s with nodeCount := s.alloc, treeValid := true }.goto .finish)

/-- TREE_EMIT calls Emit(0) (R210): nothing is on the walk stack yet. -/
def actEmitRoot (s : State) : Res := .next ({ s with stack := [] }.goto (.emit 0))

/-- Emit(i) (R210): tag 0 and the symbol, or tag 1 and the left child, keeping the right one. -/
def actEmit (i : NodeIdx) (s : State) : Res :=
  match s.node? i with
  | none => .fault .nodeRange
  | some (.leaf sym) => .next (s.goto (.send (false :: symbolBits sym) .emitRet))
  | some (.internal l r) => .next ({ s with stack := ⟨r, 0, []⟩ :: s.stack }.goto (.send [true] (.emit l)))

/-- Emit returns (R210): to the right child still to be visited, or to TREE_EMIT. -/
def actEmitRet (s : State) : Res :=
  match s.stack with
  | [] => .next (s.goto .finish)
  | f :: fs => .next ({ s with stack := fs }.goto (.emit f.node))

end Sys2Proof.Machine
end

