-- ==== Sys2Proof/Machine/Engine.lean ====
section
/-! DEFINITION. The engine: one action of the running command (spec/40_control.md R152), and a run of actions. -/

namespace Sys2Proof.Machine

/-- CLEAR's updates (spec/40_control.md R161); Complete follows as the next action. -/
def actClear (s : State) : Res := .next (s.dropTree.leaveError.goto .finish)

/-- All bits of a ReadBits are there: its caller goes on. -/
def actReceived (v : Word) (who : Reader) (s : State) : Res :=
  match who with
  | .tag => actTag (v.getLsbD 0) s
  | .symbol idx => actSymbol idx (v.setWidth 9) s
  | .code => actCodeBit (v.getLsbD 0) s
  | .magic => actMagic v s

/-- ReadBits: wait for a bit, or go on when none is left to read (spec/30_encoding.md R121). -/
def actRecv (left : Nat) (v : Word) (who : Reader) (s : State) : Res :=
  match left with
  | 0 => actReceived v who s
  | n + 1 => actRecvBit n v who s

/-- ReadBit returned EOS: each reader of bin has its own error (42 R201, 44 R262, 45 R282). -/
def actStarved (who : Reader) (s : State) : Res :=
  match who with
  | .tag => .next (s.raise .malformedTree 0 0)
  | .symbol _ => .next (s.raise .malformedTree 0 0)
  | .code => .next (s.raise .truncatedStream 0 0)
  | .magic => .next (s.raise .badMagic 1 0)

/-- One engine action at program point k. How the pseudocode is cut into actions: DESIGN CHOICE (log 15). -/
def act (k : Point) (s : State) : Res :=
  match k with
  | .clear => actClear s
  | .load => actLoad s
  | .recv left v who => actRecv left v who s
  | .starved who => actStarved who s
  | .parseRet idx => actParseRet idx s
  | .walk i p => actWalk i p s
  | .walkRet => actWalkRet s
  | .loadDone => actLoadDone s
  | .emitRoot => actEmitRoot s
  | .emit i => actEmit i s
  | .emitRet => actEmitRet s
  | .send bits next => actSend bits next s
  | .drain rest next => actDrain rest next s
  | .encode => actReadSym s
  | .gotSym b => actGotSym b s
  | .decode => actDecode s
  | .put v => actPut v s
  | .drainSym => actDrainSym s
  | .hdrWrite => actHdrWrite s
  | .hdrCheck => actHdrCheck s
  | .finish => .next s.complete

/-- One engine action (R152). An idle engine takes none (spec/60_exceptions.md R336), and a waiting engine stays
where it is (spec/70_reset_and_hazards.md R362). -/
def engineStep (s : State) : Res :=
  match s.eng with
  | .idle => .next s
  | .run _ k => act k s

/-- n engine actions in a row, up to the first that does not answer a next state. -/
def engineRun : Nat → State → Res
  | 0, s => .next s
  | n + 1, s =>
    match engineStep s with
    | .next t => engineRun n t
    | .fault r => .fault r
    | .refused r => .refused r

/-- A host event has left state s: the engine's actions up to the next host event follow, as many as the state's pace
says (spec/20_memory.md R100; log 1). -/
def afterEvent (s : State) : Res := engineRun s.env.pace s

end Sys2Proof.Machine
end

