-- ==== Sys2Proof/Machine/Commands.lean ====
section
/-! DEFINITION. The meaning of each command: the event of the CMD write (spec/40_control.md R150, R151), followed by
the engine actions that fall before the next host event (log 1). -/

namespace Sys2Proof.Machine

/-- NOP (spec/40_control.md R160): no effect, but for the drop while a command runs. -/
def execNop (s : State) : Res := afterEvent (s.request 0x0#4 true .finish)

/-- CLEAR (spec/40_control.md R161). -/
def execClear (s : State) : Res := afterEvent (s.request 0x1#4 true .clear)

/-- TREE_LOAD (spec/42_tree_codec.md R200). -/
def execTreeLoad (s : State) : Res := afterEvent (s.request 0x2#4 true .load)

/-- TREE_EMIT (spec/42_tree_codec.md R210). -/
def execTreeEmit (s : State) : Res := afterEvent (s.request 0x3#4 true .emitRoot)

/-- ENCODE (spec/43_stream_encoder.md R240). -/
def execEncode (s : State) : Res := afterEvent (s.request 0x4#4 true .encode)

/-- DECODE (spec/44_stream_decoder.md R260). -/
def execDecode (s : State) : Res := afterEvent (s.request 0x5#4 true .decode)

/-- HDR_WRITE (spec/45_container_header.md R280). -/
def execHdrWrite (s : State) : Res := afterEvent (s.request 0x6#4 true .hdrWrite)

/-- HDR_CHECK (spec/45_container_header.md R282). -/
def execHdrCheck (s : State) : Res := afterEvent (s.request 0x7#4 true .hdrCheck)

/-- (illegal) (spec/30_encoding.md R113, R114): ILLEGAL_COMMAND where it is accepted; `_rsvd` has no further effect. -/
def execIllegal (op : Opcode) (_rsvd : BitVec 28) (s : State) : Res := afterEvent (s.request op false .finish)

end Sys2Proof.Machine
end

