-- ==== Sys2Proof/Machine/Dispatch.lean ====
section
/-! DEFINITION. exec: one arm per command of spec/opcode_table.json. -/

namespace Sys2Proof.Machine

def exec (i : Instr) (s : State) : Host.Outcome State Fault Refusal :=
  match i with
  | .nop => Sys2Proof.Machine.execNop s
  | .clear => Sys2Proof.Machine.execClear s
  | .treeLoad => Sys2Proof.Machine.execTreeLoad s
  | .treeEmit => Sys2Proof.Machine.execTreeEmit s
  | .encode => Sys2Proof.Machine.execEncode s
  | .decode => Sys2Proof.Machine.execDecode s
  | .hdrWrite => Sys2Proof.Machine.execHdrWrite s
  | .hdrCheck => Sys2Proof.Machine.execHdrCheck s
  | .illegal op rsvd => Sys2Proof.Machine.execIllegal op rsvd s

end Sys2Proof.Machine
end

