-- ==== Sys2Proof/Machine/HostPort.lean ====
section
/-! DEFINITION. The host's statements other than a write to CMD (spec/30_encoding.md R126), the environment's events
(spec/20_memory.md R99), and which statement comes next. -/

namespace Sys2Proof.Machine

/-- What the host does next. -/
inductive Fetched where
  /-- The host program has ended: only the engine acts. -/
  | nothing
  /-- A supported write to CMD: the command it requests (spec/40_control.md R150). -/
  | command (i : Instr)
  /-- Any other statement. -/
  | other (st : HostStmt)
  deriving DecidableEq, Repr

/-- A statement as the step sees it: a 32-bit write to offset 0x0C is a command request (spec/10_state.md R37). -/
def classify (st : HostStmt) : Fetched :=
  match st with
  | .wr .word off w => if off = offCmd then .command (decodeWord w) else .other st
  | _ => .other st

/-- The host's next statement. -/
def fetch (s : State) : Fetched :=
  match s.env.hostProg[s.env.hostPc]? with
  | none => .nothing
  | some st => classify st

/-- The field [hi:lo] of a register value (spec/00_scope.md R11). -/
def fieldOf (v : Word) (hi lo : Nat) : Nat := (v.toNat >>> lo) % 2 ^ (hi + 1 - lo)

/-- A register write other than to CMD, one event (spec/20_memory.md R87). -/
def hostWrite (width : AccessWidth) (off : Offset) (w : Word) (s : State) : Res :=
  if supported width off then afterEvent (s.regWrite off w) else .refused .unsupportedAccess

/-- A register read, one event: only the host's own record of it changes (spec/20_memory.md R87). -/
def hostRead (width : AccessWidth) (off : Offset) (s : State) : Res :=
  if supported width off then afterEvent (s.noteRead off (s.regRead off)) else .refused .unsupportedAccess

/-- The producer of bin takes up p, which is `data` or not. It may not offer data once it has shown bin_end to a running
command; its end level it may set (spec/20_memory.md R99, spec/70_reset_and_hazards.md R355). -/
def produceBin (data : Bool) (p : Source Bool) (s : State) : Res :=
  if s.binEndShown && data then .refused .dataAfterEnd else afterEvent { s with env := { s.env with bin := p } }

/-- The producer of sin likewise (R99, R355). -/
def produceSin (data : Bool) (p : Source Byte) (s : State) : Res :=
  if s.sinEndShown && data then .refused .dataAfterEnd else afterEvent { s with env := { s.env with sin := p } }

/-- The host removes what is left on bin, before the next file or after a reset (spec/70_reset_and_hazards.md R354, R342):
no bit and no end marker is left. No offered bit is withdrawn while a command runs (spec/20_memory.md R99). -/
def removeBin (s : State) : Res :=
  if s.busy && s.env.bin.offering then .refused .dataWithdrawn
  else afterEvent { s with env := { s.env with bin := ⟨[], .more⟩ } }

/-- The host removes what is left on sin likewise (R342, R99). -/
def removeSin (s : State) : Res :=
  if s.busy && s.env.sin.offering then .refused .dataWithdrawn
  else afterEvent { s with env := { s.env with sin := ⟨[], .more⟩ } }

/-- EXPECT (spec/30_encoding.md R126): an assertion; nothing changes. -/
def hostExpect (off : Offset) (v : Word) (s : State) : Res :=
  if s.regRead off = v then .next s else .fault .expectFailed

/-- The value the host last read at off. -/
def lastRead (off : Offset) : List (Offset × Word) → Option Word
  | [] => none
  | (o, v) :: rs => if o = off then some v else lastRead off rs

/-- BNZ (spec/30_encoding.md R126): branch if the field last read is not 0; no block access. -/
def hostBranch (off : Offset) (hi lo target : Nat) (s : State) : Res :=
  match lastRead off s.env.reads with
  | none => .refused .branchBeforeRead
  | some v => if fieldOf v hi lo = 0 then .next s else .next (s.hostJump target)

/-- A host statement other than a write to CMD. -/
def hostStmt (st : HostStmt) (s : State) : Res :=
  match st with
  | .wr width off w => hostWrite width off w s
  | .rd width off => hostRead width off s
  | .bin bits fin => produceBin (!bits.isEmpty) (s.env.bin.extend bits fin) s
  | .sin bytes fin => produceSin (!bytes.isEmpty) (s.env.sin.extend bytes fin) s
  | .binEndless stream => produceBin true (s.env.bin.extendEndless stream) s
  | .sinEndless stream => produceSin true (s.env.sin.extendEndless stream) s
  | .binRemove => removeBin s
  | .sinRemove => removeSin s
  | .expect off v => hostExpect off v s
  | .bnz off hi lo target => hostBranch off hi lo target s
  | .boutReady level => afterEvent { s with env := { s.env with boutReady := level } }
  | .soutReady level => afterEvent { s with env := { s.env with soutReady := level } }
  | .resetPin => afterEvent s.blockReset
  | .pace n => .next { s with env := { s.env with pace := n } }

end Sys2Proof.Machine
end

