-- ==== Sys2Proof/Machine/Step.lean ====
section
/-! DEFINITION. One step: the host's next statement, or an engine action when the host program has ended. -/

namespace Sys2Proof.Machine

/-- One step (spec/20_memory.md R100, spec/30_encoding.md R126). -/
def step (s : State) : Host.Outcome State Fault Refusal :=
  match fetch s with
  | .nothing => engineStep s
  | .command i => exec i s.advanceHost
  | .other st => hostStmt st s.advanceHost

/-- s with a host program of the one statement WR CMD, w (spec/30_encoding.md R127), which the next step runs. -/
def State.withFetchWord (s : State) (nbits w : Nat) : State :=
  { s with
    env := { s.env with hostProg := [.wr .word offCmd (BitVec.ofNat 32 (w % 2 ^ nbits))], hostPc := 0 } }

end Sys2Proof.Machine
end

