-- ==== Sys2Proof/Machine/HostRef.lean ====
section
/-! DEFINITION. Host references: trees and their serialization (spec/30_encoding.md R116), codes (spec/42_tree_codec.md
R203), payloads (R119), the Tree Builder of host software (spec/41_tree_builder_host.md), and Parse as a function on
the offered bits (R201). The block implements none of them; statements about it are made in their terms. -/

namespace Sys2Proof.Machine

/-- A Huffman tree: a full binary tree (spec/00_scope.md R16). -/
inductive HTree where
  | leaf (sym : Symbol)
  | node (left right : HTree)
  deriving DecidableEq, Repr

/-- The number of nodes. -/
def HTree.size : HTree → Nat
  | .leaf _ => 1
  | .node l r => l.size + r.size + 1

/-- The number of leaves. -/
def HTree.leaves : HTree → Nat
  | .leaf _ => 1
  | .node l r => l.leaves + r.leaves

/-- The leaf symbols in pre-order. -/
def HTree.symbols : HTree → List Symbol
  | .leaf sym => [sym]
  | .node l r => l.symbols ++ r.symbols

/-- Every leaf symbol is in 0..256 (spec/30_encoding.md R118 (b)). -/
def HTree.legal : HTree → Bool
  | .leaf sym => decide (sym.toNat ≤ 256)
  | .node l r => l.legal && r.legal

/-- Ser(t): the pre-order encoding (R116). -/
def HTree.ser : HTree → Bits
  | .leaf sym => false :: symbolBits sym
  | .node l r => true :: (l.ser ++ r.ser)

/-- The leaves of a subtree reached by path p, in pre-order, each with its path (spec/42_tree_codec.md R203). -/
def HTree.codesFrom : HTree → Bits → List (Symbol × Bits)
  | .leaf sym, p => [(sym, p)]
  | .node l r, p => l.codesFrom (p ++ [false]) ++ r.codesFrom (p ++ [true])

/-- The (symbol, path) pairs of a tree, in pre-order. -/
def HTree.codes (t : HTree) : List (Symbol × Bits) := t.codesFrom []

/-- The subtree at the end of a path: 0 is left, 1 is right (spec/00_scope.md R16). -/
def HTree.follow : HTree → Bits → Option HTree
  | t, [] => some t
  | .leaf _, _ :: _ => none
  | .node l r, b :: p => if b then r.follow p else l.follow p

/-- The code table of a subtree reached by path p, added to ct: the writes of Walk (R203). -/
def HTree.record : HTree → Bits → Memory CodeEntry → Memory CodeEntry
  | .leaf sym, p, ct => Memory.write CodeEntry.unwritten ct sym.toNat ⟨true, p⟩
  | .node l r, p, ct => r.record (p ++ [true]) (l.record (p ++ [false]) ct)

/-- The code table of a tree (R203). -/
def HTree.codeTable (t : HTree) : Memory CodeEntry := t.record [] []

/-- A symbol's code in a code table, if it has one. -/
def codeIn (ct : Memory CodeEntry) (sym : Symbol) : Option Bits :=
  let e := Memory.read CodeEntry.unwritten ct sym.toNat
  if e.valid then some e.path else none

/-- The codes of a byte sequence, in order; none if a byte has no code. -/
def codesOf (ct : Memory CodeEntry) : List Byte → Option Bits
  | [] => some []
  | b :: bs =>
    match codeIn ct (symOfByte b), codesOf ct bs with
    | some p, some q => some (p ++ q)
    | _, _ => none

/-- The payload of a byte sequence: its codes, then the sentinel's code (spec/30_encoding.md R119). -/
def payload (ct : Memory CodeEntry) (bytes : List Byte) : Option Bits :=
  match codesOf ct bytes, codeIn ct Config.sentinel with
  | some p, some q => some (p ++ q)
  | _, _ => none

/-- The Grin file of a byte sequence and a tree: magic number, serialized tree, payload (spec/30_encoding.md R120,
spec/45_container_header.md R285). -/
def grinFile (magic : Word) (t : HTree) (bytes : List Byte) : Option Bits :=
  match payload t.codeTable bytes with
  | some p => some (bitsOf magic 32 ++ t.ser ++ p)
  | none => none

/-! ## The Tree Builder of host software -/

/-- An element of the priority queue: (freq, seq, node) (spec/41_tree_builder_host.md R183). -/
structure QueueElem where
  freq : Nat
  seq : Nat
  tree : HTree
  deriving DecidableEq, Repr

/-- The canonical tie-break: (freq, seq), lexicographically (R184). -/
def QueueElem.before (a b : QueueElem) : Bool := decide (a.freq < b.freq) || (a.freq == b.freq && decide (a.seq ≤ b.seq))

/-- Insertion into a queue kept in the order of R184. -/
def insertElem (e : QueueElem) : List QueueElem → List QueueElem
  | [] => [e]
  | x :: q => if e.before x then e :: x :: q else x :: insertElem e q

/-- The merging loop (R183, R185): the first removed is the left child. The fuel is the queue's length. -/
def mergeQueue : Nat → Nat → List QueueElem → HTree
  | n + 1, seq, a :: b :: q => mergeQueue n (seq + 1) (insertElem ⟨a.freq + b.freq, seq, .node a.tree b.tree⟩ q)
  | _, _, a :: _ => a.tree
  | _, _, [] => .leaf Config.sentinel

/-- The queue's leaves: the table's entries in ascending order of symbol, then the sentinel with frequency 1 (R182,
R183). -/
def leafQueue : Nat → List (Byte × Nat) → List QueueElem
  | seq, [] => [⟨1, seq, .leaf Config.sentinel⟩]
  | seq, (b, c) :: f => ⟨c, seq, .leaf (symOfByte b)⟩ :: leafQueue (seq + 1) f

/-- Build(F) for a frequency table in ascending order of symbol (R180, R183). -/
def build (f : List (Byte × Nat)) : HTree :=
  mergeQueue (f.length + 1) (f.length + 1) ((leafQueue 0 f).foldl (fun q e => insertElem e q) [])

/-- The counting pass (R181): one entry for each byte value that occurs, in ascending order. -/
def freqTable (bytes : List Byte) : List (Byte × Nat) :=
  (List.range 256).filterMap fun k =>
    let c := bytes.count (BitVec.ofNat 8 k)
    if c = 0 then none else some (BitVec.ofNat 8 k, c)

/-! ## Parse on the offered bits -/

/-- How Parse ends on a finite bit string followed by END (spec/42_tree_codec.md R201, R202). -/
inductive ParseResult where
  /-- The tree and the bits after it. -/
  | parsed (t : HTree) (rest : Bits)
  /-- MALFORMED_TREE/EXHAUSTED: all bits are consumed (R202 (a), (b)). -/
  | exhausted
  /-- MALFORMED_TREE/BAD_SYMBOL: the value and the bits after it (R202 (c)). -/
  | badSymbol (v : Symbol) (rest : Bits)
  /-- TREE_OVERFLOW: the bits after the tag bit that needs a node too many (R202 (d)). -/
  | overflow (rest : Bits)
  deriving DecidableEq, Repr

/-- The value of a 9-bit field, first bit most significant (spec/30_encoding.md R121). -/
def fieldValue (bits : Bits) : Symbol := (bits.foldl shiftIn 0).setWidth 9

/-- Parse with n nodes already allocated (R201). The fuel bounds the nesting: one more than the bits is enough. -/
def parseBits : Nat → Nat → Bits → ParseResult
  | 0, _, _ => .exhausted
  | _ + 1, _, [] => .exhausted
  | fuel + 1, n, true :: bs =>
    if n = Config.nodeCap then .overflow bs
    else match parseBits fuel (n + 1) bs with
      | .parsed l rest =>
        match parseBits fuel (n + 1 + l.size) rest with
        | .parsed r rest' => .parsed (.node l r) rest'
        | e => e
      | e => e
  | _ + 1, n, false :: bs =>
    if n = Config.nodeCap then .overflow bs
    else if bs.length < 9 then .exhausted
    else if 256 < (fieldValue (bs.take 9)).toNat then .badSymbol (fieldValue (bs.take 9)) (bs.drop 9)
    else .parsed (.leaf (fieldValue (bs.take 9))) (bs.drop 9)

/-- What TREE_LOAD makes of a bit string followed by END. -/
def parseStream (bits : Bits) : ParseResult := parseBits (bits.length + 1) 0 bits

end Sys2Proof.Machine
end

