-- ==== Sys2Proof/Safety.lean ====
section
/-! DEFINITION. The terms statements are made in: trees in the node store, states in which a command can start, the
invariant of the block, and reachable states. -/

namespace Sys2Proof.Machine

/-! ## Trees in the node store -/

/-- Tree t is laid out in pre-order from index i on (spec/10_state.md R55, R56): an Internal node's left child is the
next index, its right child comes after the left subtree, and leaf symbols are in 0..256. -/
def Laid (ns : Memory Node) : Nat → HTree → Prop
  | i, .leaf sym => Memory.read Node.unwritten ns i = .leaf sym ∧ sym.toNat ≤ 256
  | i, .node l r =>
    Memory.read Node.unwritten ns i = .internal (BitVec.ofNat 10 (i + 1)) (BitVec.ofNat 10 (i + 1 + l.size)) ∧
      Laid ns (i + 1) l ∧ Laid ns (i + 1 + l.size) r

/-- The loaded tree is t (spec/42_tree_codec.md R207): NS, NODE_COUNT, CT and TREE_VALID describe it. -/
def Loaded (s : State) (t : HTree) : Prop :=
  Laid s.ns 0 t ∧ t.size ≤ Config.nodeCap ∧ s.nodeCount = BitVec.ofNat 10 t.size ∧ s.ct = t.codeTable ∧
    s.treeValid = true

/-- No tree is loaded: TREE_VALID and NODE_COUNT are 0 and no code-table entry is valid (spec/10_state.md R42, R59). -/
def NoTree (s : State) : Prop := s.treeValid = false ∧ s.nodeCount = 0 ∧ s.ct = []

/-! ## Streams -/

/-- The producer p offers the beats xs, in order, and is q once they are consumed (spec/20_memory.md R94). Some of them
may come from an endless stream, whose beats `gen` gives. -/
def Source.Offers {α : Type} (gen : Nat → Nat → α) : Source α → List α → Source α → Prop
  | p, [], q => p = q
  | p, x :: xs, q => p.beat gen = .beat x ∧ Source.Offers gen p.drop xs q

/-- The bin producer p offers these bits, and is q once they are consumed. -/
abbrev OffersBits : Source Bool → Bits → Source Bool → Prop := Source.Offers Config.endlessBit

/-- The sin producer p offers these bytes, and is q once they are consumed. -/
abbrev OffersBytes : Source Byte → List Byte → Source Byte → Prop := Source.Offers Config.endlessByte

/-! ## States in which a command can start -/

/-- No command runs and no output beat is pending (spec/20_memory.md R95). -/
def State.quiet (s : State) : Prop := s.eng = .idle ∧ s.boutValid = false ∧ s.soutValid = false

/-- The registers as acceptance of a command leaves them (spec/40_control.md R151): DONE = 0, the four event counters
0, STATUS.OP = op. -/
def State.begun (s : State) (op : Opcode) : State := { s.zeroCounters with done := false, op := op }

/-- The registers as a command's error entry leaves them (spec/60_exceptions.md R305): ERR = 1, DONE = 0, ERRINFO. -/
def State.failed (s : State) (errinfo : Word) : State := { s with err := true, done := false, errinfo := errinfo }

/-! ## The invariant -/

/-- The parser's stack while the subtree at index n is parsed (spec/42_tree_codec.md R201): every frame's left subtree is
complete and its right subtree starts right after it, at n or before. So a frame takes two indices below n. -/
def ParseStack (ns : Memory Node) : List Frame → Nat → Prop
  | [], _ => True
  | f :: fs, n =>
    f.right.toNat ≤ n ∧ (∃ t, Laid ns (f.node.toNat + 1) t ∧ f.right.toNat = f.node.toNat + 1 + t.size) ∧
      ParseStack ns fs f.node.toNat

/-- The stack's subtrees lie one after the other from index n on, and visiting them in turn takes the code table from ct
to goal (R203). -/
def WalkStack (ns : Memory Node) : List Frame → Nat → Memory CodeEntry → Memory CodeEntry → Prop
  | [], n, ct, goal => n ≤ Config.nodeCap ∧ ct = goal
  | f :: fs, n, ct, goal =>
    f.node.toNat = n ∧ ∃ t, Laid ns n t ∧ WalkStack ns fs (n + t.size) (t.record f.path ct) goal

/-- The stack's subtrees lie one after the other from index n on (R210). -/
def EmitStack (ns : Memory Node) : List Frame → Nat → Prop
  | [], n => n ≤ Config.nodeCap
  | f :: fs, n => f.node.toNat = n ∧ ∃ t, Laid ns n t ∧ EmitStack ns fs (n + t.size)

/-- TREE_LOAD has parsed tree t and is building its code table. -/
def Parsed (s : State) (t : HTree) : Prop :=
  s.treeValid = false ∧ s.nodeCount = 0 ∧ Laid s.ns 0 t ∧ t.size ≤ Config.nodeCap ∧ s.alloc = BitVec.ofNat 10 t.size

/-- POS is an Internal node of a tree in the node store (spec/44_stream_decoder.md R265). -/
def AtInternal (s : State) : Prop :=
  ∃ l r, Laid s.ns s.pos.toNat (.node l r) ∧ s.pos.toNat + (HTree.node l r).size ≤ Config.nodeCap

/-- Where WriteBits may go on. -/
def Point.afterSend : Point → Bool
  | .emit _ => true
  | .emitRet => true
  | .encode => true
  | .finish => true
  | _ => false

/-- What holds at program point k of a running command with opcode op. -/
def PointOk (s : State) (op : Opcode) : Point → Prop
  | .clear => op = 0x1#4
  | .load => op = 0x2#4
  | .recv left _ .tag =>
    op = 0x2#4 ∧ left ≤ 1 ∧ NoTree s ∧ s.alloc.toNat ≤ Config.nodeCap ∧ ParseStack s.ns s.stack s.alloc.toNat
  | .recv left _ (.symbol idx) =>
    op = 0x2#4 ∧ left ≤ 9 ∧ NoTree s ∧ s.alloc.toNat ≤ Config.nodeCap ∧ s.alloc.toNat = idx.toNat + 1 ∧
      ParseStack s.ns s.stack idx.toNat
  | .recv left _ .code => op = 0x5#4 ∧ left ≤ 1 ∧ AtInternal s
  | .recv left _ .magic => op = 0x7#4 ∧ left ≤ 32
  | .starved .tag => op = 0x2#4 ∧ NoTree s
  | .starved (.symbol _) => op = 0x2#4 ∧ NoTree s
  | .starved .code => op = 0x5#4
  | .starved .magic => op = 0x7#4
  | .parseRet idx =>
    op = 0x2#4 ∧ NoTree s ∧ s.alloc.toNat ≤ Config.nodeCap ∧
      (∃ t, Laid s.ns idx.toNat t ∧ s.alloc.toNat = idx.toNat + t.size) ∧ ParseStack s.ns s.stack idx.toNat
  | .walk i p =>
    op = 0x2#4 ∧ s.stack.length ≤ i.toNat ∧ ∃ t, Parsed s t ∧
      ∃ u, Laid s.ns i.toNat u ∧ WalkStack s.ns s.stack (i.toNat + u.size) (u.record p s.ct) t.codeTable
  | .walkRet =>
    op = 0x2#4 ∧ ∃ t, Parsed s t ∧ ∃ n, s.stack.length ≤ n ∧ WalkStack s.ns s.stack n s.ct t.codeTable
  | .loadDone => op = 0x2#4 ∧ ∃ t, Parsed s t ∧ s.ct = t.codeTable
  | .emitRoot => op = 0x3#4
  | .emit i =>
    op = 0x3#4 ∧ s.stack.length ≤ i.toNat ∧ ∃ u, Laid s.ns i.toNat u ∧ EmitStack s.ns s.stack (i.toNat + u.size)
  | .emitRet => op = 0x3#4 ∧ ∃ n, s.stack.length ≤ n ∧ EmitStack s.ns s.stack n
  | .send _ next => next.afterSend = true ∧ PointOk s op next
  | .drain _ next => next.afterSend = true ∧ PointOk s op next
  | .encode => op = 0x4#4
  | .gotSym _ => op = 0x4#4
  | .decode => op = 0x5#4
  | .put _ => op = 0x5#4
  | .drainSym => op = 0x5#4
  | .hdrWrite => op = 0x6#4
  | .hdrCheck => op = 0x7#4
  | .finish => 1 ≤ op.toNat ∧ op.toNat ≤ 7

/-- TREE_LOAD is between the end of Parse and its last updates: the code table is being built. -/
def State.building (s : State) : Bool :=
  match s.eng with
  | .run _ (.walk _ _) => true
  | .run _ .walkRet => true
  | .run _ .loadDone => true
  | _ => false

/-- An output bit is offered on bout and not yet taken. -/
def State.draining (s : State) : Bool :=
  match s.eng with
  | .run _ (.drain _ _) => true
  | _ => false

/-- An output byte is offered on sout and not yet taken. -/
def State.drainingSym (s : State) : Bool :=
  match s.eng with
  | .run _ .drainSym => true
  | _ => false

/-- The invariant of the block: it holds after reset in every environment, and every step keeps it. -/
structure Inv (s : State) : Prop where
  /-- NS is in canonical form. -/
  nsWf : Memory.wf Node.unwritten s.ns = true
  /-- CT is in canonical form. -/
  ctWf : Memory.wf CodeEntry.unwritten s.ct = true
  /-- BOUT.VALID is 1 exactly while a bit is offered and not taken (20 R92, R95, R96). -/
  bout : s.boutValid = s.draining
  /-- SOUT.VALID is 1 exactly while a byte is offered and not taken (20 R93, R95, R96). -/
  sout : s.soutValid = s.drainingSym
  /-- DONE and ERR are never both 1 while idle (40 R163 (b)). -/
  idle : s.eng = .idle → (s.done && s.err) = false
  /-- A running command is the last accepted one, DONE is 0, ERR can be 1 only before CLEAR's updates, a command that
  needs a tree has one, and its program point is sound. -/
  running : ∀ op k, s.eng = .run op k →
    op = s.op ∧ s.done = false ∧ (s.err = true → k = .clear) ∧ (needsTree op = true → s.treeValid = true) ∧
      PointOk s op k
  /-- The walk stack has at most 256 frames (10 R62, 00 R10). -/
  depth : s.stack.length ≤ 256
  /-- A tree is loaded, or there is none (10 R42, R56, R59), but for the time in which TREE_LOAD builds the table. -/
  tree : s.building = true ∨ (∃ t, Loaded s t) ∨ NoTree s

/-- States a run from a reset meets, for every MAGIC_RESET and every host and environment. -/
inductive Reachable : State → Prop
  | reset (m : Word) (e : Env) : Reachable (State.resetIn m e)
  | step {s t : State} : Reachable s → Machine.step s = .next t → Reachable t

end Sys2Proof.Machine
end

