-- ==== Sys2Proof/Certificates/Slice0/Obligations.lean ====
section
/-! DEFINITION. The statements for the provers. Each docstring names the rules of spec/ it formalises. -/

open Sys2Proof Sys2Proof.Machine

/-! ## Encoding (spec/30_encoding.md) -/

/-- R111-R114: decoding the word of a well-formed command, as a word or by its byte lanes, gives the command back. -/
def Obligations.DecodeOfEncode : Prop :=
  ∀ i : Instr, i.wf = true → decodeWord (encode i) = i ∧ decodeBytes (wordLanes (encode i)) = .ok i

/-- R111-R114: every word decodes to a well-formed command, and encoding that command gives the word back. -/
def Obligations.EncodeOfDecode : Prop := ∀ w : Word, (decodeWord w).wf = true ∧ encode (decodeWord w) = w

/-- R112, R113: words of the opcode table, written out, decode to what they stand for. -/
def Obligations.TableWordsDecode : Prop :=
  decodeWord 0x00000000#32 = .nop ∧ decodeWord 0x00000001#32 = .clear ∧ decodeWord 0x00000002#32 = .treeLoad ∧
    decodeWord 0x00000003#32 = .treeEmit ∧ decodeWord 0x00000004#32 = .encode ∧
    decodeWord 0x00000005#32 = .decode ∧ decodeWord 0x00000006#32 = .hdrWrite ∧
    decodeWord 0x00000007#32 = .hdrCheck ∧ decodeWord 0x00000008#32 = .illegal 0x8#4 0#28 ∧
    decodeWord 0x0000000F#32 = .illegal 0xF#4 0#28 ∧ decodeWord 0x00000010#32 = .illegal 0x0#4 1#28 ∧
    decodeWord 0x80000002#32 = .illegal 0x2#4 0x8000000#28

/-- R113, R114: a word is illegal exactly if RSVD is not 0 or OP is 8..15, and then its fields are kept. -/
def Obligations.IllegalWordsAreTheRest : Prop :=
  ∀ (w : Word) (op : Opcode) (rsvd : BitVec 28),
    decodeWord w = .illegal op rsvd ↔
      op = w.extractLsb' 0 4 ∧ rsvd = w.extractLsb' 4 28 ∧ (rsvd ≠ 0#28 ∨ 8 ≤ op.toNat)

/-! ## The step (spec/20_memory.md R100, spec/30_encoding.md R124, R126) -/

/-- R124, R150: a step whose next host statement is a 32-bit write of w to CMD is exec of the command w encodes, the
host having gone on to its next statement.
Rests on choices of the model: logs 1 and 8. -/
def Obligations.StepRunsDecodedCommand : Prop :=
  ∀ s : State,
    (∀ w, s.env.hostProg[s.env.hostPc]? = some (.wr .word 0x0C#8 w) → step s = exec (decodeWord w) s.advanceHost) ∧
    (∀ i : Instr, i.wf = true → s.env.hostProg[s.env.hostPc]? = some (.wr .word 0x0C#8 (encode i)) →
      step s = exec i s.advanceHost)

/-- R100, R152: when the host program has ended, a step is one engine action.
Rests on choices of the model: logs 1 and 15. -/
def Obligations.StepAfterHostIsEngineAction : Prop :=
  ∀ s : State, s.env.hostProg[s.env.hostPc]? = none → step s = engineStep s

/-! ## Command request and acceptance (spec/40_control.md R150, R151) -/

/-- R150, R310, R350: a command written while another runs only sets DROP; the engine goes on with its command.
Rests on choices of the model: log 1. -/
def Obligations.BusyCommandIsDropped : Prop :=
  ∀ (i : Instr) (s : State), s.busy = true → exec i s = engineRun s.env.pace { s with drop := true }

/-- R150, R310, R312: in the error state every command but NOP and CLEAR only sets DROP.
Rests on choices of the model: log 1. -/
def Obligations.ErrorStateDropsCommands : Prop :=
  ∀ (i : Instr) (s : State), s.eng = .idle → s.err = true → i ≠ .nop → i ≠ .clear →
    exec i s = .next { s with drop := true }

/-- R160: a NOP that is not dropped changes nothing, in the error state too. -/
def Obligations.NopCompletes : Prop := ∀ s : State, s.eng = .idle → exec .nop s = .next s

/-- R113, R114, R151, R305: an accepted illegal command ends at once in ILLEGAL_COMMAND with EOP = OP, and changes
nothing else. -/
def Obligations.IllegalCommandEntersError : Prop :=
  ∀ (op : Opcode) (rsvd : BitVec 28) (s : State), s.eng = .idle → s.err = false →
    exec (.illegal op rsvd) s = .next ((s.begun op).failed (0x00000008#32 ||| (op.setWidth 32 <<< 4)))

/-- R151, R305: TREE_EMIT, ENCODE and DECODE without a loaded tree end at once in NO_TREE, and change nothing else. -/
def Obligations.CommandWithoutTreeEntersError : Prop :=
  ∀ s : State, s.eng = .idle → s.err = false → s.treeValid = false →
    exec .treeEmit s = .next ((s.begun 0x3#4).failed 0x00000037#32) ∧
      exec .encode s = .next ((s.begun 0x4#4).failed 0x00000047#32) ∧
      exec .decode s = .next ((s.begun 0x5#4).failed 0x00000057#32)

/-- R161, R151, R153: CLEAR, in the error state too, discards the tree, leaves the error state, clears DROP and
completes; nothing else changes. CLEAR takes two engine actions.
Rests on choices of the model: logs 1, 4 and 15. -/
def Obligations.ClearCompletes : Prop :=
  ∀ s : State, s.eng = .idle → 2 ≤ s.env.pace →
    exec .clear s = .next { s.begun 0x1#4 with
      done := true, treeValid := false, nodeCount := 0#10, ct := [], err := false, errinfo := 0#32, drop := false }

/-! ## Container header (spec/45_container_header.md) -/

/-- R280: HDR_WRITE gives the 32 bits of MAGIC, most significant first, to bout and completes; nothing else changes.
Rests on choices of the model: logs 1, 7 and 15. -/
def Obligations.HdrWriteCompletes : Prop :=
  ∀ s : State, s.quiet → s.err = false → s.env.boutReady = true → 67 ≤ s.env.pace →
    exec .hdrWrite s = .next { s.begun 0x6#4 with
      done := true, bitsOut := 32#32, boutBit := s.magic.getLsbD 0,
      env := { s.env with boutTaken := s.env.boutTaken ++ bitsOf s.magic 32 } }

/-- R282: HDR_CHECK on a stream that begins with MAGIC consumes 32 bits and completes; nothing else changes.
Rests on choices of the model: logs 1, 15 and 16. -/
def Obligations.HdrCheckCompletes : Prop :=
  ∀ (s : State) (q : Source Bool), s.eng = .idle → s.err = false → OffersBits s.env.bin (bitsOf s.magic 32) q →
    35 ≤ s.env.pace →
    exec .hdrCheck s = .next { s.begun 0x7#4 with
      done := true, bitsIn := 32#32, env := { s.env with bin := q } }

/-- R282, R283: HDR_CHECK on 32 other bits consumes all of them and ends in BAD_MAGIC, MISMATCH.
Rests on choices of the model: logs 1, 15 and 16. -/
def Obligations.HdrCheckRejectsMismatch : Prop :=
  ∀ (s : State) (v : Word) (q : Source Bool), s.eng = .idle → s.err = false → v ≠ s.magic →
    OffersBits s.env.bin (bitsOf v 32) q → 34 ≤ s.env.pace →
    exec .hdrCheck s = .next ({ s.begun 0x7#4 with
      bitsIn := 32#32, env := { s.env with bin := q } }.failed 0x00000071#32)

/-- R283: HDR_CHECK on a stream that ends before 32 bits consumes it and ends in BAD_MAGIC, SHORT.
Rests on choices of the model: logs 1, 15 and 16. -/
def Obligations.HdrCheckRejectsShortStream : Prop :=
  ∀ (s : State) (x : Bits), s.eng = .idle → s.err = false → s.env.bin = ⟨x, .fin⟩ → x.length < 32 →
    34 ≤ s.env.pace →
    exec .hdrCheck s = .next ({ s.begun 0x7#4 with
      bitsIn := BitVec.ofNat 32 x.length, env := { s.env with bin := ⟨[], .fin⟩ } }.failed 0x00000171#32)

/-! ## Tree codec (spec/42_tree_codec.md) -/

/-- R200, R203, R207, R212 (b), and R94: TREE_LOAD of Ser(t), for every tree of at most 513 nodes with legal symbols,
consumes exactly those bits, loads t with its code table, and completes; entries of NS past the tree and every other
register keep their values. It takes 19 engine actions a leaf, less one.
Rests on choices of the model: logs 1, 3, 4, 5, 15 and 16. -/
def Obligations.TreeLoadCompletes : Prop :=
  ∀ (t : HTree) (q : Source Bool) (s : State), t.legal = true → t.size ≤ 513 → s.eng = .idle → s.err = false →
    Memory.wf Node.unwritten s.ns = true → OffersBits s.env.bin t.ser q → 19 * t.leaves ≤ s.env.pace →
    ∃ ns : Memory Node,
      exec .treeLoad s = .next { s.begun 0x2#4 with
        done := true, treeValid := true, nodeCount := BitVec.ofNat 10 t.size, ns := ns, ct := t.codeTable,
        bitsIn := BitVec.ofNat 32 t.ser.length, stack := [], alloc := BitVec.ofNat 10 t.size,
        env := { s.env with bin := q } } ∧
      Laid ns 0 t ∧
      ∀ a, t.size ≤ a → Memory.read Node.unwritten ns a = Memory.read Node.unwritten s.ns a

/-- R201, R202, R207: on every finite stream followed by END, TREE_LOAD ends as Parse does on those bits: it loads the
tree parsed, or fails with the cause, sub-cause, value and bit count of the first error, and then no tree is loaded.
Rests on choices of the model: logs 1, 4, 15 and 16. -/
def Obligations.TreeLoadFollowsParse : Prop :=
  ∀ (s : State) (x : Bits), s.eng = .idle → s.err = false → Memory.wf Node.unwritten s.ns = true →
    s.env.bin = ⟨x, .fin⟩ → 8 * (x.length + 1) ≤ s.env.pace →
    ∃ u : State, exec .treeLoad s = .next u ∧ u.eng = .idle ∧ u.op = 0x2#4 ∧
      match parseStream x with
      | .parsed t rest =>
        Loaded u t ∧ u.done = true ∧ u.err = false ∧ u.errinfo = s.errinfo ∧
          u.env = { s.env with bin := ⟨rest, .fin⟩ } ∧ u.bitsIn = BitVec.ofNat 32 (x.length - rest.length)
      | .exhausted =>
        NoTree u ∧ u.done = false ∧ u.err = true ∧ u.errinfo = 0x00000022#32 ∧
          u.env = { s.env with bin := ⟨[], .fin⟩ } ∧ u.bitsIn = BitVec.ofNat 32 x.length
      | .badSymbol v rest =>
        NoTree u ∧ u.done = false ∧ u.err = true ∧ u.errinfo = 0x00000122#32 ||| (v.setWidth 32 <<< 16) ∧
          u.env = { s.env with bin := ⟨rest, .fin⟩ } ∧ u.bitsIn = BitVec.ofNat 32 (x.length - rest.length)
      | .overflow rest =>
        NoTree u ∧ u.done = false ∧ u.err = true ∧ u.errinfo = 0x00000025#32 ∧
          u.env = { s.env with bin := ⟨rest, .fin⟩ } ∧ u.bitsIn = BitVec.ofNat 32 (x.length - rest.length)

/-- R210: TREE_EMIT gives Ser(t) of the loaded tree to bout and completes; nothing else changes. It takes 27 engine
actions a leaf, less two.
Rests on choices of the model: logs 1, 5, 7 and 15. -/
def Obligations.TreeEmitCompletes : Prop :=
  ∀ (t : HTree) (s : State), Loaded s t → s.quiet → s.err = false → s.env.boutReady = true →
    27 * t.leaves ≤ s.env.pace →
    exec .treeEmit s = .next { s.begun 0x3#4 with
      done := true, bitsOut := BitVec.ofNat 32 t.ser.length, stack := [], boutBit := t.ser.getLastD false,
      env := { s.env with boutTaken := s.env.boutTaken ++ t.ser } }

/-- R212 (a): after a TREE_LOAD that succeeded and consumed the bits x, TREE_EMIT gives exactly x to bout, in every
environment whose consumer accepts them.
Rests on choices of the model: logs 1, 15 and 16. -/
def Obligations.EmitGivesBackLoadedBits : Prop :=
  ∀ s u : State, s.quiet → s.err = false → Memory.wf Node.unwritten s.ns = true →
    exec .treeLoad s = .next u → u.eng = .idle → u.done = true →
    ∃ x : Bits, OffersBits s.env.bin x u.env.bin ∧ u.bitsIn = BitVec.ofNat 32 x.length ∧
      ∀ e : Env, e.boutReady = true → 27 * x.length ≤ e.pace →
        ∃ v, exec .treeEmit { u with env := e } = .next v ∧ v.done = true ∧ v.err = false ∧
          v.bitsOut = u.bitsIn ∧ v.env = { e with boutTaken := e.boutTaken ++ x }

/-! ## Stream encoder (spec/43_stream_encoder.md) -/

/-- R240, R119: ENCODE of bytes that all have a code gives the payload to bout and completes; nothing else changes.
Rests on choices of the model: logs 1, 7, 15 and 16. -/
def Obligations.EncodeCompletes : Prop :=
  ∀ (s : State) (bytes : List Byte) (p : Bits), s.quiet → s.err = false → s.treeValid = true →
    s.env.sin = ⟨bytes, .fin⟩ → payload s.ct bytes = some p → s.env.boutReady = true →
    3 * bytes.length + 2 * p.length + 4 ≤ s.env.pace →
    exec .encode s = .next { s.begun 0x4#4 with
      done := true, symsIn := BitVec.ofNat 32 bytes.length, bitsOut := BitVec.ofNat 32 p.length,
      boutBit := p.getLastD s.boutBit,
      env := { s.env with sin := ⟨[], .fin⟩, boutTaken := s.env.boutTaken ++ p } }

/-- R242: at a byte without a code ENCODE ends in LOOKUP_ERROR with ESYM that byte, before any bit of its code; the
codes of the bytes before it stay on bout, and the byte is counted.
Rests on choices of the model: logs 1, 7, 15 and 16. -/
def Obligations.EncodeByteWithoutCode : Prop :=
  ∀ (s : State) (pre : List Byte) (b : Byte) (q : Source Byte) (p : Bits), s.quiet → s.err = false →
    s.treeValid = true → OffersBytes s.env.sin (pre ++ [b]) q → codesOf s.ct pre = some p →
    codeIn s.ct (symOfByte b) = none → s.env.boutReady = true → 3 * pre.length + 2 * p.length + 2 ≤ s.env.pace →
    exec .encode s = .next ({ s.begun 0x4#4 with
      symsIn := BitVec.ofNat 32 (pre.length + 1), bitsOut := BitVec.ofNat 32 p.length, boutBit := p.getLastD s.boutBit,
      env := { s.env with sin := q, boutTaken := s.env.boutTaken ++ p } }.failed
        (0x00000044#32 ||| (b.setWidth 32 <<< 16)))

/-- R241: with no code for the sentinel ENCODE encodes its whole input and then ends in LOOKUP_ERROR, ESYM = 256.
Rests on choices of the model: logs 1, 7, 15 and 16. -/
def Obligations.EncodeWithoutSentinel : Prop :=
  ∀ (s : State) (bytes : List Byte) (p : Bits), s.quiet → s.err = false → s.treeValid = true →
    s.env.sin = ⟨bytes, .fin⟩ → codesOf s.ct bytes = some p → codeIn s.ct 256#9 = none → s.env.boutReady = true →
    3 * bytes.length + 2 * p.length + 2 ≤ s.env.pace →
    exec .encode s = .next ({ s.begun 0x4#4 with
      symsIn := BitVec.ofNat 32 bytes.length, bitsOut := BitVec.ofNat 32 p.length,
      boutBit := p.getLastD s.boutBit,
      env := { s.env with sin := ⟨[], .fin⟩, boutTaken := s.env.boutTaken ++ p } }.failed 0x01000044#32)

/-! ## Stream decoder (spec/44_stream_decoder.md) -/

/-- R260, R263, R265: with a tree of two leaves or more loaded, DECODE of codes that end with one of the sentinel
writes their bytes to sout, consumes no bit after the sentinel's code, and completes; nothing else but POS changes.
Rests on choices of the model: logs 1, 5, 7, 15 and 16. -/
def Obligations.DecodeCompletes : Prop :=
  ∀ (s : State) (l r : HTree) (items : List (Byte × Bits)) (last : Bits) (q : Source Bool), Loaded s (.node l r) →
    s.quiet → s.err = false → (∀ x ∈ items, (HTree.node l r).follow x.2 = some (.leaf (symOfByte x.1))) →
    (HTree.node l r).follow last = some (.leaf 256#9) →
    OffersBits s.env.bin (items.flatMap Prod.snd ++ last) q → s.env.soutReady = true →
    3 * items.length + 2 * (items.flatMap Prod.snd ++ last).length + 2 ≤ s.env.pace →
    ∃ pos : NodeIdx, exec .decode s = .next { s.begun 0x5#4 with
      done := true, bitsIn := BitVec.ofNat 32 (items.flatMap Prod.snd ++ last).length,
      symsOut := BitVec.ofNat 32 items.length, pos := pos, soutData := (items.map Prod.fst).getLastD s.soutData,
      env := { s.env with bin := q, soutTaken := s.env.soutTaken ++ items.map Prod.fst } } ∧
      s.nodeData pos = .leaf 256#9

/-- R262: when the stream ends inside a code, or at the end of one, before a sentinel's leaf, DECODE ends in
TRUNCATED_STREAM; the bytes written stay written and all bits are consumed.
Rests on choices of the model: logs 1, 5, 7, 15 and 16. -/
def Obligations.DecodeOfTruncatedStream : Prop :=
  ∀ (s : State) (l r l' r' : HTree) (items : List (Byte × Bits)) (part : Bits), Loaded s (.node l r) → s.quiet →
    s.err = false → (∀ x ∈ items, (HTree.node l r).follow x.2 = some (.leaf (symOfByte x.1))) →
    (HTree.node l r).follow part = some (.node l' r') →
    s.env.bin = ⟨items.flatMap Prod.snd ++ part, .fin⟩ → s.env.soutReady = true →
    3 * items.length + 2 * (items.flatMap Prod.snd ++ part).length + 3 ≤ s.env.pace →
    ∃ pos : NodeIdx, exec .decode s = .next ({ s.begun 0x5#4 with
      bitsIn := BitVec.ofNat 32 (items.flatMap Prod.snd ++ part).length, symsOut := BitVec.ofNat 32 items.length, pos := pos,
      soutData := (items.map Prod.fst).getLastD s.soutData,
      env := { s.env with bin := ⟨[], .fin⟩, soutTaken := s.env.soutTaken ++ items.map Prod.fst } }.failed
        0x00000053#32)

/-- R261: with a one-leaf tree loaded DECODE reads no bit: it completes at once if the leaf is the sentinel, and ends in
DEGENERATE_TREE with ESYM the leaf's symbol if it is not.
Rests on choices of the model: logs 1 and 15. -/
def Obligations.DecodeOfOneLeafTree : Prop :=
  ∀ (s : State) (sym : Symbol), Loaded s (.leaf sym) → s.eng = .idle → s.err = false → 2 ≤ s.env.pace →
    exec .decode s =
      if sym = 256#9 then .next { s.begun 0x5#4 with done := true, pos := 0#10 }
      else .next ({ s.begun 0x5#4 with pos := 0#10 }.failed (0x00000056#32 ||| (sym.setWidth 32 <<< 16)))

/-! ## Round trip, corruption, and the host's trees -/

/-- R266, R183: for every byte sequence S, with t the tree the host builds for S: TREE_LOAD of Ser(t) loads t; with t
loaded ENCODE of S completes and gives a payload P, the same in every state; and DECODE of P and any further bits
writes exactly S to sout, completes, and consumes exactly P.
Rests on choices of the model: logs 1, 15 and 16. -/
def Obligations.RoundTripOfBytes : Prop :=
  ∀ S : List Byte, ∃ P : Bits,
    (∀ (s : State) (q : Source Bool), s.eng = .idle → s.err = false → Memory.wf Node.unwritten s.ns = true →
      OffersBits s.env.bin (build (freqTable S)).ser q → 19 * 257 ≤ s.env.pace →
      ∃ u, exec .treeLoad s = .next u ∧ u.eng = .idle ∧ u.done = true ∧ u.err = false ∧
        Loaded u (build (freqTable S)) ∧ u.env = { s.env with bin := q }) ∧
    (∀ s : State, Loaded s (build (freqTable S)) → s.quiet → s.err = false → s.env.sin = ⟨S, .fin⟩ →
      s.env.boutReady = true → 3 * S.length + 2 * P.length + 4 ≤ s.env.pace →
      ∃ u, exec .encode s = .next u ∧ u.eng = .idle ∧ u.done = true ∧ u.err = false ∧
        u.env.boutTaken = s.env.boutTaken ++ P) ∧
    (∀ (s : State) (q : Source Bool), Loaded s (build (freqTable S)) → s.quiet → s.err = false →
      OffersBits s.env.bin P q → s.env.soutReady = true → 3 * S.length + 2 * P.length + 2 ≤ s.env.pace →
      ∃ u, exec .decode s = .next u ∧ u.eng = .idle ∧ u.done = true ∧ u.err = false ∧
        u.env.soutTaken = s.env.soutTaken ++ S ∧ u.env.bin = q ∧ u.bitsIn = BitVec.ofNat 32 P.length)

/-- R267: with the host's tree for S loaded, DECODE of any proper prefix of the payload of S, followed by END, ends in
TRUNCATED_STREAM.
Rests on choices of the model: logs 1, 15 and 16. -/
def Obligations.TruncatedPayloadIsDetected : Prop :=
  ∀ (S : List Byte) (P Q more : Bits) (s : State), payload (build (freqTable S)).codeTable S = some P →
    P = Q ++ more → more ≠ [] → Loaded s (build (freqTable S)) → s.quiet → s.err = false →
    s.env.bin = ⟨Q, .fin⟩ → s.env.soutReady = true → 3 * S.length + 2 * P.length + 3 ≤ s.env.pace →
    ∃ u, exec .decode s = .next u ∧ u.eng = .idle ∧ u.done = false ∧ u.err = true ∧ u.errinfo = 0x00000053#32

/-- R182, R188: the tree the host builds for a byte sequence has distinct leaf symbols, exactly those of its bytes and
the sentinel, all legal, and fits the node store. -/
def Obligations.BuiltTreesFit : Prop :=
  ∀ S : List Byte,
    (build (freqTable S)).symbols.Nodup ∧
      (∀ x, x ∈ (build (freqTable S)).symbols ↔ x = 256#9 ∨ ∃ b ∈ S, x = symOfByte b) ∧
      (build (freqTable S)).legal = true ∧ (build (freqTable S)).size ≤ 513

/-- R203, R206 (a), R59 (b): a tree's code table holds, for each symbol, the path of its last leaf in pre-order, and no
code for a symbol without a leaf. -/
def Obligations.CodeTableHoldsLastLeaf : Prop :=
  ∀ (t : HTree) (sym : Symbol) (p : Bits),
    codeIn t.codeTable sym = some p ↔ (t.codes.filter fun c => c.1 == sym).getLast? = some (sym, p)

/-- R204: with distinct leaf symbols a code is the path to its symbol's leaf, so its length is the leaf's depth, at
most 256 in a tree that fits the node store; no code is a prefix of another symbol's; and exactly the leaf symbols have
a code. -/
def Obligations.CodesArePrefixFree : Prop :=
  ∀ t : HTree, t.symbols.Nodup →
    (∀ x p, codeIn t.codeTable x = some p → t.follow p = some (.leaf x)) ∧
      (∀ x p, t.size ≤ 513 → codeIn t.codeTable x = some p → p.length ≤ 256) ∧
      (∀ x y p q, codeIn t.codeTable x = some p → codeIn t.codeTable y = some q → p <+: q → x = y) ∧
      (∀ x, (codeIn t.codeTable x).isSome = true ↔ x ∈ t.symbols)

/-! ## Registers (spec/10_state.md) -/

/-- R33, R34: ID and CAPS read their constants in every state. -/
def Obligations.IdentificationRegisters : Prop :=
  ∀ s : State, s.regRead 0x00#8 = 0x47524E01#32 ∧ s.regRead 0x04#8 = 0x01000201#32

/-- R38, R39, R44, R320: every bit of STATUS; bit 5 is the irq output. -/
def Obligations.StatusWordFields : Prop :=
  ∀ (s : State) (n : Nat), s.irq = ((s.ieDone && s.done) || (s.ieErr && s.err)) ∧
    (s.regRead 0x10#8).getLsbD n =
      if n = 0 then decide (s.eng ≠ .idle)
      else if n = 1 then s.done
      else if n = 2 then s.err
      else if n = 3 then s.treeValid
      else if n = 4 then s.drop
      else if n = 5 then (s.ieDone && s.done) || (s.ieErr && s.err)
      else if 8 ≤ n ∧ n ≤ 11 then s.op.getLsbD (n - 8)
      else false

/-- R31: the register map beside the windows and STATUS. CTRL reads the enables at its bits 1 and 2; CMD and the reserved
offsets read 0; ERRINFO, MAGIC, NODE_COUNT, the four counters and the two select registers read their fields; and a
write to a read-only register or to a reserved offset changes nothing. -/
def Obligations.RegisterMap : Prop :=
  ∀ (s : State) (off : Offset) (w : Word),
    (∀ n, (s.regRead 0x08#8).getLsbD n = if n = 1 then s.ieDone else if n = 2 then s.ieErr else false) ∧
      s.regRead 0x0C#8 = 0#32 ∧ s.regRead 0x14#8 = s.errinfo ∧ s.regRead 0x18#8 = s.magic ∧
      s.regRead 0x1C#8 = 0#22 ++ s.nodeCount ∧ s.regRead 0x20#8 = s.bitsIn ∧ s.regRead 0x24#8 = s.bitsOut ∧
      s.regRead 0x28#8 = s.symsIn ∧ s.regRead 0x2C#8 = s.symsOut ∧ s.regRead 0x30#8 = 0#22 ++ s.nodeSel ∧
      s.regRead 0x38#8 = 0#13 ++ s.ctSelWord ++ 0#7 ++ s.ctSelSym ∧ (0x44 ≤ off.toNat → s.regRead off = 0#32) ∧
      (off ∈ [0x00#8, 0x04#8, 0x14#8, 0x1C#8, 0x20#8, 0x24#8, 0x28#8, 0x2C#8, 0x34#8, 0x3C#8, 0x40#8] ∨
          0x44 ≤ off.toNat → s.regWrite off w = s)

/-- R87: a 32-bit register access at a multiple of 4 is one event. A read, at any offset, changes nothing but the host's
own record of it; a write other than to CMD does what the register's write does; the engine's actions follow.
Rests on choices of the model: logs 1 and 8. -/
def Obligations.RegisterAccessIsOneEvent : Prop :=
  ∀ (s : State) (off : Offset) (w : Word), off.toNat % 4 = 0 →
    hostStmt (.rd .word off) s =
        engineRun s.env.pace { s with env := { s.env with reads := (off, s.regRead off) :: s.env.reads } } ∧
      (off ≠ 0x0C#8 → hostStmt (.wr .word off w) s = engineRun s.env.pace (s.regWrite off w))

/-- R86, R126, R99, R355, R354, R342: what the host and the producers may do. An access of another width, or at an offset that
is no multiple of 4, is refused. BIN and SIN append their beats to a stream that is not endless and set its end level,
and change nothing after an endless stream. They are refused exactly if they offer data after the running command has
seen the end of that stream, and so is the start of an endless stream. What is left on bin or on sin can be removed,
with its end marker, but not an offered beat while a command runs.
Rests on choices of the model: logs 1, 10, 11 and 16. -/
def Obligations.HostAndProducerMoves : Prop :=
  ∀ s : State,
    (∀ (width : AccessWidth) (off : Offset) (w : Word), width ≠ .word ∨ off.toNat % 4 ≠ 0 →
      hostStmt (.wr width off w) s = .refused .unsupportedAccess ∧
        hostStmt (.rd width off) s = .refused .unsupportedAccess) ∧
    (s.binEndShown = true ↔ ∃ op who, s.eng = .run op (.starved who)) ∧
    (s.sinEndShown = true ↔ ∃ k bits, s.eng = .run 0x4#4 k ∧
      (k = .gotSym none ∨ k = .send bits .finish ∨ k = .drain bits .finish ∨ k = .finish)) ∧
    (∀ bits fin, hostStmt (.bin bits fin) s =
      if s.binEndShown = true ∧ bits ≠ [] then .refused .dataAfterEnd
      else engineRun s.env.pace { s with env := { s.env with bin := s.env.bin.extend bits fin } }) ∧
    (∀ k, hostStmt (.binEndless k) s =
      if s.binEndShown = true then .refused .dataAfterEnd
      else engineRun s.env.pace { s with env := { s.env with bin := s.env.bin.extendEndless k } }) ∧
    (∀ bytes fin, hostStmt (.sin bytes fin) s =
      if s.sinEndShown = true ∧ bytes ≠ [] then .refused .dataAfterEnd
      else engineRun s.env.pace { s with env := { s.env with sin := s.env.sin.extend bytes fin } }) ∧
    (∀ k, hostStmt (.sinEndless k) s =
      if s.sinEndShown = true then .refused .dataAfterEnd
      else engineRun s.env.pace { s with env := { s.env with sin := s.env.sin.extendEndless k } }) ∧
    (hostStmt .binRemove s =
      if s.eng ≠ .idle ∧ s.env.bin.offering = true then .refused .dataWithdrawn
      else engineRun s.env.pace { s with env := { s.env with bin := ⟨[], .more⟩ } }) ∧
    (hostStmt .sinRemove s =
      if s.eng ≠ .idle ∧ s.env.sin.offering = true then .refused .dataWithdrawn
      else engineRun s.env.pace { s with env := { s.env with sin := ⟨[], .more⟩ } }) ∧
    ∀ (α : Type) (p : Source α) (ys : List α) (fin : Bool) (k : Nat),
      match p.tail with
      | .endless _ _ => p.extend ys fin = p ∧ p.extendEndless k = p ∧ p.offering = true
      | _ =>
        p.extend ys fin = ⟨p.items ++ ys, if fin then .fin else .more⟩ ∧
          p.extendEndless k = ⟨p.items, .endless k 0⟩ ∧ (p.offering = true ↔ p.items ≠ [])

/-- R38, R40, R43: a write to STATUS clears DONE where bit 1 is 1 and DROP where bit 4 is 1, and changes nothing else. -/
def Obligations.StatusWriteClears : Prop :=
  ∀ (s : State) (w : Word),
    s.regWrite 0x10#8 w =
      { s with done := if w.getLsbD 1 then false else s.done, drop := if w.getLsbD 4 then false else s.drop }

/-- R47, R351: a write to MAGIC is stored while idle and ignored while a command runs. -/
def Obligations.MagicWriteOnlyWhileIdle : Prop :=
  ∀ (s : State) (w : Word),
    (s.eng = .idle → s.regWrite 0x18#8 w = { s with magic := w }) ∧ (s.eng ≠ .idle → s.regWrite 0x18#8 w = s)

/-- R35, R36: a write to CTRL with bit 0 = 0 stores the two enables; with bit 0 = 1 it resets the block, its other bits
are discarded, and CTRL reads 0.
Rests on choices of the model: logs 3, 4, 5 and 7. -/
def Obligations.ControlWrite : Prop :=
  ∀ (s : State) (w : Word),
    (w.getLsbD 0 = false → s.regWrite 0x08#8 w = { s with ieDone := w.getLsbD 1, ieErr := w.getLsbD 2 }) ∧
      (w.getLsbD 0 = true → s.regWrite 0x08#8 w = State.resetIn s.magicReset s.env ∧
        (s.regWrite 0x08#8 w).regRead 0x08#8 = 0#32)

/-- R50, R52: writes to NODE_SEL and CT_SEL, at any time, store their fields, and reading them back gives those. -/
def Obligations.SelectWrites : Prop :=
  ∀ (s : State) (w : Word),
    s.regWrite 0x30#8 w = { s with nodeSel := w.extractLsb' 0 10 } ∧
      s.regWrite 0x38#8 w = { s with ctSelSym := w.extractLsb' 0 9, ctSelWord := w.extractLsb' 16 3 } ∧
      (s.regWrite 0x30#8 w).regRead 0x30#8 = w &&& 0x000003FF#32 ∧
      (s.regWrite 0x38#8 w).regRead 0x38#8 = w &&& 0x000701FF#32

/-- R51, R352: NODE_DATA shows the selected entry of the loaded tree while idle, and 0 otherwise. -/
def Obligations.NodeDataWindow : Prop :=
  ∀ s : State,
    s.regRead 0x34#8 =
      if s.eng = .idle ∧ s.nodeSel.toNat < s.nodeCount.toNat then
        match s.nodeData s.nodeSel with
        | .leaf sym => 0x80000000#32 ||| sym.setWidth 32
        | .internal l r => 0xC0000000#32 ||| (r.setWidth 32 <<< 16) ||| l.setWidth 32
      else 0#32

/-- R53, R54, R352: CT_INFO shows VALID and LEN of the selected entry while idle, and CT_DATA the selected 32 bits of its
path, first bit most significant; both read 0 otherwise. -/
def Obligations.CodeTableWindow : Prop :=
  ∀ s : State,
    (s.eng = .idle ∧ s.ctSelSym.toNat ≤ 256 ∧ (s.code s.ctSelSym).valid = true →
      s.regRead 0x3C#8 = 0x80000000#32 ||| (BitVec.ofNat 9 (s.code s.ctSelSym).path.length).setWidth 32 ∧
        ∀ j, j < 32 →
          (s.regRead 0x40#8).getLsbD (31 - j) = (s.code s.ctSelSym).path.getD (32 * s.ctSelWord.toNat + j) false) ∧
      (¬(s.eng = .idle ∧ s.ctSelSym.toNat ≤ 256 ∧ (s.code s.ctSelSym).valid = true) →
        s.regRead 0x3C#8 = 0#32 ∧ s.regRead 0x40#8 = 0#32)

/-! ## Ports (spec/20_memory.md) -/

/-- R90, R17: ReadBit consumes an offered bit, of a finite or an endless stream, whatever bin_end says, and counts it; it
returns EOS at bin_end with nothing offered, and otherwise waits.
Rests on choices of the model: logs 15 and 16. -/
def Obligations.ReadBitTransfers : Prop :=
  ∀ (s : State) (op : Opcode) (n : Nat) (v : Word) (who : Reader), s.eng = .run op (.recv (n + 1) v who) →
    engineStep s =
      match s.env.bin with
      | ⟨b :: rest, t⟩ =>
        .next { s with
          eng := .run op (.recv n (v <<< 1 ||| (BitVec.ofBool b).setWidth 32) who), bitsIn := s.bitsIn + 1#32,
          env := { s.env with bin := ⟨rest, t⟩ } }
      | ⟨[], .endless k i⟩ =>
        .next { s with
          eng := .run op (.recv n (v <<< 1 ||| (BitVec.ofBool (Config.endlessBit k i)).setWidth 32) who),
          bitsIn := s.bitsIn + 1#32, env := { s.env with bin := ⟨[], .endless k (i + 1)⟩ } }
      | ⟨[], .fin⟩ => .next { s with eng := .run op (.starved who) }
      | ⟨[], .more⟩ => .next s

/-- R91, R93: ReadSym and WriteSym transfer bytes likewise.
Rests on choices of the model: logs 15 and 16. -/
def Obligations.ByteTransfers : Prop :=
  ∀ (s : State) (op : Opcode),
    (s.eng = .run op .encode →
      engineStep s =
        match s.env.sin with
        | ⟨b :: rest, t⟩ =>
          .next { s with
            eng := .run op (.gotSym (some b)), symsIn := s.symsIn + 1#32, env := { s.env with sin := ⟨rest, t⟩ } }
        | ⟨[], .endless k i⟩ =>
          .next { s with
            eng := .run op (.gotSym (some (Config.endlessByte k i))), symsIn := s.symsIn + 1#32,
            env := { s.env with sin := ⟨[], .endless k (i + 1)⟩ } }
        | ⟨[], .fin⟩ => .next { s with eng := .run op (.gotSym none) }
        | ⟨[], .more⟩ => .next s) ∧
      (∀ v, s.eng = .run op (.put v) →
        engineStep s = .next { s with eng := .run op .drainSym, soutData := v, soutValid := true }) ∧
      (s.eng = .run op .drainSym →
        engineStep s =
          if s.env.soutReady then
            .next { s with
              eng := .run op .decode, soutValid := false, symsOut := s.symsOut + 1#32,
              env := { s.env with soutTaken := s.env.soutTaken ++ [s.soutData] } }
          else .next s)

/-- R92: WriteBit offers its bit, waits for the consumer, then the beat transfers and is counted.
Rests on choices of the model: logs 15 and 16. -/
def Obligations.WriteBitTransfers : Prop :=
  ∀ (s : State) (op : Opcode) (b : Bool) (rest : Bits) (k : Point),
    (s.eng = .run op (.send (b :: rest) k) →
      engineStep s = .next { s with eng := .run op (.drain rest k), boutBit := b, boutValid := true }) ∧
      (s.eng = .run op (.drain rest k) →
        engineStep s =
          if s.env.boutReady then
            .next { s with
              eng := .run op (.send rest k), boutValid := false, bitsOut := s.bitsOut + 1#32,
              env := { s.env with boutTaken := s.env.boutTaken ++ [s.boutBit] } }
          else .next s)

/-- R96: a bit offered on bout, and a byte offered on sout, is held, and not transferred, over every step in which the
consumer does not become ready and the block is not reset.
Rests on choices of the model: log 1. -/
def Obligations.OfferedBeatIsHeld : Prop :=
  ∀ s t : State, step s = .next t → s.env.hostProg[s.env.hostPc]? ≠ some .resetPin →
    (∀ w : Word, w.getLsbD 0 = true → s.env.hostProg[s.env.hostPc]? ≠ some (.wr .word 0x08#8 w)) →
    (s.draining = true → s.boutValid = true → s.env.boutReady = false →
        s.env.hostProg[s.env.hostPc]? ≠ some (.boutReady true) →
        t.boutValid = true ∧ t.boutBit = s.boutBit ∧ t.eng = s.eng ∧ t.bitsOut = s.bitsOut ∧
          t.env.boutTaken = s.env.boutTaken) ∧
      (s.drainingSym = true → s.soutValid = true → s.env.soutReady = false →
        s.env.hostProg[s.env.hostPc]? ≠ some (.soutReady true) →
        t.soutValid = true ∧ t.soutData = s.soutData ∧ t.eng = s.eng ∧ t.symsOut = s.symsOut ∧
          t.env.soutTaken = s.env.soutTaken)

/-- R362, R90-R93: an engine that waits for a producer or a consumer stays where it is, BUSY, for any number of
actions.
Rests on choices of the model: logs 1 and 16. -/
def Obligations.WaitingEngineHangs : Prop :=
  ∀ (s : State) (n : Nat),
    (s.binReady = true ∧ s.env.bin = ⟨[], .more⟩) ∨ (s.sinReady = true ∧ s.env.sin = ⟨[], .more⟩) ∨
      (s.draining = true ∧ s.env.boutReady = false) ∨ (s.drainingSym = true ∧ s.env.soutReady = false) →
    engineRun n s = .next s ∧ s.busy = true

/-! ## Reset (spec/70_reset_and_hazards.md) -/

/-- R65, R342, R343: after reset the engine is idle, the status, error, count and select registers and CTRL read 0,
MAGIC reads MAGIC_RESET, every window reads 0, no port is valid or ready, and irq is 0.
Rests on choices of the model: logs 2, 3, 4, 5 and 7. -/
def Obligations.ResetValues : Prop :=
  ∀ (m : Word) (e : Env) (off : Offset),
    (State.resetIn m e).regRead off =
        (if off = 0x00#8 then 0x47524E01#32 else if off = 0x04#8 then 0x01000201#32
          else if off = 0x18#8 then m else 0#32) ∧
      (State.resetIn m e).eng = .idle ∧ (State.resetIn m e).irq = false ∧
      (State.resetIn m e).boutValid = false ∧ (State.resetIn m e).soutValid = false ∧
      (State.resetIn m e).binReady = false ∧ (State.resetIn m e).sinReady = false ∧
      (State.resetIn m e).env = e

/-- R340, R341, R344: the reset pin and CTRL.SRST put the block into the same state, that of R65, whatever it was doing;
what the producers offer and what the consumers hold stays.
Rests on choices of the model: logs 1 and 18. -/
def Obligations.ResetEventsAgree : Prop :=
  ∀ (s : State) (w : Word), w.getLsbD 0 = true →
    hostStmt .resetPin s = .next (State.resetIn s.magicReset s.env) ∧
      hostStmt (.wr .word 0x08#8 w) s = .next (State.resetIn s.magicReset s.env)

/-! ## The invariant -/

/-- R65, R342: the invariant holds after reset, for every MAGIC_RESET and environment.
Rests on choices of the model: logs 4, 8 and 9. -/
def Obligations.InvAfterReset : Prop := Inv State.reset ∧ ∀ (m : Word) (e : Env), Inv (State.resetIn m e)

/-- R42, R56, R59, R62, R95, R163 (b), R265: every step keeps the invariant: the memories stay canonical, an output is
valid exactly while a beat is offered, DONE and ERR are never both 1 while idle, the walk stack has at most 256 frames,
and what is loaded is a tree with its code table or nothing.
Rests on choices of the model: logs 4, 6 and 9. -/
def Obligations.StepKeepsInv : Prop := ∀ s t : State, Inv s → step s = .next t → Inv t

/-- R98, R56, R304: from a state with the invariant no engine action names an entry that NS or CT does not have, or a
child of a leaf: a step faults only where a host program's own EXPECT fails.
Rests on choices of the model: logs 4, 12 and 13. -/
def Obligations.EngineNeverFaults : Prop := ∀ (s : State) (f : Fault), Inv s → step s = .fault f → f = .expectFailed

/-- R163 (a), R153, R305: the action that ends a command leaves exactly one of DONE and ERR. -/
def Obligations.CommandEndsOnce : Prop :=
  ∀ s t : State, Inv s → s.busy = true → engineStep s = .next t → t.eng = .idle → t.done = !t.err

/-- R62, R10: in every state that a run from a reset meets, the walk stack has at most 256 frames.
Rests on choices of the model: log 6. -/
def Obligations.WalkStackWithin256 : Prop := ∀ s : State, Reachable s → s.stack.length ≤ 256

/-! ## Error entry, completion, frames -/

/-- R305, R300, R46: error entry makes the engine idle with no port ready, clears DONE, sets ERR, and writes CAUSE, EOP,
SUB and ESYM to their places in ERRINFO; nothing else changes. -/
def Obligations.ErrorEntry : Prop :=
  ∀ (s : State) (e : Cause) (sub : BitVec 4) (esym : Symbol),
    s.raise e sub esym = { s with
        eng := .idle, done := false, err := true,
        errinfo := 0#7 ++ esym ++ 0#4 ++ sub ++ s.op ++
          (match e with
            | .badMagic => 1#4 | .malformedTree => 2#4 | .truncatedStream => 3#4 | .lookupError => 4#4
            | .treeOverflow => 5#4 | .degenerateTree => 6#4 | .noTree => 7#4 | .illegalCommand => 8#4) } ∧
      (s.raise e sub esym).binReady = false ∧ (s.raise e sub esym).sinReady = false

/-- R153: Complete makes the engine idle and sets DONE, and changes nothing else; after it no port is ready or valid. -/
def Obligations.CompleteEndsCommand : Prop :=
  ∀ (s : State) (op : Opcode), Inv s → s.eng = .run op .finish →
    engineStep s = .next { s with eng := .idle, done := true } ∧ s.boutValid = false ∧ s.soutValid = false ∧
      s.complete.binReady = false ∧ s.complete.sinReady = false

/-- R163 (c): the event of a CMD write itself never changes NS, CT, NODE_COUNT, TREE_VALID, MAGIC or CTRL. -/
def Obligations.RequestEventKeepsTree : Prop :=
  ∀ (s : State) (op : Opcode) (legal : Bool) (k : Point),
    (s.request op legal k).ns = s.ns ∧ (s.request op legal k).ct = s.ct ∧
      (s.request op legal k).nodeCount = s.nodeCount ∧ (s.request op legal k).treeValid = s.treeValid ∧
      (s.request op legal k).magic = s.magic ∧ (s.request op legal k).ieDone = s.ieDone ∧
      (s.request op legal k).ieErr = s.ieErr ∧ (s.request op legal k).env = s.env

/-- R210, R240, R260, R280, R282, R305: from an idle block, TREE_EMIT, ENCODE, DECODE, HDR_WRITE and HDR_CHECK, however
far they get, leave the tree, the code table, MAGIC, CTRL, the selects and the allocation counter as they are; DROP
changes only where the command is dropped, and ERRINFO only where the command fails.
Rests on choices of the model: log 1. -/
def Obligations.StreamCommandsFrame : Prop :=
  ∀ (i : Instr) (s t : State), i ∈ [.treeEmit, .encode, .decode, .hdrWrite, .hdrCheck] → s.eng = .idle →
    exec i s = .next t →
    t.ns = s.ns ∧ t.ct = s.ct ∧ t.nodeCount = s.nodeCount ∧ t.treeValid = s.treeValid ∧ t.magic = s.magic ∧
      t.magicReset = s.magicReset ∧ t.ieDone = s.ieDone ∧ t.ieErr = s.ieErr ∧ t.nodeSel = s.nodeSel ∧
      t.ctSelSym = s.ctSelSym ∧ t.ctSelWord = s.ctSelWord ∧ t.alloc = s.alloc ∧
      (s.err = false → t.drop = s.drop) ∧ (t.err = s.err → t.errinfo = s.errinfo)

/-- R95, R49: from an idle block without an error, each command touches only the ports and counters it uses: TREE_EMIT
and HDR_WRITE bout; ENCODE sin and bout; DECODE bin, sout and POS; HDR_CHECK and TREE_LOAD bin; CLEAR none. Only
TREE_LOAD and TREE_EMIT touch the walk stack.
Rests on choices of the model: logs 1, 5, 7 and 16. -/
def Obligations.CommandsUseTheirPorts : Prop :=
  ∀ (i : Instr) (s t : State), s.eng = .idle → s.err = false → exec i s = .next t →
    (i = .treeEmit ∨ i = .hdrWrite →
      t.env = { s.env with boutTaken := t.env.boutTaken } ∧ t.bitsIn = 0#32 ∧ t.symsIn = 0#32 ∧ t.symsOut = 0#32 ∧
        t.pos = s.pos ∧ t.soutValid = s.soutValid ∧ t.soutData = s.soutData ∧
        (i = .hdrWrite → t.stack = s.stack)) ∧
      (i = .encode →
        t.env = { s.env with sin := t.env.sin, boutTaken := t.env.boutTaken } ∧ t.bitsIn = 0#32 ∧
          t.symsOut = 0#32 ∧ t.pos = s.pos ∧ t.stack = s.stack ∧ t.soutValid = s.soutValid ∧
          t.soutData = s.soutData) ∧
      (i = .decode →
        t.env = { s.env with bin := t.env.bin, soutTaken := t.env.soutTaken } ∧ t.bitsOut = 0#32 ∧
          t.symsIn = 0#32 ∧ t.stack = s.stack ∧ t.boutValid = s.boutValid ∧ t.boutBit = s.boutBit) ∧
      (i = .hdrCheck ∨ i = .treeLoad →
        t.env = { s.env with bin := t.env.bin } ∧ t.bitsOut = 0#32 ∧ t.symsIn = 0#32 ∧ t.symsOut = 0#32 ∧
          t.pos = s.pos ∧ t.boutValid = s.boutValid ∧ t.boutBit = s.boutBit ∧ t.soutValid = s.soutValid ∧
          t.soutData = s.soutData ∧ (i = .hdrCheck → t.stack = s.stack)) ∧
      (i = .clear →
        t.env = s.env ∧ t.bitsIn = 0#32 ∧ t.bitsOut = 0#32 ∧ t.symsIn = 0#32 ∧ t.symsOut = 0#32 ∧ t.pos = s.pos ∧
          t.stack = s.stack ∧ t.boutValid = s.boutValid ∧ t.boutBit = s.boutBit ∧ t.soutValid = s.soutValid ∧
          t.soutData = s.soutData)

/-- R161, R200, R47: from an idle block, CLEAR and TREE_LOAD, however far they get, leave MAGIC, CTRL and the selects
as they are; CLEAR leaves NS and the allocation counter; TREE_LOAD leaves every NS entry from its allocation counter
on, and DROP unless it is dropped.
Rests on choices of the model: logs 1 and 3. -/
def Obligations.TreeCommandsFrame : Prop :=
  ∀ (i : Instr) (s t : State), i = .clear ∨ i = .treeLoad → s.eng = .idle →
    Memory.wf Node.unwritten s.ns = true → exec i s = .next t →
    t.magic = s.magic ∧ t.magicReset = s.magicReset ∧ t.ieDone = s.ieDone ∧ t.ieErr = s.ieErr ∧
      t.nodeSel = s.nodeSel ∧ t.ctSelSym = s.ctSelSym ∧ t.ctSelWord = s.ctSelWord ∧
      (i = .clear → t.ns = s.ns ∧ t.alloc = s.alloc ∧ t.stack = s.stack) ∧
      (i = .treeLoad →
        (∀ a, t.alloc.toNat ≤ a → Memory.read Node.unwritten t.ns a = Memory.read Node.unwritten s.ns a) ∧
          (s.err = false → t.drop = s.drop))
end

