-- ==== Sys2Proof/Laws/Bits.lean ====
section
/-! SUPPORT. ReadBits gives back what WriteBits gave (spec/30_encoding.md R121, R122), and the sizes of serialized
trees (R117). -/

namespace Sys2Proof.Machine

@[simp] theorem bitsOf_length (w : Word) (n : Nat) : (bitsOf w n).length = n := by
  induction n with
  | zero => rfl
  | succ n ih => simp [bitsOf, ih]

@[simp] theorem symbolBits_length (sym : Symbol) : (symbolBits sym).length = 9 := bitsOf_length _ 9

theorem shiftIn_getLsbD (v : Word) (b : Bool) (i : Nat) :
    (shiftIn v b).getLsbD i = if i = 0 then b else decide (i < 32) && v.getLsbD (i - 1) := by
  rcases i with _ | i
  · cases b <;> simp [shiftIn, flagBit]
  · cases b <;> simp [shiftIn, flagBit, BitVec.getLsbD_one]

/-- The bit read last is the least significant one. -/
@[simp] theorem shiftIn_getElem_zero (v : Word) (b : Bool) : (shiftIn v b)[0] = b := by
  rw [← BitVec.getLsbD_eq_getElem, shiftIn_getLsbD, if_pos rfl]

/-- Reading back n bits: they come below what was read before. -/
theorem foldl_shiftIn_getLsbD (w : Word) (n : Nat) (v : Word) (i : Nat) (hi : i < 32) :
    ((bitsOf w n).foldl shiftIn v).getLsbD i = if i < n then w.getLsbD i else v.getLsbD (i - n) := by
  induction n generalizing v with
  | zero => simp [bitsOf]
  | succ n ih =>
    rw [bitsOf, List.foldl_cons, ih]
    rcases Nat.lt_trichotomy i n with h | h | h
    · simp [h, show i < n + 1 by omega]
    · subst h
      rw [if_neg (lt_irrefl i), if_pos (Nat.lt_succ_self i), Nat.sub_self, shiftIn_getLsbD, if_pos rfl]
    · have h1 : ¬ i < n := by omega
      have h2 : ¬ i < n + 1 := by omega
      have h3 : i - n ≠ 0 := by omega
      have h4 : i - n < 32 := by omega
      have h5 : i - n - 1 = i - (n + 1) := by omega
      rw [if_neg h1, if_neg h2, shiftIn_getLsbD, if_neg h3, h5, decide_eq_true h4, Bool.true_and]

/-- ReadBits(32) of WriteBits(w, 32) is w. -/
theorem foldl_bitsOf_32 (w : Word) : (bitsOf w 32).foldl shiftIn 0 = w := by
  apply BitVec.eq_of_getLsbD_eq
  intro i hi
  rw [foldl_shiftIn_getLsbD w 32 0 i hi, if_pos hi]

/-- ReadBits(9) of a leaf's symbol field is the symbol. -/
theorem fieldValue_symbolBits (sym : Symbol) : ((symbolBits sym).foldl shiftIn 0).setWidth 9 = sym := by
  apply BitVec.eq_of_getLsbD_eq
  intro i hi
  rw [BitVec.getLsbD_setWidth, symbolBits, foldl_shiftIn_getLsbD _ 9 0 i (by omega)]
  simp [hi, show i < 32 by omega]

/-- WriteBits of a symbol read back from nine bits gives those bits. -/
theorem symbolBits_fieldValue {bs : Bits} (h : bs.length = 9) : symbolBits (fieldValue bs) = bs := by
  obtain ⟨a, b, c, d, e, f, g, i, j, rfl⟩ : ∃ a b c d e f g i j, bs = [a, b, c, d, e, f, g, i, j] := by
    rcases bs with _ | ⟨a, _ | ⟨b, _ | ⟨c, _ | ⟨d, _ | ⟨e, _ | ⟨f, _ | ⟨g, _ | ⟨i, _ | ⟨j, _ | ⟨k, bs⟩⟩⟩⟩⟩⟩⟩⟩⟩⟩ <;> simp at h
    exact ⟨_, _, _, _, _, _, _, _, _, rfl⟩
  revert a b c d e f g i j
  decide

theorem HTree.size_pos (t : HTree) : 0 < t.size := by cases t <;> simp [HTree.size]

/-- A full binary tree of L leaves has 2 L - 1 nodes. -/
theorem HTree.size_leaves (t : HTree) : t.size + 1 = 2 * t.leaves := by
  induction t with
  | leaf _ => rfl
  | node l r hl hr => simp only [HTree.size, HTree.leaves]; omega

/-- A serialized tree of L leaves has 11 L - 1 bits (R117). -/
theorem HTree.ser_length (t : HTree) : t.ser.length + 1 = 11 * t.leaves := by
  induction t with
  | leaf _ => simp [HTree.ser, HTree.leaves]
  | node l r hl hr => simp only [HTree.ser, HTree.leaves, List.length_cons, List.length_append]; omega

/-- Parse that succeeds has consumed exactly the serialization of a tree that fits (spec/42_tree_codec.md R201). -/
theorem parseBits_parsed {fuel n : Nat} {bits rest : Bits} {t : HTree} (hn : n ≤ 513)
    (h : parseBits fuel n bits = .parsed t rest) : bits = t.ser ++ rest ∧ t.legal = true ∧ n + t.size ≤ 513 := by
  induction fuel generalizing n bits rest t with
  | zero => simp [parseBits] at h
  | succ fuel ih =>
    rcases bits with _ | ⟨_ | _, bs⟩
    · simp [parseBits] at h
    · simp only [parseBits, Config.nodeCap] at h
      split at h
      · simp at h
      split at h
      · simp at h
      split at h
      · simp at h
      rename_i h1 h2 h3
      simp only [ParseResult.parsed.injEq] at h
      obtain ⟨rfl, rfl⟩ := h
      have := symbolBits_fieldValue (bs := bs.take 9) (by simp; omega)
      exact ⟨by simp [HTree.ser, this], by simp only [HTree.legal, decide_eq_true_eq]; omega,
        by simp only [HTree.size]; omega⟩
    · simp only [parseBits, Config.nodeCap] at h
      split at h
      · simp at h
      split at h
      · rename_i h1 _ l rl h2
        split at h
        · rename_i _ r rr h3
          simp only [ParseResult.parsed.injEq] at h
          obtain ⟨rfl, rfl⟩ := h
          obtain ⟨rfl, a2, a3⟩ := ih (by omega) h2
          obtain ⟨rfl, b2, b3⟩ := ih (by omega) h3
          exact ⟨by simp [HTree.ser], by simp [HTree.legal, a2, b2], by simp only [HTree.size]; omega⟩
        · rename_i h3
          exact absurd h (h3 _ _)
      · rename_i h3
        exact absurd h (h3 _ _)

end Sys2Proof.Machine
end

