-- ==== Sys2Proof/Laws/Memory.lean ====
section
/-! SUPPORT. The laws of the internal memories: read after write, and the canonical form. -/

namespace Sys2Proof.Machine

@[simp] theorem Memory.read_nil {α : Type} (d : α) (a : Nat) : Memory.read d [] a = d := rfl

section
variable {α : Type} [DecidableEq α] {d : α}

@[simp] theorem Memory.wf_nil : Memory.wf d ([] : Memory α) = true := rfl

theorem Memory.wfFrom_cons {lo k : Nat} {v : α} {m : Memory α} :
    Memory.wfFrom d lo ((k, v) :: m) = true ↔ lo ≤ k ∧ v ≠ d ∧ Memory.wfFrom d (k + 1) m = true := by
  simp [Memory.wfFrom, and_assoc]

theorem Memory.wfFrom_mono {lo lo' : Nat} {m : Memory α} (h : Memory.wfFrom d lo m = true) (hl : lo' ≤ lo) :
    Memory.wfFrom d lo' m = true := by
  cases m with
  | nil => rfl
  | cons e m =>
    obtain ⟨h1, h2, h3⟩ := Memory.wfFrom_cons.mp h
    exact Memory.wfFrom_cons.mpr ⟨hl.trans h1, h2, h3⟩

/-- Below the first listed index everything is unlisted. -/
theorem Memory.read_below {lo : Nat} {m : Memory α} (h : Memory.wfFrom d lo m = true) {a : Nat} (ha : a < lo) :
    Memory.read d m a = d := by
  induction m generalizing lo with
  | nil => rfl
  | cons e m ih =>
    obtain ⟨h1, _, h3⟩ := Memory.wfFrom_cons.mp h
    have : a ≠ e.1 := by omega
    simp [Memory.read, this, ih h3 (by omega : a < e.1 + 1)]

/-- A write keeps the canonical form, and its lower bound if the index respects it. -/
theorem Memory.wfFrom_write {lo : Nat} {m : Memory α} (h : Memory.wfFrom d lo m = true) {a : Nat} (ha : lo ≤ a) (v : α) :
    Memory.wfFrom d lo (Memory.write d m a v) = true := by
  induction m generalizing lo with
  | nil => by_cases hv : v = d <;> simp [Memory.write, hv, Memory.wfFrom, ha]
  | cons e m ih =>
    obtain ⟨k, w⟩ := e
    obtain ⟨h1, h2, h3⟩ := Memory.wfFrom_cons.mp h
    rcases Nat.lt_trichotomy a k with hk | hk | hk
    · by_cases hv : v = d
      · simpa [Memory.write, hk, hv] using h
      · simpa [Memory.write, hk, hv] using Memory.wfFrom_cons.mpr ⟨ha, hv, Memory.wfFrom_cons.mpr ⟨hk, h2, h3⟩⟩
    · subst hk
      by_cases hv : v = d
      · simpa [Memory.write, hv] using Memory.wfFrom_mono h3 (by omega)
      · simpa [Memory.write, hv] using Memory.wfFrom_cons.mpr ⟨ha, hv, h3⟩
    · have h4 : ¬ a < k := by omega
      have h5 : a ≠ k := by omega
      simpa [Memory.write, h4, h5] using Memory.wfFrom_cons.mpr ⟨h1, h2, ih h3 hk⟩

/-- Every write keeps the canonical form. -/
theorem Memory.wf_write {m : Memory α} (h : Memory.wf d m = true) (a : Nat) (v : α) :
    Memory.wf d (Memory.write d m a v) = true := Memory.wfFrom_write h (Nat.zero_le a) v

theorem Memory.read_write_from {lo : Nat} {m : Memory α} (h : Memory.wfFrom d lo m = true) (a : Nat) (v : α) (b : Nat) :
    Memory.read d (Memory.write d m a v) b = if b = a then v else Memory.read d m b := by
  induction m generalizing lo with
  | nil => by_cases hv : v = d <;> by_cases hb : b = a <;> simp [Memory.write, Memory.read, hv, hb]
  | cons e m ih =>
    obtain ⟨k, w⟩ := e
    obtain ⟨h1, h2, h3⟩ := Memory.wfFrom_cons.mp h
    rcases Nat.lt_trichotomy a k with hk | hk | hk
    · by_cases hv : v = d
      · by_cases hb : b = a
        · subst hb
          have h6 : Memory.read d m b = d := Memory.read_below h3 (by omega)
          simp [Memory.write, Memory.read, hk, hv, h6, Nat.ne_of_lt hk]
        · simp [Memory.write, hk, hv, hb]
      · simp [Memory.write, Memory.read, hk, hv]
    · subst hk
      by_cases hv : v = d
      · by_cases hb : b = a
        · subst hb
          simpa [Memory.write, hv] using Memory.read_below h3 (by omega)
        · simp [Memory.write, Memory.read, hv, hb]
      · by_cases hb : b = a <;> simp [Memory.write, Memory.read, hv, hb]
    · have h4 : ¬ a < k := by omega
      have h5 : a ≠ k := by omega
      by_cases hb : b = k
      · subst hb
        simp [Memory.write, Memory.read, h4, h5, Ne.symm h5]
      · simp [Memory.write, Memory.read, h4, h5, hb, ih h3]

/-- A read after a write: the value written at the index written, and what was there elsewhere. -/
theorem Memory.read_write {m : Memory α} (h : Memory.wf d m = true) (a : Nat) (v : α) (b : Nat) :
    Memory.read d (Memory.write d m a v) b = if b = a then v else Memory.read d m b := Memory.read_write_from h a v b

theorem Memory.read_write_same {m : Memory α} (h : Memory.wf d m = true) (a : Nat) (v : α) :
    Memory.read d (Memory.write d m a v) a = v := by simp [Memory.read_write h]

theorem Memory.read_write_other {m : Memory α} (h : Memory.wf d m = true) {a b : Nat} (hb : b ≠ a) (v : α) :
    Memory.read d (Memory.write d m a v) b = Memory.read d m b := by simp [Memory.read_write h, hb]

/-- In canonical form, memories that read alike are equal data. -/
theorem Memory.ext_from {lo : Nat} {m m' : Memory α} (h : Memory.wfFrom d lo m = true) (h' : Memory.wfFrom d lo m' = true)
    (hr : ∀ a, Memory.read d m a = Memory.read d m' a) : m = m' := by
  induction m generalizing lo m' with
  | nil =>
    cases m' with
    | nil => rfl
    | cons e m' =>
      obtain ⟨_, h2, _⟩ := Memory.wfFrom_cons.mp h'
      exact absurd (by simpa [Memory.read] using (hr e.1).symm) h2
  | cons e m ih =>
    obtain ⟨k, v⟩ := e
    obtain ⟨h1, h2, h3⟩ := Memory.wfFrom_cons.mp h
    cases m' with
    | nil => exact absurd (by simpa [Memory.read] using hr k) h2
    | cons e' m' =>
      obtain ⟨k', v'⟩ := e'
      obtain ⟨h1', h2', h3'⟩ := Memory.wfFrom_cons.mp h'
      have hk : k = k' := by
        rcases Nat.lt_trichotomy k k' with hlt | heq | hgt
        · have := hr k
          simp [Memory.read, Nat.ne_of_lt hlt, Memory.read_below h3' (by omega : k < k' + 1)] at this
          exact absurd this h2
        · exact heq
        · have := hr k'
          simp [Memory.read, Nat.ne_of_lt hgt, Memory.read_below h3 (by omega : k' < k + 1)] at this
          exact absurd this.symm h2'
      subst hk
      have hv : v = v' := by simpa [Memory.read] using hr k
      subst hv
      have : m = m' := by
        refine ih h3 h3' fun a => ?_
        by_cases ha : a = k
        · subst ha
          rw [Memory.read_below h3 (by omega), Memory.read_below h3' (by omega)]
        · simpa [Memory.read, ha] using hr a
      rw [this]

/-- In canonical form, memories that read alike are equal data. -/
theorem Memory.ext {m m' : Memory α} (h : Memory.wf d m = true) (h' : Memory.wf d m' = true)
    (hr : ∀ a, Memory.read d m a = Memory.read d m' a) : m = m' := Memory.ext_from h h' hr

end

end Sys2Proof.Machine
end

