-- ==== Sys2Proof/Laws/Source.lean ====
section
/-! SUPPORT. What a stream producer shows and offers (spec/00_scope.md R17, spec/20_memory.md R88, R89). -/

namespace Sys2Proof.Machine

variable {α : Type} {gen : Nat → Nat → α}

@[simp] theorem Source.beat_cons (x : α) (xs : List α) (t : Tail) : (Source.mk (x :: xs) t).beat gen = .beat x := rfl
@[simp] theorem Source.beat_more : (Source.mk [] .more).beat gen = .waiting := rfl
@[simp] theorem Source.beat_fin : (Source.mk [] .fin).beat gen = .ended := rfl
@[simp] theorem Source.beat_endless (k n : Nat) : (Source.mk [] (.endless k n)).beat gen = .beat (gen k n) := rfl
@[simp] theorem Source.drop_cons (x : α) (xs : List α) (t : Tail) : (Source.mk (x :: xs) t).drop = ⟨xs, t⟩ := rfl
@[simp] theorem Source.drop_endless (k n : Nat) :
    (Source.mk ([] : List α) (.endless k n)).drop = ⟨[], .endless k (n + 1)⟩ := rfl

@[simp] theorem Source.offering_cons (x : α) (xs : List α) (t : Tail) : (Source.mk (x :: xs) t).offering = true := rfl
@[simp] theorem Source.offering_more : (Source.mk ([] : List α) .more).offering = false := rfl
@[simp] theorem Source.offering_fin : (Source.mk ([] : List α) .fin).offering = false := rfl
@[simp] theorem Source.offering_endless (k n : Nat) : (Source.mk ([] : List α) (.endless k n)).offering = true := rfl

/-- A producer offers exactly when it shows a beat. -/
theorem Source.offering_iff {p : Source α} : p.offering = true ↔ ∃ x, p.beat gen = .beat x := by
  obtain ⟨_ | ⟨x, xs⟩, t⟩ := p
  · cases t <;> simp
  · simp

@[simp] theorem Source.offers_nil {p q : Source α} : p.Offers gen [] q ↔ p = q := Iff.rfl

@[simp] theorem Source.offers_cons {p q : Source α} {x : α} {xs : List α} :
    p.Offers gen (x :: xs) q ↔ p.beat gen = .beat x ∧ p.drop.Offers gen xs q := Iff.rfl

/-- Beats in a row: the first ones, then the others from what is left. -/
theorem Source.offers_append {p q : Source α} {xs ys : List α} :
    p.Offers gen (xs ++ ys) q ↔ ∃ m, p.Offers gen xs m ∧ m.Offers gen ys q := by
  induction xs generalizing p with
  | nil => simp
  | cons x xs ih => simp [ih, and_assoc]

/-- A producer offers what it lists. -/
theorem Source.offers_items (xs rest : List α) (t : Tail) : (Source.mk (xs ++ rest) t).Offers gen xs ⟨rest, t⟩ := by
  induction xs with
  | nil => simp
  | cons x xs ih => simpa using ih

theorem Source.offers_all (xs : List α) (t : Tail) : (Source.mk xs t).Offers gen xs ⟨[], t⟩ := by
  simpa using Source.offers_items (gen := gen) xs [] t

/-- A stream that ends offers exactly its prefixes. -/
theorem Source.offers_fin {xs ys : List α} {q : Source α} :
    (Source.mk xs .fin).Offers gen ys q ↔ ∃ rest, xs = ys ++ rest ∧ q = ⟨rest, .fin⟩ := by
  induction ys generalizing xs with
  | nil => simp [eq_comm]
  | cons y ys ih =>
    cases xs with
    | nil => simp
    | cons x xs => simp [ih, and_assoc]

end Sys2Proof.Machine
end

