-- ==== Sys2Proof/Laws/State.lean ====
section
/-! SUPPORT. What each named update of the state leaves in each field: one lemma per field per update. -/

namespace Sys2Proof.Machine

/-! ## Engine.goto -/

@[simp] theorem Engine.goto_idle (k : Point) : Engine.idle.goto k = .idle := rfl
@[simp] theorem Engine.goto_run (o : Opcode) (j k : Point) : (Engine.run o j).goto k = .run o k := rfl

/-! ## State.dropTree -/

@[simp] theorem State.dropTree_ieDone (s : State) : s.dropTree.ieDone = s.ieDone := rfl
@[simp] theorem State.dropTree_ieErr (s : State) : s.dropTree.ieErr = s.ieErr := rfl
@[simp] theorem State.dropTree_done (s : State) : s.dropTree.done = s.done := rfl
@[simp] theorem State.dropTree_err (s : State) : s.dropTree.err = s.err := rfl
@[simp] theorem State.dropTree_treeValid (s : State) : s.dropTree.treeValid = false := rfl
@[simp] theorem State.dropTree_drop (s : State) : s.dropTree.drop = s.drop := rfl
@[simp] theorem State.dropTree_op (s : State) : s.dropTree.op = s.op := rfl
@[simp] theorem State.dropTree_errinfo (s : State) : s.dropTree.errinfo = s.errinfo := rfl
@[simp] theorem State.dropTree_magic (s : State) : s.dropTree.magic = s.magic := rfl
@[simp] theorem State.dropTree_magicReset (s : State) : s.dropTree.magicReset = s.magicReset := rfl
@[simp] theorem State.dropTree_nodeCount (s : State) : s.dropTree.nodeCount = 0 := rfl
@[simp] theorem State.dropTree_bitsIn (s : State) : s.dropTree.bitsIn = s.bitsIn := rfl
@[simp] theorem State.dropTree_bitsOut (s : State) : s.dropTree.bitsOut = s.bitsOut := rfl
@[simp] theorem State.dropTree_symsIn (s : State) : s.dropTree.symsIn = s.symsIn := rfl
@[simp] theorem State.dropTree_symsOut (s : State) : s.dropTree.symsOut = s.symsOut := rfl
@[simp] theorem State.dropTree_nodeSel (s : State) : s.dropTree.nodeSel = s.nodeSel := rfl
@[simp] theorem State.dropTree_ctSelSym (s : State) : s.dropTree.ctSelSym = s.ctSelSym := rfl
@[simp] theorem State.dropTree_ctSelWord (s : State) : s.dropTree.ctSelWord = s.ctSelWord := rfl
@[simp] theorem State.dropTree_ns (s : State) : s.dropTree.ns = s.ns := rfl
@[simp] theorem State.dropTree_ct (s : State) : s.dropTree.ct = [] := rfl
@[simp] theorem State.dropTree_eng (s : State) : s.dropTree.eng = s.eng := rfl
@[simp] theorem State.dropTree_pos (s : State) : s.dropTree.pos = s.pos := rfl
@[simp] theorem State.dropTree_stack (s : State) : s.dropTree.stack = s.stack := rfl
@[simp] theorem State.dropTree_alloc (s : State) : s.dropTree.alloc = s.alloc := rfl
@[simp] theorem State.dropTree_boutValid (s : State) : s.dropTree.boutValid = s.boutValid := rfl
@[simp] theorem State.dropTree_boutBit (s : State) : s.dropTree.boutBit = s.boutBit := rfl
@[simp] theorem State.dropTree_soutValid (s : State) : s.dropTree.soutValid = s.soutValid := rfl
@[simp] theorem State.dropTree_soutData (s : State) : s.dropTree.soutData = s.soutData := rfl
@[simp] theorem State.dropTree_env (s : State) : s.dropTree.env = s.env := rfl

/-! ## State.goto -/

@[simp] theorem State.goto_ieDone (s : State) (k : Point) : (s.goto k).ieDone = s.ieDone := rfl
@[simp] theorem State.goto_ieErr (s : State) (k : Point) : (s.goto k).ieErr = s.ieErr := rfl
@[simp] theorem State.goto_done (s : State) (k : Point) : (s.goto k).done = s.done := rfl
@[simp] theorem State.goto_err (s : State) (k : Point) : (s.goto k).err = s.err := rfl
@[simp] theorem State.goto_treeValid (s : State) (k : Point) : (s.goto k).treeValid = s.treeValid := rfl
@[simp] theorem State.goto_drop (s : State) (k : Point) : (s.goto k).drop = s.drop := rfl
@[simp] theorem State.goto_op (s : State) (k : Point) : (s.goto k).op = s.op := rfl
@[simp] theorem State.goto_errinfo (s : State) (k : Point) : (s.goto k).errinfo = s.errinfo := rfl
@[simp] theorem State.goto_magic (s : State) (k : Point) : (s.goto k).magic = s.magic := rfl
@[simp] theorem State.goto_magicReset (s : State) (k : Point) : (s.goto k).magicReset = s.magicReset := rfl
@[simp] theorem State.goto_nodeCount (s : State) (k : Point) : (s.goto k).nodeCount = s.nodeCount := rfl
@[simp] theorem State.goto_bitsIn (s : State) (k : Point) : (s.goto k).bitsIn = s.bitsIn := rfl
@[simp] theorem State.goto_bitsOut (s : State) (k : Point) : (s.goto k).bitsOut = s.bitsOut := rfl
@[simp] theorem State.goto_symsIn (s : State) (k : Point) : (s.goto k).symsIn = s.symsIn := rfl
@[simp] theorem State.goto_symsOut (s : State) (k : Point) : (s.goto k).symsOut = s.symsOut := rfl
@[simp] theorem State.goto_nodeSel (s : State) (k : Point) : (s.goto k).nodeSel = s.nodeSel := rfl
@[simp] theorem State.goto_ctSelSym (s : State) (k : Point) : (s.goto k).ctSelSym = s.ctSelSym := rfl
@[simp] theorem State.goto_ctSelWord (s : State) (k : Point) : (s.goto k).ctSelWord = s.ctSelWord := rfl
@[simp] theorem State.goto_ns (s : State) (k : Point) : (s.goto k).ns = s.ns := rfl
@[simp] theorem State.goto_ct (s : State) (k : Point) : (s.goto k).ct = s.ct := rfl
@[simp] theorem State.goto_eng (s : State) (k : Point) : (s.goto k).eng = s.eng.goto k := rfl
@[simp] theorem State.goto_pos (s : State) (k : Point) : (s.goto k).pos = s.pos := rfl
@[simp] theorem State.goto_stack (s : State) (k : Point) : (s.goto k).stack = s.stack := rfl
@[simp] theorem State.goto_alloc (s : State) (k : Point) : (s.goto k).alloc = s.alloc := rfl
@[simp] theorem State.goto_boutValid (s : State) (k : Point) : (s.goto k).boutValid = s.boutValid := rfl
@[simp] theorem State.goto_boutBit (s : State) (k : Point) : (s.goto k).boutBit = s.boutBit := rfl
@[simp] theorem State.goto_soutValid (s : State) (k : Point) : (s.goto k).soutValid = s.soutValid := rfl
@[simp] theorem State.goto_soutData (s : State) (k : Point) : (s.goto k).soutData = s.soutData := rfl
@[simp] theorem State.goto_env (s : State) (k : Point) : (s.goto k).env = s.env := rfl

/-! ## State.complete -/

@[simp] theorem State.complete_ieDone (s : State) : s.complete.ieDone = s.ieDone := rfl
@[simp] theorem State.complete_ieErr (s : State) : s.complete.ieErr = s.ieErr := rfl
@[simp] theorem State.complete_done (s : State) : s.complete.done = true := rfl
@[simp] theorem State.complete_err (s : State) : s.complete.err = s.err := rfl
@[simp] theorem State.complete_treeValid (s : State) : s.complete.treeValid = s.treeValid := rfl
@[simp] theorem State.complete_drop (s : State) : s.complete.drop = s.drop := rfl
@[simp] theorem State.complete_op (s : State) : s.complete.op = s.op := rfl
@[simp] theorem State.complete_errinfo (s : State) : s.complete.errinfo = s.errinfo := rfl
@[simp] theorem State.complete_magic (s : State) : s.complete.magic = s.magic := rfl
@[simp] theorem State.complete_magicReset (s : State) : s.complete.magicReset = s.magicReset := rfl
@[simp] theorem State.complete_nodeCount (s : State) : s.complete.nodeCount = s.nodeCount := rfl
@[simp] theorem State.complete_bitsIn (s : State) : s.complete.bitsIn = s.bitsIn := rfl
@[simp] theorem State.complete_bitsOut (s : State) : s.complete.bitsOut = s.bitsOut := rfl
@[simp] theorem State.complete_symsIn (s : State) : s.complete.symsIn = s.symsIn := rfl
@[simp] theorem State.complete_symsOut (s : State) : s.complete.symsOut = s.symsOut := rfl
@[simp] theorem State.complete_nodeSel (s : State) : s.complete.nodeSel = s.nodeSel := rfl
@[simp] theorem State.complete_ctSelSym (s : State) : s.complete.ctSelSym = s.ctSelSym := rfl
@[simp] theorem State.complete_ctSelWord (s : State) : s.complete.ctSelWord = s.ctSelWord := rfl
@[simp] theorem State.complete_ns (s : State) : s.complete.ns = s.ns := rfl
@[simp] theorem State.complete_ct (s : State) : s.complete.ct = s.ct := rfl
@[simp] theorem State.complete_eng (s : State) : s.complete.eng = .idle := rfl
@[simp] theorem State.complete_pos (s : State) : s.complete.pos = s.pos := rfl
@[simp] theorem State.complete_stack (s : State) : s.complete.stack = s.stack := rfl
@[simp] theorem State.complete_alloc (s : State) : s.complete.alloc = s.alloc := rfl
@[simp] theorem State.complete_boutValid (s : State) : s.complete.boutValid = s.boutValid := rfl
@[simp] theorem State.complete_boutBit (s : State) : s.complete.boutBit = s.boutBit := rfl
@[simp] theorem State.complete_soutValid (s : State) : s.complete.soutValid = s.soutValid := rfl
@[simp] theorem State.complete_soutData (s : State) : s.complete.soutData = s.soutData := rfl
@[simp] theorem State.complete_env (s : State) : s.complete.env = s.env := rfl

/-! ## State.raise -/

@[simp] theorem State.raise_ieDone (s : State) (e : Cause) (sub : BitVec 4) (esym : Symbol) : (s.raise e sub esym).ieDone = s.ieDone := rfl
@[simp] theorem State.raise_ieErr (s : State) (e : Cause) (sub : BitVec 4) (esym : Symbol) : (s.raise e sub esym).ieErr = s.ieErr := rfl
@[simp] theorem State.raise_done (s : State) (e : Cause) (sub : BitVec 4) (esym : Symbol) : (s.raise e sub esym).done = false := rfl
@[simp] theorem State.raise_err (s : State) (e : Cause) (sub : BitVec 4) (esym : Symbol) : (s.raise e sub esym).err = true := rfl
@[simp] theorem State.raise_treeValid (s : State) (e : Cause) (sub : BitVec 4) (esym : Symbol) : (s.raise e sub esym).treeValid = s.treeValid := rfl
@[simp] theorem State.raise_drop (s : State) (e : Cause) (sub : BitVec 4) (esym : Symbol) : (s.raise e sub esym).drop = s.drop := rfl
@[simp] theorem State.raise_op (s : State) (e : Cause) (sub : BitVec 4) (esym : Symbol) : (s.raise e sub esym).op = s.op := rfl
@[simp] theorem State.raise_errinfo (s : State) (e : Cause) (sub : BitVec 4) (esym : Symbol) : (s.raise e sub esym).errinfo = errinfoWord e.code s.op sub esym := rfl
@[simp] theorem State.raise_magic (s : State) (e : Cause) (sub : BitVec 4) (esym : Symbol) : (s.raise e sub esym).magic = s.magic := rfl
@[simp] theorem State.raise_magicReset (s : State) (e : Cause) (sub : BitVec 4) (esym : Symbol) : (s.raise e sub esym).magicReset = s.magicReset := rfl
@[simp] theorem State.raise_nodeCount (s : State) (e : Cause) (sub : BitVec 4) (esym : Symbol) : (s.raise e sub esym).nodeCount = s.nodeCount := rfl
@[simp] theorem State.raise_bitsIn (s : State) (e : Cause) (sub : BitVec 4) (esym : Symbol) : (s.raise e sub esym).bitsIn = s.bitsIn := rfl
@[simp] theorem State.raise_bitsOut (s : State) (e : Cause) (sub : BitVec 4) (esym : Symbol) : (s.raise e sub esym).bitsOut = s.bitsOut := rfl
@[simp] theorem State.raise_symsIn (s : State) (e : Cause) (sub : BitVec 4) (esym : Symbol) : (s.raise e sub esym).symsIn = s.symsIn := rfl
@[simp] theorem State.raise_symsOut (s : State) (e : Cause) (sub : BitVec 4) (esym : Symbol) : (s.raise e sub esym).symsOut = s.symsOut := rfl
@[simp] theorem State.raise_nodeSel (s : State) (e : Cause) (sub : BitVec 4) (esym : Symbol) : (s.raise e sub esym).nodeSel = s.nodeSel := rfl
@[simp] theorem State.raise_ctSelSym (s : State) (e : Cause) (sub : BitVec 4) (esym : Symbol) : (s.raise e sub esym).ctSelSym = s.ctSelSym := rfl
@[simp] theorem State.raise_ctSelWord (s : State) (e : Cause) (sub : BitVec 4) (esym : Symbol) : (s.raise e sub esym).ctSelWord = s.ctSelWord := rfl
@[simp] theorem State.raise_ns (s : State) (e : Cause) (sub : BitVec 4) (esym : Symbol) : (s.raise e sub esym).ns = s.ns := rfl
@[simp] theorem State.raise_ct (s : State) (e : Cause) (sub : BitVec 4) (esym : Symbol) : (s.raise e sub esym).ct = s.ct := rfl
@[simp] theorem State.raise_eng (s : State) (e : Cause) (sub : BitVec 4) (esym : Symbol) : (s.raise e sub esym).eng = .idle := rfl
@[simp] theorem State.raise_pos (s : State) (e : Cause) (sub : BitVec 4) (esym : Symbol) : (s.raise e sub esym).pos = s.pos := rfl
@[simp] theorem State.raise_stack (s : State) (e : Cause) (sub : BitVec 4) (esym : Symbol) : (s.raise e sub esym).stack = s.stack := rfl
@[simp] theorem State.raise_alloc (s : State) (e : Cause) (sub : BitVec 4) (esym : Symbol) : (s.raise e sub esym).alloc = s.alloc := rfl
@[simp] theorem State.raise_boutValid (s : State) (e : Cause) (sub : BitVec 4) (esym : Symbol) : (s.raise e sub esym).boutValid = s.boutValid := rfl
@[simp] theorem State.raise_boutBit (s : State) (e : Cause) (sub : BitVec 4) (esym : Symbol) : (s.raise e sub esym).boutBit = s.boutBit := rfl
@[simp] theorem State.raise_soutValid (s : State) (e : Cause) (sub : BitVec 4) (esym : Symbol) : (s.raise e sub esym).soutValid = s.soutValid := rfl
@[simp] theorem State.raise_soutData (s : State) (e : Cause) (sub : BitVec 4) (esym : Symbol) : (s.raise e sub esym).soutData = s.soutData := rfl
@[simp] theorem State.raise_env (s : State) (e : Cause) (sub : BitVec 4) (esym : Symbol) : (s.raise e sub esym).env = s.env := rfl

/-! ## State.leaveError -/

@[simp] theorem State.leaveError_ieDone (s : State) : s.leaveError.ieDone = s.ieDone := rfl
@[simp] theorem State.leaveError_ieErr (s : State) : s.leaveError.ieErr = s.ieErr := rfl
@[simp] theorem State.leaveError_done (s : State) : s.leaveError.done = s.done := rfl
@[simp] theorem State.leaveError_err (s : State) : s.leaveError.err = false := rfl
@[simp] theorem State.leaveError_treeValid (s : State) : s.leaveError.treeValid = s.treeValid := rfl
@[simp] theorem State.leaveError_drop (s : State) : s.leaveError.drop = false := rfl
@[simp] theorem State.leaveError_op (s : State) : s.leaveError.op = s.op := rfl
@[simp] theorem State.leaveError_errinfo (s : State) : s.leaveError.errinfo = 0 := rfl
@[simp] theorem State.leaveError_magic (s : State) : s.leaveError.magic = s.magic := rfl
@[simp] theorem State.leaveError_magicReset (s : State) : s.leaveError.magicReset = s.magicReset := rfl
@[simp] theorem State.leaveError_nodeCount (s : State) : s.leaveError.nodeCount = s.nodeCount := rfl
@[simp] theorem State.leaveError_bitsIn (s : State) : s.leaveError.bitsIn = s.bitsIn := rfl
@[simp] theorem State.leaveError_bitsOut (s : State) : s.leaveError.bitsOut = s.bitsOut := rfl
@[simp] theorem State.leaveError_symsIn (s : State) : s.leaveError.symsIn = s.symsIn := rfl
@[simp] theorem State.leaveError_symsOut (s : State) : s.leaveError.symsOut = s.symsOut := rfl
@[simp] theorem State.leaveError_nodeSel (s : State) : s.leaveError.nodeSel = s.nodeSel := rfl
@[simp] theorem State.leaveError_ctSelSym (s : State) : s.leaveError.ctSelSym = s.ctSelSym := rfl
@[simp] theorem State.leaveError_ctSelWord (s : State) : s.leaveError.ctSelWord = s.ctSelWord := rfl
@[simp] theorem State.leaveError_ns (s : State) : s.leaveError.ns = s.ns := rfl
@[simp] theorem State.leaveError_ct (s : State) : s.leaveError.ct = s.ct := rfl
@[simp] theorem State.leaveError_eng (s : State) : s.leaveError.eng = s.eng := rfl
@[simp] theorem State.leaveError_pos (s : State) : s.leaveError.pos = s.pos := rfl
@[simp] theorem State.leaveError_stack (s : State) : s.leaveError.stack = s.stack := rfl
@[simp] theorem State.leaveError_alloc (s : State) : s.leaveError.alloc = s.alloc := rfl
@[simp] theorem State.leaveError_boutValid (s : State) : s.leaveError.boutValid = s.boutValid := rfl
@[simp] theorem State.leaveError_boutBit (s : State) : s.leaveError.boutBit = s.boutBit := rfl
@[simp] theorem State.leaveError_soutValid (s : State) : s.leaveError.soutValid = s.soutValid := rfl
@[simp] theorem State.leaveError_soutData (s : State) : s.leaveError.soutData = s.soutData := rfl
@[simp] theorem State.leaveError_env (s : State) : s.leaveError.env = s.env := rfl

/-! ## State.zeroCounters -/

@[simp] theorem State.zeroCounters_ieDone (s : State) : s.zeroCounters.ieDone = s.ieDone := rfl
@[simp] theorem State.zeroCounters_ieErr (s : State) : s.zeroCounters.ieErr = s.ieErr := rfl
@[simp] theorem State.zeroCounters_done (s : State) : s.zeroCounters.done = s.done := rfl
@[simp] theorem State.zeroCounters_err (s : State) : s.zeroCounters.err = s.err := rfl
@[simp] theorem State.zeroCounters_treeValid (s : State) : s.zeroCounters.treeValid = s.treeValid := rfl
@[simp] theorem State.zeroCounters_drop (s : State) : s.zeroCounters.drop = s.drop := rfl
@[simp] theorem State.zeroCounters_op (s : State) : s.zeroCounters.op = s.op := rfl
@[simp] theorem State.zeroCounters_errinfo (s : State) : s.zeroCounters.errinfo = s.errinfo := rfl
@[simp] theorem State.zeroCounters_magic (s : State) : s.zeroCounters.magic = s.magic := rfl
@[simp] theorem State.zeroCounters_magicReset (s : State) : s.zeroCounters.magicReset = s.magicReset := rfl
@[simp] theorem State.zeroCounters_nodeCount (s : State) : s.zeroCounters.nodeCount = s.nodeCount := rfl
@[simp] theorem State.zeroCounters_bitsIn (s : State) : s.zeroCounters.bitsIn = 0 := rfl
@[simp] theorem State.zeroCounters_bitsOut (s : State) : s.zeroCounters.bitsOut = 0 := rfl
@[simp] theorem State.zeroCounters_symsIn (s : State) : s.zeroCounters.symsIn = 0 := rfl
@[simp] theorem State.zeroCounters_symsOut (s : State) : s.zeroCounters.symsOut = 0 := rfl
@[simp] theorem State.zeroCounters_nodeSel (s : State) : s.zeroCounters.nodeSel = s.nodeSel := rfl
@[simp] theorem State.zeroCounters_ctSelSym (s : State) : s.zeroCounters.ctSelSym = s.ctSelSym := rfl
@[simp] theorem State.zeroCounters_ctSelWord (s : State) : s.zeroCounters.ctSelWord = s.ctSelWord := rfl
@[simp] theorem State.zeroCounters_ns (s : State) : s.zeroCounters.ns = s.ns := rfl
@[simp] theorem State.zeroCounters_ct (s : State) : s.zeroCounters.ct = s.ct := rfl
@[simp] theorem State.zeroCounters_eng (s : State) : s.zeroCounters.eng = s.eng := rfl
@[simp] theorem State.zeroCounters_pos (s : State) : s.zeroCounters.pos = s.pos := rfl
@[simp] theorem State.zeroCounters_stack (s : State) : s.zeroCounters.stack = s.stack := rfl
@[simp] theorem State.zeroCounters_alloc (s : State) : s.zeroCounters.alloc = s.alloc := rfl
@[simp] theorem State.zeroCounters_boutValid (s : State) : s.zeroCounters.boutValid = s.boutValid := rfl
@[simp] theorem State.zeroCounters_boutBit (s : State) : s.zeroCounters.boutBit = s.boutBit := rfl
@[simp] theorem State.zeroCounters_soutValid (s : State) : s.zeroCounters.soutValid = s.soutValid := rfl
@[simp] theorem State.zeroCounters_soutData (s : State) : s.zeroCounters.soutData = s.soutData := rfl
@[simp] theorem State.zeroCounters_env (s : State) : s.zeroCounters.env = s.env := rfl

/-! ## State.takeBit -/

@[simp] theorem State.takeBit_ieDone (s : State) : s.takeBit.ieDone = s.ieDone := rfl
@[simp] theorem State.takeBit_ieErr (s : State) : s.takeBit.ieErr = s.ieErr := rfl
@[simp] theorem State.takeBit_done (s : State) : s.takeBit.done = s.done := rfl
@[simp] theorem State.takeBit_err (s : State) : s.takeBit.err = s.err := rfl
@[simp] theorem State.takeBit_treeValid (s : State) : s.takeBit.treeValid = s.treeValid := rfl
@[simp] theorem State.takeBit_drop (s : State) : s.takeBit.drop = s.drop := rfl
@[simp] theorem State.takeBit_op (s : State) : s.takeBit.op = s.op := rfl
@[simp] theorem State.takeBit_errinfo (s : State) : s.takeBit.errinfo = s.errinfo := rfl
@[simp] theorem State.takeBit_magic (s : State) : s.takeBit.magic = s.magic := rfl
@[simp] theorem State.takeBit_magicReset (s : State) : s.takeBit.magicReset = s.magicReset := rfl
@[simp] theorem State.takeBit_nodeCount (s : State) : s.takeBit.nodeCount = s.nodeCount := rfl
@[simp] theorem State.takeBit_bitsIn (s : State) : s.takeBit.bitsIn = s.bitsIn + 1 := rfl
@[simp] theorem State.takeBit_bitsOut (s : State) : s.takeBit.bitsOut = s.bitsOut := rfl
@[simp] theorem State.takeBit_symsIn (s : State) : s.takeBit.symsIn = s.symsIn := rfl
@[simp] theorem State.takeBit_symsOut (s : State) : s.takeBit.symsOut = s.symsOut := rfl
@[simp] theorem State.takeBit_nodeSel (s : State) : s.takeBit.nodeSel = s.nodeSel := rfl
@[simp] theorem State.takeBit_ctSelSym (s : State) : s.takeBit.ctSelSym = s.ctSelSym := rfl
@[simp] theorem State.takeBit_ctSelWord (s : State) : s.takeBit.ctSelWord = s.ctSelWord := rfl
@[simp] theorem State.takeBit_ns (s : State) : s.takeBit.ns = s.ns := rfl
@[simp] theorem State.takeBit_ct (s : State) : s.takeBit.ct = s.ct := rfl
@[simp] theorem State.takeBit_eng (s : State) : s.takeBit.eng = s.eng := rfl
@[simp] theorem State.takeBit_pos (s : State) : s.takeBit.pos = s.pos := rfl
@[simp] theorem State.takeBit_stack (s : State) : s.takeBit.stack = s.stack := rfl
@[simp] theorem State.takeBit_alloc (s : State) : s.takeBit.alloc = s.alloc := rfl
@[simp] theorem State.takeBit_boutValid (s : State) : s.takeBit.boutValid = s.boutValid := rfl
@[simp] theorem State.takeBit_boutBit (s : State) : s.takeBit.boutBit = s.boutBit := rfl
@[simp] theorem State.takeBit_soutValid (s : State) : s.takeBit.soutValid = s.soutValid := rfl
@[simp] theorem State.takeBit_soutData (s : State) : s.takeBit.soutData = s.soutData := rfl
@[simp] theorem State.takeBit_env (s : State) : s.takeBit.env = { s.env with bin := s.env.bin.drop } := rfl

/-! ## State.takeSym -/

@[simp] theorem State.takeSym_ieDone (s : State) : s.takeSym.ieDone = s.ieDone := rfl
@[simp] theorem State.takeSym_ieErr (s : State) : s.takeSym.ieErr = s.ieErr := rfl
@[simp] theorem State.takeSym_done (s : State) : s.takeSym.done = s.done := rfl
@[simp] theorem State.takeSym_err (s : State) : s.takeSym.err = s.err := rfl
@[simp] theorem State.takeSym_treeValid (s : State) : s.takeSym.treeValid = s.treeValid := rfl
@[simp] theorem State.takeSym_drop (s : State) : s.takeSym.drop = s.drop := rfl
@[simp] theorem State.takeSym_op (s : State) : s.takeSym.op = s.op := rfl
@[simp] theorem State.takeSym_errinfo (s : State) : s.takeSym.errinfo = s.errinfo := rfl
@[simp] theorem State.takeSym_magic (s : State) : s.takeSym.magic = s.magic := rfl
@[simp] theorem State.takeSym_magicReset (s : State) : s.takeSym.magicReset = s.magicReset := rfl
@[simp] theorem State.takeSym_nodeCount (s : State) : s.takeSym.nodeCount = s.nodeCount := rfl
@[simp] theorem State.takeSym_bitsIn (s : State) : s.takeSym.bitsIn = s.bitsIn := rfl
@[simp] theorem State.takeSym_bitsOut (s : State) : s.takeSym.bitsOut = s.bitsOut := rfl
@[simp] theorem State.takeSym_symsIn (s : State) : s.takeSym.symsIn = s.symsIn + 1 := rfl
@[simp] theorem State.takeSym_symsOut (s : State) : s.takeSym.symsOut = s.symsOut := rfl
@[simp] theorem State.takeSym_nodeSel (s : State) : s.takeSym.nodeSel = s.nodeSel := rfl
@[simp] theorem State.takeSym_ctSelSym (s : State) : s.takeSym.ctSelSym = s.ctSelSym := rfl
@[simp] theorem State.takeSym_ctSelWord (s : State) : s.takeSym.ctSelWord = s.ctSelWord := rfl
@[simp] theorem State.takeSym_ns (s : State) : s.takeSym.ns = s.ns := rfl
@[simp] theorem State.takeSym_ct (s : State) : s.takeSym.ct = s.ct := rfl
@[simp] theorem State.takeSym_eng (s : State) : s.takeSym.eng = s.eng := rfl
@[simp] theorem State.takeSym_pos (s : State) : s.takeSym.pos = s.pos := rfl
@[simp] theorem State.takeSym_stack (s : State) : s.takeSym.stack = s.stack := rfl
@[simp] theorem State.takeSym_alloc (s : State) : s.takeSym.alloc = s.alloc := rfl
@[simp] theorem State.takeSym_boutValid (s : State) : s.takeSym.boutValid = s.boutValid := rfl
@[simp] theorem State.takeSym_boutBit (s : State) : s.takeSym.boutBit = s.boutBit := rfl
@[simp] theorem State.takeSym_soutValid (s : State) : s.takeSym.soutValid = s.soutValid := rfl
@[simp] theorem State.takeSym_soutData (s : State) : s.takeSym.soutData = s.soutData := rfl
@[simp] theorem State.takeSym_env (s : State) : s.takeSym.env = { s.env with sin := s.env.sin.drop } := rfl

/-! ## State.offerBit -/

@[simp] theorem State.offerBit_ieDone (s : State) (b : Bool) : (s.offerBit b).ieDone = s.ieDone := rfl
@[simp] theorem State.offerBit_ieErr (s : State) (b : Bool) : (s.offerBit b).ieErr = s.ieErr := rfl
@[simp] theorem State.offerBit_done (s : State) (b : Bool) : (s.offerBit b).done = s.done := rfl
@[simp] theorem State.offerBit_err (s : State) (b : Bool) : (s.offerBit b).err = s.err := rfl
@[simp] theorem State.offerBit_treeValid (s : State) (b : Bool) : (s.offerBit b).treeValid = s.treeValid := rfl
@[simp] theorem State.offerBit_drop (s : State) (b : Bool) : (s.offerBit b).drop = s.drop := rfl
@[simp] theorem State.offerBit_op (s : State) (b : Bool) : (s.offerBit b).op = s.op := rfl
@[simp] theorem State.offerBit_errinfo (s : State) (b : Bool) : (s.offerBit b).errinfo = s.errinfo := rfl
@[simp] theorem State.offerBit_magic (s : State) (b : Bool) : (s.offerBit b).magic = s.magic := rfl
@[simp] theorem State.offerBit_magicReset (s : State) (b : Bool) : (s.offerBit b).magicReset = s.magicReset := rfl
@[simp] theorem State.offerBit_nodeCount (s : State) (b : Bool) : (s.offerBit b).nodeCount = s.nodeCount := rfl
@[simp] theorem State.offerBit_bitsIn (s : State) (b : Bool) : (s.offerBit b).bitsIn = s.bitsIn := rfl
@[simp] theorem State.offerBit_bitsOut (s : State) (b : Bool) : (s.offerBit b).bitsOut = s.bitsOut := rfl
@[simp] theorem State.offerBit_symsIn (s : State) (b : Bool) : (s.offerBit b).symsIn = s.symsIn := rfl
@[simp] theorem State.offerBit_symsOut (s : State) (b : Bool) : (s.offerBit b).symsOut = s.symsOut := rfl
@[simp] theorem State.offerBit_nodeSel (s : State) (b : Bool) : (s.offerBit b).nodeSel = s.nodeSel := rfl
@[simp] theorem State.offerBit_ctSelSym (s : State) (b : Bool) : (s.offerBit b).ctSelSym = s.ctSelSym := rfl
@[simp] theorem State.offerBit_ctSelWord (s : State) (b : Bool) : (s.offerBit b).ctSelWord = s.ctSelWord := rfl
@[simp] theorem State.offerBit_ns (s : State) (b : Bool) : (s.offerBit b).ns = s.ns := rfl
@[simp] theorem State.offerBit_ct (s : State) (b : Bool) : (s.offerBit b).ct = s.ct := rfl
@[simp] theorem State.offerBit_eng (s : State) (b : Bool) : (s.offerBit b).eng = s.eng := rfl
@[simp] theorem State.offerBit_pos (s : State) (b : Bool) : (s.offerBit b).pos = s.pos := rfl
@[simp] theorem State.offerBit_stack (s : State) (b : Bool) : (s.offerBit b).stack = s.stack := rfl
@[simp] theorem State.offerBit_alloc (s : State) (b : Bool) : (s.offerBit b).alloc = s.alloc := rfl
@[simp] theorem State.offerBit_boutValid (s : State) (b : Bool) : (s.offerBit b).boutValid = true := rfl
@[simp] theorem State.offerBit_boutBit (s : State) (b : Bool) : (s.offerBit b).boutBit = b := rfl
@[simp] theorem State.offerBit_soutValid (s : State) (b : Bool) : (s.offerBit b).soutValid = s.soutValid := rfl
@[simp] theorem State.offerBit_soutData (s : State) (b : Bool) : (s.offerBit b).soutData = s.soutData := rfl
@[simp] theorem State.offerBit_env (s : State) (b : Bool) : (s.offerBit b).env = s.env := rfl

/-! ## State.sendBit -/

@[simp] theorem State.sendBit_ieDone (s : State) : s.sendBit.ieDone = s.ieDone := rfl
@[simp] theorem State.sendBit_ieErr (s : State) : s.sendBit.ieErr = s.ieErr := rfl
@[simp] theorem State.sendBit_done (s : State) : s.sendBit.done = s.done := rfl
@[simp] theorem State.sendBit_err (s : State) : s.sendBit.err = s.err := rfl
@[simp] theorem State.sendBit_treeValid (s : State) : s.sendBit.treeValid = s.treeValid := rfl
@[simp] theorem State.sendBit_drop (s : State) : s.sendBit.drop = s.drop := rfl
@[simp] theorem State.sendBit_op (s : State) : s.sendBit.op = s.op := rfl
@[simp] theorem State.sendBit_errinfo (s : State) : s.sendBit.errinfo = s.errinfo := rfl
@[simp] theorem State.sendBit_magic (s : State) : s.sendBit.magic = s.magic := rfl
@[simp] theorem State.sendBit_magicReset (s : State) : s.sendBit.magicReset = s.magicReset := rfl
@[simp] theorem State.sendBit_nodeCount (s : State) : s.sendBit.nodeCount = s.nodeCount := rfl
@[simp] theorem State.sendBit_bitsIn (s : State) : s.sendBit.bitsIn = s.bitsIn := rfl
@[simp] theorem State.sendBit_bitsOut (s : State) : s.sendBit.bitsOut = s.bitsOut + 1 := rfl
@[simp] theorem State.sendBit_symsIn (s : State) : s.sendBit.symsIn = s.symsIn := rfl
@[simp] theorem State.sendBit_symsOut (s : State) : s.sendBit.symsOut = s.symsOut := rfl
@[simp] theorem State.sendBit_nodeSel (s : State) : s.sendBit.nodeSel = s.nodeSel := rfl
@[simp] theorem State.sendBit_ctSelSym (s : State) : s.sendBit.ctSelSym = s.ctSelSym := rfl
@[simp] theorem State.sendBit_ctSelWord (s : State) : s.sendBit.ctSelWord = s.ctSelWord := rfl
@[simp] theorem State.sendBit_ns (s : State) : s.sendBit.ns = s.ns := rfl
@[simp] theorem State.sendBit_ct (s : State) : s.sendBit.ct = s.ct := rfl
@[simp] theorem State.sendBit_eng (s : State) : s.sendBit.eng = s.eng := rfl
@[simp] theorem State.sendBit_pos (s : State) : s.sendBit.pos = s.pos := rfl
@[simp] theorem State.sendBit_stack (s : State) : s.sendBit.stack = s.stack := rfl
@[simp] theorem State.sendBit_alloc (s : State) : s.sendBit.alloc = s.alloc := rfl
@[simp] theorem State.sendBit_boutValid (s : State) : s.sendBit.boutValid = false := rfl
@[simp] theorem State.sendBit_boutBit (s : State) : s.sendBit.boutBit = s.boutBit := rfl
@[simp] theorem State.sendBit_soutValid (s : State) : s.sendBit.soutValid = s.soutValid := rfl
@[simp] theorem State.sendBit_soutData (s : State) : s.sendBit.soutData = s.soutData := rfl
@[simp] theorem State.sendBit_env (s : State) : s.sendBit.env = { s.env with boutTaken := s.env.boutTaken ++ [s.boutBit] } := rfl

/-! ## State.offerSym -/

@[simp] theorem State.offerSym_ieDone (s : State) (v : Byte) : (s.offerSym v).ieDone = s.ieDone := rfl
@[simp] theorem State.offerSym_ieErr (s : State) (v : Byte) : (s.offerSym v).ieErr = s.ieErr := rfl
@[simp] theorem State.offerSym_done (s : State) (v : Byte) : (s.offerSym v).done = s.done := rfl
@[simp] theorem State.offerSym_err (s : State) (v : Byte) : (s.offerSym v).err = s.err := rfl
@[simp] theorem State.offerSym_treeValid (s : State) (v : Byte) : (s.offerSym v).treeValid = s.treeValid := rfl
@[simp] theorem State.offerSym_drop (s : State) (v : Byte) : (s.offerSym v).drop = s.drop := rfl
@[simp] theorem State.offerSym_op (s : State) (v : Byte) : (s.offerSym v).op = s.op := rfl
@[simp] theorem State.offerSym_errinfo (s : State) (v : Byte) : (s.offerSym v).errinfo = s.errinfo := rfl
@[simp] theorem State.offerSym_magic (s : State) (v : Byte) : (s.offerSym v).magic = s.magic := rfl
@[simp] theorem State.offerSym_magicReset (s : State) (v : Byte) : (s.offerSym v).magicReset = s.magicReset := rfl
@[simp] theorem State.offerSym_nodeCount (s : State) (v : Byte) : (s.offerSym v).nodeCount = s.nodeCount := rfl
@[simp] theorem State.offerSym_bitsIn (s : State) (v : Byte) : (s.offerSym v).bitsIn = s.bitsIn := rfl
@[simp] theorem State.offerSym_bitsOut (s : State) (v : Byte) : (s.offerSym v).bitsOut = s.bitsOut := rfl
@[simp] theorem State.offerSym_symsIn (s : State) (v : Byte) : (s.offerSym v).symsIn = s.symsIn := rfl
@[simp] theorem State.offerSym_symsOut (s : State) (v : Byte) : (s.offerSym v).symsOut = s.symsOut := rfl
@[simp] theorem State.offerSym_nodeSel (s : State) (v : Byte) : (s.offerSym v).nodeSel = s.nodeSel := rfl
@[simp] theorem State.offerSym_ctSelSym (s : State) (v : Byte) : (s.offerSym v).ctSelSym = s.ctSelSym := rfl
@[simp] theorem State.offerSym_ctSelWord (s : State) (v : Byte) : (s.offerSym v).ctSelWord = s.ctSelWord := rfl
@[simp] theorem State.offerSym_ns (s : State) (v : Byte) : (s.offerSym v).ns = s.ns := rfl
@[simp] theorem State.offerSym_ct (s : State) (v : Byte) : (s.offerSym v).ct = s.ct := rfl
@[simp] theorem State.offerSym_eng (s : State) (v : Byte) : (s.offerSym v).eng = s.eng := rfl
@[simp] theorem State.offerSym_pos (s : State) (v : Byte) : (s.offerSym v).pos = s.pos := rfl
@[simp] theorem State.offerSym_stack (s : State) (v : Byte) : (s.offerSym v).stack = s.stack := rfl
@[simp] theorem State.offerSym_alloc (s : State) (v : Byte) : (s.offerSym v).alloc = s.alloc := rfl
@[simp] theorem State.offerSym_boutValid (s : State) (v : Byte) : (s.offerSym v).boutValid = s.boutValid := rfl
@[simp] theorem State.offerSym_boutBit (s : State) (v : Byte) : (s.offerSym v).boutBit = s.boutBit := rfl
@[simp] theorem State.offerSym_soutValid (s : State) (v : Byte) : (s.offerSym v).soutValid = true := rfl
@[simp] theorem State.offerSym_soutData (s : State) (v : Byte) : (s.offerSym v).soutData = v := rfl
@[simp] theorem State.offerSym_env (s : State) (v : Byte) : (s.offerSym v).env = s.env := rfl

/-! ## State.sendSym -/

@[simp] theorem State.sendSym_ieDone (s : State) : s.sendSym.ieDone = s.ieDone := rfl
@[simp] theorem State.sendSym_ieErr (s : State) : s.sendSym.ieErr = s.ieErr := rfl
@[simp] theorem State.sendSym_done (s : State) : s.sendSym.done = s.done := rfl
@[simp] theorem State.sendSym_err (s : State) : s.sendSym.err = s.err := rfl
@[simp] theorem State.sendSym_treeValid (s : State) : s.sendSym.treeValid = s.treeValid := rfl
@[simp] theorem State.sendSym_drop (s : State) : s.sendSym.drop = s.drop := rfl
@[simp] theorem State.sendSym_op (s : State) : s.sendSym.op = s.op := rfl
@[simp] theorem State.sendSym_errinfo (s : State) : s.sendSym.errinfo = s.errinfo := rfl
@[simp] theorem State.sendSym_magic (s : State) : s.sendSym.magic = s.magic := rfl
@[simp] theorem State.sendSym_magicReset (s : State) : s.sendSym.magicReset = s.magicReset := rfl
@[simp] theorem State.sendSym_nodeCount (s : State) : s.sendSym.nodeCount = s.nodeCount := rfl
@[simp] theorem State.sendSym_bitsIn (s : State) : s.sendSym.bitsIn = s.bitsIn := rfl
@[simp] theorem State.sendSym_bitsOut (s : State) : s.sendSym.bitsOut = s.bitsOut := rfl
@[simp] theorem State.sendSym_symsIn (s : State) : s.sendSym.symsIn = s.symsIn := rfl
@[simp] theorem State.sendSym_symsOut (s : State) : s.sendSym.symsOut = s.symsOut + 1 := rfl
@[simp] theorem State.sendSym_nodeSel (s : State) : s.sendSym.nodeSel = s.nodeSel := rfl
@[simp] theorem State.sendSym_ctSelSym (s : State) : s.sendSym.ctSelSym = s.ctSelSym := rfl
@[simp] theorem State.sendSym_ctSelWord (s : State) : s.sendSym.ctSelWord = s.ctSelWord := rfl
@[simp] theorem State.sendSym_ns (s : State) : s.sendSym.ns = s.ns := rfl
@[simp] theorem State.sendSym_ct (s : State) : s.sendSym.ct = s.ct := rfl
@[simp] theorem State.sendSym_eng (s : State) : s.sendSym.eng = s.eng := rfl
@[simp] theorem State.sendSym_pos (s : State) : s.sendSym.pos = s.pos := rfl
@[simp] theorem State.sendSym_stack (s : State) : s.sendSym.stack = s.stack := rfl
@[simp] theorem State.sendSym_alloc (s : State) : s.sendSym.alloc = s.alloc := rfl
@[simp] theorem State.sendSym_boutValid (s : State) : s.sendSym.boutValid = s.boutValid := rfl
@[simp] theorem State.sendSym_boutBit (s : State) : s.sendSym.boutBit = s.boutBit := rfl
@[simp] theorem State.sendSym_soutValid (s : State) : s.sendSym.soutValid = false := rfl
@[simp] theorem State.sendSym_soutData (s : State) : s.sendSym.soutData = s.soutData := rfl
@[simp] theorem State.sendSym_env (s : State) : s.sendSym.env = { s.env with soutTaken := s.env.soutTaken ++ [s.soutData] } := rfl

/-! ## State.advanceHost -/

@[simp] theorem State.advanceHost_ieDone (s : State) : s.advanceHost.ieDone = s.ieDone := rfl
@[simp] theorem State.advanceHost_ieErr (s : State) : s.advanceHost.ieErr = s.ieErr := rfl
@[simp] theorem State.advanceHost_done (s : State) : s.advanceHost.done = s.done := rfl
@[simp] theorem State.advanceHost_err (s : State) : s.advanceHost.err = s.err := rfl
@[simp] theorem State.advanceHost_treeValid (s : State) : s.advanceHost.treeValid = s.treeValid := rfl
@[simp] theorem State.advanceHost_drop (s : State) : s.advanceHost.drop = s.drop := rfl
@[simp] theorem State.advanceHost_op (s : State) : s.advanceHost.op = s.op := rfl
@[simp] theorem State.advanceHost_errinfo (s : State) : s.advanceHost.errinfo = s.errinfo := rfl
@[simp] theorem State.advanceHost_magic (s : State) : s.advanceHost.magic = s.magic := rfl
@[simp] theorem State.advanceHost_magicReset (s : State) : s.advanceHost.magicReset = s.magicReset := rfl
@[simp] theorem State.advanceHost_nodeCount (s : State) : s.advanceHost.nodeCount = s.nodeCount := rfl
@[simp] theorem State.advanceHost_bitsIn (s : State) : s.advanceHost.bitsIn = s.bitsIn := rfl
@[simp] theorem State.advanceHost_bitsOut (s : State) : s.advanceHost.bitsOut = s.bitsOut := rfl
@[simp] theorem State.advanceHost_symsIn (s : State) : s.advanceHost.symsIn = s.symsIn := rfl
@[simp] theorem State.advanceHost_symsOut (s : State) : s.advanceHost.symsOut = s.symsOut := rfl
@[simp] theorem State.advanceHost_nodeSel (s : State) : s.advanceHost.nodeSel = s.nodeSel := rfl
@[simp] theorem State.advanceHost_ctSelSym (s : State) : s.advanceHost.ctSelSym = s.ctSelSym := rfl
@[simp] theorem State.advanceHost_ctSelWord (s : State) : s.advanceHost.ctSelWord = s.ctSelWord := rfl
@[simp] theorem State.advanceHost_ns (s : State) : s.advanceHost.ns = s.ns := rfl
@[simp] theorem State.advanceHost_ct (s : State) : s.advanceHost.ct = s.ct := rfl
@[simp] theorem State.advanceHost_eng (s : State) : s.advanceHost.eng = s.eng := rfl
@[simp] theorem State.advanceHost_pos (s : State) : s.advanceHost.pos = s.pos := rfl
@[simp] theorem State.advanceHost_stack (s : State) : s.advanceHost.stack = s.stack := rfl
@[simp] theorem State.advanceHost_alloc (s : State) : s.advanceHost.alloc = s.alloc := rfl
@[simp] theorem State.advanceHost_boutValid (s : State) : s.advanceHost.boutValid = s.boutValid := rfl
@[simp] theorem State.advanceHost_boutBit (s : State) : s.advanceHost.boutBit = s.boutBit := rfl
@[simp] theorem State.advanceHost_soutValid (s : State) : s.advanceHost.soutValid = s.soutValid := rfl
@[simp] theorem State.advanceHost_soutData (s : State) : s.advanceHost.soutData = s.soutData := rfl
@[simp] theorem State.advanceHost_env (s : State) : s.advanceHost.env = { s.env with hostPc := s.env.hostPc + 1 } := rfl

/-! ## State.hostJump -/

@[simp] theorem State.hostJump_ieDone (s : State) (target : Nat) : (s.hostJump target).ieDone = s.ieDone := rfl
@[simp] theorem State.hostJump_ieErr (s : State) (target : Nat) : (s.hostJump target).ieErr = s.ieErr := rfl
@[simp] theorem State.hostJump_done (s : State) (target : Nat) : (s.hostJump target).done = s.done := rfl
@[simp] theorem State.hostJump_err (s : State) (target : Nat) : (s.hostJump target).err = s.err := rfl
@[simp] theorem State.hostJump_treeValid (s : State) (target : Nat) : (s.hostJump target).treeValid = s.treeValid := rfl
@[simp] theorem State.hostJump_drop (s : State) (target : Nat) : (s.hostJump target).drop = s.drop := rfl
@[simp] theorem State.hostJump_op (s : State) (target : Nat) : (s.hostJump target).op = s.op := rfl
@[simp] theorem State.hostJump_errinfo (s : State) (target : Nat) : (s.hostJump target).errinfo = s.errinfo := rfl
@[simp] theorem State.hostJump_magic (s : State) (target : Nat) : (s.hostJump target).magic = s.magic := rfl
@[simp] theorem State.hostJump_magicReset (s : State) (target : Nat) : (s.hostJump target).magicReset = s.magicReset := rfl
@[simp] theorem State.hostJump_nodeCount (s : State) (target : Nat) : (s.hostJump target).nodeCount = s.nodeCount := rfl
@[simp] theorem State.hostJump_bitsIn (s : State) (target : Nat) : (s.hostJump target).bitsIn = s.bitsIn := rfl
@[simp] theorem State.hostJump_bitsOut (s : State) (target : Nat) : (s.hostJump target).bitsOut = s.bitsOut := rfl
@[simp] theorem State.hostJump_symsIn (s : State) (target : Nat) : (s.hostJump target).symsIn = s.symsIn := rfl
@[simp] theorem State.hostJump_symsOut (s : State) (target : Nat) : (s.hostJump target).symsOut = s.symsOut := rfl
@[simp] theorem State.hostJump_nodeSel (s : State) (target : Nat) : (s.hostJump target).nodeSel = s.nodeSel := rfl
@[simp] theorem State.hostJump_ctSelSym (s : State) (target : Nat) : (s.hostJump target).ctSelSym = s.ctSelSym := rfl
@[simp] theorem State.hostJump_ctSelWord (s : State) (target : Nat) : (s.hostJump target).ctSelWord = s.ctSelWord := rfl
@[simp] theorem State.hostJump_ns (s : State) (target : Nat) : (s.hostJump target).ns = s.ns := rfl
@[simp] theorem State.hostJump_ct (s : State) (target : Nat) : (s.hostJump target).ct = s.ct := rfl
@[simp] theorem State.hostJump_eng (s : State) (target : Nat) : (s.hostJump target).eng = s.eng := rfl
@[simp] theorem State.hostJump_pos (s : State) (target : Nat) : (s.hostJump target).pos = s.pos := rfl
@[simp] theorem State.hostJump_stack (s : State) (target : Nat) : (s.hostJump target).stack = s.stack := rfl
@[simp] theorem State.hostJump_alloc (s : State) (target : Nat) : (s.hostJump target).alloc = s.alloc := rfl
@[simp] theorem State.hostJump_boutValid (s : State) (target : Nat) : (s.hostJump target).boutValid = s.boutValid := rfl
@[simp] theorem State.hostJump_boutBit (s : State) (target : Nat) : (s.hostJump target).boutBit = s.boutBit := rfl
@[simp] theorem State.hostJump_soutValid (s : State) (target : Nat) : (s.hostJump target).soutValid = s.soutValid := rfl
@[simp] theorem State.hostJump_soutData (s : State) (target : Nat) : (s.hostJump target).soutData = s.soutData := rfl
@[simp] theorem State.hostJump_env (s : State) (target : Nat) : (s.hostJump target).env = { s.env with hostPc := target } := rfl

/-! ## State.noteRead -/

@[simp] theorem State.noteRead_ieDone (s : State) (off : Offset) (v : Word) : (s.noteRead off v).ieDone = s.ieDone := rfl
@[simp] theorem State.noteRead_ieErr (s : State) (off : Offset) (v : Word) : (s.noteRead off v).ieErr = s.ieErr := rfl
@[simp] theorem State.noteRead_done (s : State) (off : Offset) (v : Word) : (s.noteRead off v).done = s.done := rfl
@[simp] theorem State.noteRead_err (s : State) (off : Offset) (v : Word) : (s.noteRead off v).err = s.err := rfl
@[simp] theorem State.noteRead_treeValid (s : State) (off : Offset) (v : Word) : (s.noteRead off v).treeValid = s.treeValid := rfl
@[simp] theorem State.noteRead_drop (s : State) (off : Offset) (v : Word) : (s.noteRead off v).drop = s.drop := rfl
@[simp] theorem State.noteRead_op (s : State) (off : Offset) (v : Word) : (s.noteRead off v).op = s.op := rfl
@[simp] theorem State.noteRead_errinfo (s : State) (off : Offset) (v : Word) : (s.noteRead off v).errinfo = s.errinfo := rfl
@[simp] theorem State.noteRead_magic (s : State) (off : Offset) (v : Word) : (s.noteRead off v).magic = s.magic := rfl
@[simp] theorem State.noteRead_magicReset (s : State) (off : Offset) (v : Word) : (s.noteRead off v).magicReset = s.magicReset := rfl
@[simp] theorem State.noteRead_nodeCount (s : State) (off : Offset) (v : Word) : (s.noteRead off v).nodeCount = s.nodeCount := rfl
@[simp] theorem State.noteRead_bitsIn (s : State) (off : Offset) (v : Word) : (s.noteRead off v).bitsIn = s.bitsIn := rfl
@[simp] theorem State.noteRead_bitsOut (s : State) (off : Offset) (v : Word) : (s.noteRead off v).bitsOut = s.bitsOut := rfl
@[simp] theorem State.noteRead_symsIn (s : State) (off : Offset) (v : Word) : (s.noteRead off v).symsIn = s.symsIn := rfl
@[simp] theorem State.noteRead_symsOut (s : State) (off : Offset) (v : Word) : (s.noteRead off v).symsOut = s.symsOut := rfl
@[simp] theorem State.noteRead_nodeSel (s : State) (off : Offset) (v : Word) : (s.noteRead off v).nodeSel = s.nodeSel := rfl
@[simp] theorem State.noteRead_ctSelSym (s : State) (off : Offset) (v : Word) : (s.noteRead off v).ctSelSym = s.ctSelSym := rfl
@[simp] theorem State.noteRead_ctSelWord (s : State) (off : Offset) (v : Word) : (s.noteRead off v).ctSelWord = s.ctSelWord := rfl
@[simp] theorem State.noteRead_ns (s : State) (off : Offset) (v : Word) : (s.noteRead off v).ns = s.ns := rfl
@[simp] theorem State.noteRead_ct (s : State) (off : Offset) (v : Word) : (s.noteRead off v).ct = s.ct := rfl
@[simp] theorem State.noteRead_eng (s : State) (off : Offset) (v : Word) : (s.noteRead off v).eng = s.eng := rfl
@[simp] theorem State.noteRead_pos (s : State) (off : Offset) (v : Word) : (s.noteRead off v).pos = s.pos := rfl
@[simp] theorem State.noteRead_stack (s : State) (off : Offset) (v : Word) : (s.noteRead off v).stack = s.stack := rfl
@[simp] theorem State.noteRead_alloc (s : State) (off : Offset) (v : Word) : (s.noteRead off v).alloc = s.alloc := rfl
@[simp] theorem State.noteRead_boutValid (s : State) (off : Offset) (v : Word) : (s.noteRead off v).boutValid = s.boutValid := rfl
@[simp] theorem State.noteRead_boutBit (s : State) (off : Offset) (v : Word) : (s.noteRead off v).boutBit = s.boutBit := rfl
@[simp] theorem State.noteRead_soutValid (s : State) (off : Offset) (v : Word) : (s.noteRead off v).soutValid = s.soutValid := rfl
@[simp] theorem State.noteRead_soutData (s : State) (off : Offset) (v : Word) : (s.noteRead off v).soutData = s.soutData := rfl
@[simp] theorem State.noteRead_env (s : State) (off : Offset) (v : Word) : (s.noteRead off v).env = { s.env with reads := (off, v) :: s.env.reads } := rfl

/-! ## State.begun -/

@[simp] theorem State.begun_ieDone (s : State) (o : Opcode) : (s.begun o).ieDone = s.ieDone := rfl
@[simp] theorem State.begun_ieErr (s : State) (o : Opcode) : (s.begun o).ieErr = s.ieErr := rfl
@[simp] theorem State.begun_done (s : State) (o : Opcode) : (s.begun o).done = false := rfl
@[simp] theorem State.begun_err (s : State) (o : Opcode) : (s.begun o).err = s.err := rfl
@[simp] theorem State.begun_treeValid (s : State) (o : Opcode) : (s.begun o).treeValid = s.treeValid := rfl
@[simp] theorem State.begun_drop (s : State) (o : Opcode) : (s.begun o).drop = s.drop := rfl
@[simp] theorem State.begun_op (s : State) (o : Opcode) : (s.begun o).op = o := rfl
@[simp] theorem State.begun_errinfo (s : State) (o : Opcode) : (s.begun o).errinfo = s.errinfo := rfl
@[simp] theorem State.begun_magic (s : State) (o : Opcode) : (s.begun o).magic = s.magic := rfl
@[simp] theorem State.begun_magicReset (s : State) (o : Opcode) : (s.begun o).magicReset = s.magicReset := rfl
@[simp] theorem State.begun_nodeCount (s : State) (o : Opcode) : (s.begun o).nodeCount = s.nodeCount := rfl
@[simp] theorem State.begun_bitsIn (s : State) (o : Opcode) : (s.begun o).bitsIn = 0 := rfl
@[simp] theorem State.begun_bitsOut (s : State) (o : Opcode) : (s.begun o).bitsOut = 0 := rfl
@[simp] theorem State.begun_symsIn (s : State) (o : Opcode) : (s.begun o).symsIn = 0 := rfl
@[simp] theorem State.begun_symsOut (s : State) (o : Opcode) : (s.begun o).symsOut = 0 := rfl
@[simp] theorem State.begun_nodeSel (s : State) (o : Opcode) : (s.begun o).nodeSel = s.nodeSel := rfl
@[simp] theorem State.begun_ctSelSym (s : State) (o : Opcode) : (s.begun o).ctSelSym = s.ctSelSym := rfl
@[simp] theorem State.begun_ctSelWord (s : State) (o : Opcode) : (s.begun o).ctSelWord = s.ctSelWord := rfl
@[simp] theorem State.begun_ns (s : State) (o : Opcode) : (s.begun o).ns = s.ns := rfl
@[simp] theorem State.begun_ct (s : State) (o : Opcode) : (s.begun o).ct = s.ct := rfl
@[simp] theorem State.begun_eng (s : State) (o : Opcode) : (s.begun o).eng = s.eng := rfl
@[simp] theorem State.begun_pos (s : State) (o : Opcode) : (s.begun o).pos = s.pos := rfl
@[simp] theorem State.begun_stack (s : State) (o : Opcode) : (s.begun o).stack = s.stack := rfl
@[simp] theorem State.begun_alloc (s : State) (o : Opcode) : (s.begun o).alloc = s.alloc := rfl
@[simp] theorem State.begun_boutValid (s : State) (o : Opcode) : (s.begun o).boutValid = s.boutValid := rfl
@[simp] theorem State.begun_boutBit (s : State) (o : Opcode) : (s.begun o).boutBit = s.boutBit := rfl
@[simp] theorem State.begun_soutValid (s : State) (o : Opcode) : (s.begun o).soutValid = s.soutValid := rfl
@[simp] theorem State.begun_soutData (s : State) (o : Opcode) : (s.begun o).soutData = s.soutData := rfl
@[simp] theorem State.begun_env (s : State) (o : Opcode) : (s.begun o).env = s.env := rfl

/-! ## State.failed -/

@[simp] theorem State.failed_ieDone (s : State) (w : Word) : (s.failed w).ieDone = s.ieDone := rfl
@[simp] theorem State.failed_ieErr (s : State) (w : Word) : (s.failed w).ieErr = s.ieErr := rfl
@[simp] theorem State.failed_done (s : State) (w : Word) : (s.failed w).done = false := rfl
@[simp] theorem State.failed_err (s : State) (w : Word) : (s.failed w).err = true := rfl
@[simp] theorem State.failed_treeValid (s : State) (w : Word) : (s.failed w).treeValid = s.treeValid := rfl
@[simp] theorem State.failed_drop (s : State) (w : Word) : (s.failed w).drop = s.drop := rfl
@[simp] theorem State.failed_op (s : State) (w : Word) : (s.failed w).op = s.op := rfl
@[simp] theorem State.failed_errinfo (s : State) (w : Word) : (s.failed w).errinfo = w := rfl
@[simp] theorem State.failed_magic (s : State) (w : Word) : (s.failed w).magic = s.magic := rfl
@[simp] theorem State.failed_magicReset (s : State) (w : Word) : (s.failed w).magicReset = s.magicReset := rfl
@[simp] theorem State.failed_nodeCount (s : State) (w : Word) : (s.failed w).nodeCount = s.nodeCount := rfl
@[simp] theorem State.failed_bitsIn (s : State) (w : Word) : (s.failed w).bitsIn = s.bitsIn := rfl
@[simp] theorem State.failed_bitsOut (s : State) (w : Word) : (s.failed w).bitsOut = s.bitsOut := rfl
@[simp] theorem State.failed_symsIn (s : State) (w : Word) : (s.failed w).symsIn = s.symsIn := rfl
@[simp] theorem State.failed_symsOut (s : State) (w : Word) : (s.failed w).symsOut = s.symsOut := rfl
@[simp] theorem State.failed_nodeSel (s : State) (w : Word) : (s.failed w).nodeSel = s.nodeSel := rfl
@[simp] theorem State.failed_ctSelSym (s : State) (w : Word) : (s.failed w).ctSelSym = s.ctSelSym := rfl
@[simp] theorem State.failed_ctSelWord (s : State) (w : Word) : (s.failed w).ctSelWord = s.ctSelWord := rfl
@[simp] theorem State.failed_ns (s : State) (w : Word) : (s.failed w).ns = s.ns := rfl
@[simp] theorem State.failed_ct (s : State) (w : Word) : (s.failed w).ct = s.ct := rfl
@[simp] theorem State.failed_eng (s : State) (w : Word) : (s.failed w).eng = s.eng := rfl
@[simp] theorem State.failed_pos (s : State) (w : Word) : (s.failed w).pos = s.pos := rfl
@[simp] theorem State.failed_stack (s : State) (w : Word) : (s.failed w).stack = s.stack := rfl
@[simp] theorem State.failed_alloc (s : State) (w : Word) : (s.failed w).alloc = s.alloc := rfl
@[simp] theorem State.failed_boutValid (s : State) (w : Word) : (s.failed w).boutValid = s.boutValid := rfl
@[simp] theorem State.failed_boutBit (s : State) (w : Word) : (s.failed w).boutBit = s.boutBit := rfl
@[simp] theorem State.failed_soutValid (s : State) (w : Word) : (s.failed w).soutValid = s.soutValid := rfl
@[simp] theorem State.failed_soutData (s : State) (w : Word) : (s.failed w).soutData = s.soutData := rfl
@[simp] theorem State.failed_env (s : State) (w : Word) : (s.failed w).env = s.env := rfl

end Sys2Proof.Machine
end

