-- ==== Sys2Proof/Laws/Engine.lean ====
section
/-! SUPPORT. Runs of engine actions, and what the shared operations of the ports do in a run: ReadBits, WriteBits. -/

namespace Sys2Proof.Machine

@[simp] theorem engineRun_zero (s : State) : engineRun 0 s = .next s := rfl

theorem engineRun_succ (n : Nat) (s : State) :
    engineRun (n + 1) s =
      match engineStep s with
      | .next t => engineRun n t
      | .fault r => .fault r
      | .refused r => .refused r := rfl

/-- One action that answers a next state, then the rest of the run. -/
theorem engineRun_step {s t : State} (h : engineStep s = .next t) (n : Nat) : engineRun (n + 1) s = engineRun n t := by
  simp [engineRun_succ, h]

@[simp] theorem engineStep_idle {s : State} (h : s.eng = .idle) : engineStep s = .next s := by simp [engineStep, h]

/-- An action of a running command is the action at its program point. -/
theorem engineStep_run {s : State} {op : Opcode} {k : Point} (h : s.eng = .run op k) : engineStep s = act k s := by
  simp [engineStep, h]

/-- An idle engine takes no action (spec/60_exceptions.md R336). -/
@[simp] theorem engineRun_idle {s : State} (h : s.eng = .idle) (n : Nat) : engineRun n s = .next s := by
  induction n with
  | zero => rfl
  | succ n ih => rw [engineRun_step (engineStep_idle h), ih]

/-- A run of m + n actions is a run of m actions, then one of n. -/
theorem engineRun_add (m n : Nat) (s : State) :
    engineRun (m + n) s =
      match engineRun m s with
      | .next t => engineRun n t
      | .fault r => .fault r
      | .refused r => .refused r := by
  induction m generalizing s with
  | zero => simp
  | succ m ih =>
    rw [Nat.add_right_comm, engineRun_succ, engineRun_succ]
    cases engineStep s <;> simp [ih]

theorem engineRun_trans {m : Nat} {s t : State} (h : engineRun m s = .next t) (n : Nat) :
    engineRun (m + n) s = engineRun n t := by simp [engineRun_add, h]

/-- Two runs in a row. -/
theorem engineRun_then {m n : Nat} {s t u : State} (h : engineRun m s = .next t) (h' : engineRun n t = .next u) :
    engineRun (m + n) s = .next u := by rw [engineRun_trans h, h']

/-- One action, as a run. -/
theorem engineRun_one {s t : State} (h : engineStep s = .next t) : engineRun 1 s = .next t := engineRun_step h 0

/-- A predicate that every action keeps holds after a run. -/
theorem engineRun_keeps {P : State → Prop} (hP : ∀ s t, P s → engineStep s = .next t → P t) {n : Nat} {s t : State}
    (hs : P s) (h : engineRun n s = .next t) : P t := by
  induction n generalizing s with
  | zero => cases h; exact hs
  | succ n ih =>
    cases he : engineStep s with
    | next u => exact ih (hP s u hs he) (by rwa [engineRun_step he] at h)
    | fault r => simp [engineRun_succ, he] at h
    | refused r => simp [engineRun_succ, he] at h

/-- A command that needs more actions than it uses ends a run early: the engine is idle for the rest. -/
theorem engineRun_ends {m n : Nat} {s t : State} (h : engineRun m s = .next t) (ht : t.eng = .idle) (hn : m ≤ n) :
    engineRun n s = .next t := by
  obtain ⟨k, rfl⟩ := Nat.exists_eq_add_of_le hn
  rw [engineRun_trans h, engineRun_idle ht]

/-! ## ReadBits -/

/-- A counter that has counted one beat and then n more (spec/10_state.md R49). -/
theorem count_succ (c : Word) (n : Nat) : c + 1#32 + BitVec.ofNat 32 n = c + BitVec.ofNat 32 (n + 1) := by
  rw [BitVec.ofNat_add, BitVec.add_assoc, BitVec.add_comm 1#32]

/-- ReadBits(n) with the n bits on offer: n actions consume them. -/
theorem run_recv {op : Opcode} {who : Reader} (bits : Bits) (q : Source Bool) (v : Word) (s : State)
    (h : s.eng = .run op (.recv bits.length v who)) (hb : OffersBits s.env.bin bits q) :
    engineRun bits.length s =
      .next { s with
        bitsIn := s.bitsIn + BitVec.ofNat 32 bits.length, env := { s.env with bin := q },
        eng := .run op (.recv 0 (bits.foldl shiftIn v) who) } := by
  induction bits generalizing v s with
  | nil =>
    obtain rfl : s.env.bin = q := hb
    simp only [List.length_nil] at h
    simp [← h]
  | cons b bits ih =>
    obtain ⟨hb, hq⟩ := hb
    have hs : engineStep s = .next (s.takeBit.goto (.recv bits.length (shiftIn v b) who)) := by
      simp [engineStep_run h, act, actRecv, actRecvBit, State.binBeat, hb]
    rw [List.length_cons, engineRun_step hs, ih (shiftIn v b) _ (by simp [h]) hq]
    simp [State.goto, State.takeBit, h, count_succ]

/-- ReadBits when the stream ends early: the bits there are consumed, then EOS is observed. -/
theorem run_recv_eos {op : Opcode} {who : Reader} (bits : Bits) (n : Nat) (v : Word) (s : State)
    (h : s.eng = .run op (.recv n v who)) (hn : bits.length < n) (hb : s.env.bin = ⟨bits, .fin⟩) :
    engineRun (bits.length + 1) s = .next { s with
      bitsIn := s.bitsIn + BitVec.ofNat 32 bits.length, env := { s.env with bin := ⟨[], .fin⟩ },
      eng := .run op (.starved who) } := by
  induction bits generalizing v s n with
  | nil =>
    obtain ⟨m, rfl⟩ : ∃ m, n = m + 1 := ⟨n - 1, by simp at hn; omega⟩
    have hs : engineStep s = .next (s.goto (.starved who)) := by
      simp [engineStep_run h, act, actRecv, actRecvBit, State.binBeat, hb]
    rw [List.length_nil, engineRun_step hs]
    simp [State.goto, ← hb, h]
  | cons b bits ih =>
    obtain ⟨m, rfl⟩ : ∃ m, n = m + 1 := ⟨n - 1, by simp at hn; omega⟩
    have hs : engineStep s = .next (s.takeBit.goto (.recv m (shiftIn v b) who)) := by
      simp [engineStep_run h, act, actRecv, actRecvBit, State.binBeat, hb]
    rw [List.length_cons, engineRun_step hs,
      ih m (shiftIn v b) _ (by simp [h]) (by simpa using hn) (by simp [hb])]
    simp [State.goto, State.takeBit, h, count_succ]

/-! ## WriteBits -/

/-- WriteBits with a consumer that accepts: two actions a bit, then one to go on. -/
theorem run_send {op : Opcode} {next : Point} (bits : Bits) (s : State) (h : s.eng = .run op (.send bits next))
    (hr : s.env.boutReady = true) (hv : s.boutValid = false) :
    engineRun (2 * bits.length + 1) s = .next { s with
      boutBit := bits.getLastD s.boutBit, bitsOut := s.bitsOut + BitVec.ofNat 32 bits.length,
      env := { s.env with boutTaken := s.env.boutTaken ++ bits }, eng := .run op next } := by
  induction bits generalizing s with
  | nil =>
    have hs : engineStep s = .next (s.goto next) := by simp [engineStep_run h, act, actSend]
    rw [List.length_nil, engineRun_step hs]
    simp [State.goto, h]
  | cons b bits ih =>
    have h1 : engineStep s = .next ((s.offerBit b).goto (.drain bits next)) := by
      simp [engineStep_run h, act, actSend]
    have h2 : engineStep ((s.offerBit b).goto (.drain bits next)) =
        .next (((s.offerBit b).goto (.drain bits next)).sendBit.goto (.send bits next)) := by
      rw [engineStep_run (op := op) (k := .drain bits next) (by simp [h])]
      simp [act, actDrain, hr]
    have hl : 2 * (b :: bits).length + 1 = 2 * bits.length + 1 + 1 + 1 := by simp; omega
    rw [hl, engineRun_step h1, engineRun_step h2, ih _ (by simp [h]) (by simpa using hr) (by simp)]
    have hg : (b :: bits).getLast?.getD s.boutBit = bits.getLast?.getD b := by cases bits <;> simp [List.getLast?_cons]
    simp [State.goto, State.sendBit, State.offerBit, h, count_succ, hv, hg]

end Sys2Proof.Machine
end

