-- ==== Sys2Proof/Laws/Commands.lean ====
section
/-! SUPPORT. What a CMD write does, once (spec/40_control.md R150, R151), and how exec goes on from it. -/

namespace Sys2Proof.Machine

@[simp] theorem busy_of_idle {s : State} (h : s.eng = .idle) : s.busy = false := by simp [State.busy, h]

@[simp] theorem busy_of_run {s : State} {op : Opcode} {k : Point} (h : s.eng = .run op k) : s.busy = true := by
  simp [State.busy, h]

theorem busy_iff {s : State} : s.busy = true ↔ s.eng ≠ .idle := by
  cases h : s.eng <;> simp [State.busy, h]

/-- Everything a CMD write's own event can do: a drop, nothing, an illegal command's error entry, a missing tree's
error entry, or the start of the command. -/
theorem request_cases (s : State) (op : Opcode) (legal : Bool) (start : Point) :
    (s.request op legal start = { s with drop := true } ∧
        (s.busy = true ∨ (s.err = true ∧ ¬(legal = true ∧ (op = 0x0#4 ∨ op = 0x1#4))))) ∨
      (s.request op legal start = s ∧ s.busy = false ∧ legal = true ∧ op = 0x0#4) ∨
      (s.request op legal start = (s.begun op).raise .illegalCommand 0 0 ∧ s.busy = false ∧ s.err = false ∧
        legal = false) ∨
      (s.request op legal start = (s.begun op).raise .noTree 0 0 ∧ s.busy = false ∧ s.err = false ∧ legal = true ∧
        needsTree op = true ∧ s.treeValid = false) ∨
      (s.request op legal start = { s.begun op with eng := .run op start } ∧ s.busy = false ∧ legal = true ∧
        op ≠ 0x0#4 ∧ (s.err = true → op = 0x1#4) ∧ (needsTree op = true → s.treeValid = true)) := by
  by_cases hb : s.busy = true
  · exact .inl ⟨by simp [State.request, hb], .inl hb⟩
  simp only [Bool.not_eq_true] at hb
  by_cases h0 : legal = true ∧ op = 0x0#4
  · exact .inr (.inl ⟨by simp [State.request, hb, h0], hb, h0⟩)
  by_cases he : s.err = true ∧ ¬(legal = true ∧ op = 0x1#4)
  · refine .inl ⟨?_, .inr ⟨he.1, ?_⟩⟩
    · cases legal <;> simp_all [State.request]
    · cases legal <;> simp_all
  have hr : s.request op legal start = s.accept op legal start := by
    cases legal <;> cases hs : s.err <;> simp_all [State.request]
  rw [hr]
  cases legal with
  | false =>
    refine .inr (.inr (.inl ⟨by simp [State.accept, State.begun, State.zeroCounters], hb, ?_, rfl⟩))
    cases hs : s.err <;> simp_all
  | true =>
    have h1 : s.err = true → op = 0x1#4 := by intro hs; simp_all
    by_cases ht : needsTree op = true ∧ s.treeValid = false
    · refine .inr (.inr (.inr (.inl ⟨?_, hb, ?_, rfl, ht⟩)))
      · simp [State.accept, State.begun, State.zeroCounters, ht]
      · cases hs : s.err with
        | false => rfl
        | true => rw [h1 hs] at ht; simp [needsTree] at ht
    · refine .inr (.inr (.inr (.inr ⟨?_, hb, rfl, ?_, h1, ?_⟩)))
      · cases hn : needsTree op <;> cases hv : s.treeValid <;>
          simp_all [State.accept, State.begun, State.zeroCounters]
      · intro h; simp_all
      · intro hn; cases hv : s.treeValid <;> simp_all

/-- A command that is accepted and runs. -/
theorem request_runs {s : State} {op : Opcode} (start : Point) (hi : s.eng = .idle) (h0 : op ≠ 0x0#4)
    (he : s.err = false) (ht : needsTree op = true → s.treeValid = true) :
    s.request op true start = { s.begun op with eng := .run op start } := by
  rcases request_cases s op true start with ⟨_, h⟩ | ⟨_, _, _, h⟩ | ⟨_, _, _, h⟩ | ⟨_, _, _, _, h, h'⟩ | ⟨h, _⟩
  · simp_all
  · exact absurd h h0
  · simp at h
  · simp [ht h] at h'
  · exact h

/-- The engine actions that follow a CMD write reach an end state within the pace. -/
theorem afterEvent_ends {m : Nat} {s t : State} (h : engineRun m s = .next t) (ht : t.eng = .idle)
    (hp : m ≤ s.env.pace) : afterEvent s = .next t := engineRun_ends h ht hp

/-- Complete is the last action of a command. -/
theorem run_finish {op : Opcode} {s : State} (h : s.eng = .run op .finish) : engineRun 1 s = .next s.complete := by
  rw [engineRun_step (t := s.complete) (by simp [engineStep_run h, act])]; rfl

end Sys2Proof.Machine
end

