-- ==== Sys2Proof/Laws/Codec.lean ====
section
/-! SUPPORT. Trees in the node store, and whole runs of Parse, Walk and Emit (spec/42_tree_codec.md R201, R203, R210). -/

namespace Sys2Proof.Machine

/-- A tree stays laid out where the entries of its range read alike. -/
theorem Laid.congr {ns ns' : Memory Node} {i : Nat} {t : HTree} (h : Laid ns i t)
    (hr : ∀ a, i ≤ a → a < i + t.size → Memory.read Node.unwritten ns' a = Memory.read Node.unwritten ns a) :
    Laid ns' i t := by
  induction t generalizing i with
  | leaf sym => exact ⟨by rw [hr i (le_refl i) (by simp [HTree.size])]; exact h.1, h.2⟩
  | node l r hl hr' =>
    obtain ⟨h1, h2, h3⟩ := h
    simp only [HTree.size] at hr
    exact ⟨by rw [hr i (le_refl i) (by omega)]; exact h1, hl h2 fun a h h' => hr a (by omega) (by omega),
      hr' h3 fun a h h' => hr a (by omega) (by omega)⟩

theorem Laid.write {ns : Memory Node} (hw : Memory.wf Node.unwritten ns = true) {i a : Nat} {t : HTree} {e : Node}
    (h : Laid ns i t) (ha : a < i ∨ i + t.size ≤ a) : Laid (Memory.write Node.unwritten ns a e) i t :=
  h.congr fun b h1 h2 => Memory.read_write_other hw (by omega) e

theorem Laid.legal {ns : Memory Node} {i : Nat} {t : HTree} (h : Laid ns i t) : t.legal = true := by
  induction t generalizing i with
  | leaf sym => simpa [HTree.legal] using h.2
  | node l r hl hr => simp [HTree.legal, hl h.2.1, hr h.2.2]

theorem node?_eq {s : State} {i : NodeIdx} {n : Nat} (hi : i.toNat = n) (hn : n < 513) :
    s.node? i = some (Memory.read Node.unwritten s.ns n) := by
  simp [State.node?, State.nodeData, hi, Config.nodeCap, hn]

theorem setNode?_eq {s : State} {i : NodeIdx} {n : Nat} {e : Node} (hi : i.toNat = n) (hn : n < 513) :
    s.setNode? i e = some { s with ns := Memory.write Node.unwritten s.ns n e } := by
  simp [State.setNode?, hi, Config.nodeCap, hn]

theorem toNat_ofNat10 {n : Nat} (h : n ≤ 513) : (BitVec.ofNat 10 n).toNat = n := by
  simp only [BitVec.toNat_ofNat]; omega

/-- Every frame of the parser takes two indices below the next subtree's (spec/10_state.md R62; log 6). -/
theorem ParseStack.depth {ns : Memory Node} {fs : List Frame} {n : Nat} (h : ParseStack ns fs n) :
    2 * fs.length ≤ n := by
  induction fs generalizing n with
  | nil => exact Nat.zero_le n
  | cons f fs ih =>
    obtain ⟨h1, ⟨t, _, h3⟩, h4⟩ := h
    have := t.size_pos
    have := ih h4
    simp only [List.length_cons]
    omega

/-- Every frame of the code table builder keeps a subtree that is still to come, inside the node store. -/
theorem WalkStack.depth {ns : Memory Node} {fs : List Frame} {n : Nat} {ct goal : Memory CodeEntry}
    (h : WalkStack ns fs n ct goal) : n + fs.length ≤ 513 := by
  induction fs generalizing n ct with
  | nil => exact h.1
  | cons f fs ih =>
    obtain ⟨_, t, _, h2⟩ := h
    have := t.size_pos
    have := ih h2
    simp only [List.length_cons]
    omega

/-- Every frame of the serializer keeps a subtree that is still to come, inside the node store. -/
theorem EmitStack.depth {ns : Memory Node} {fs : List Frame} {n : Nat} (h : EmitStack ns fs n) :
    n + fs.length ≤ 513 := by
  induction fs generalizing n with
  | nil => exact h
  | cons f fs ih =>
    obtain ⟨_, t, _, h2⟩ := h
    have := t.size_pos
    have := ih h2
    simp only [List.length_cons]
    omega

/-- The engine actions Parse takes on a tree, up to its return. -/
def HTree.parseTurns : HTree → Nat
  | .leaf _ => 12
  | .node l r => l.parseTurns + r.parseTurns + 4

/-- Parse reads tag 1 and enters the left subtree (R201). -/
theorem run_tagNode {op : Opcode} {s : State} (he : s.eng = .run op parsePoint)
    (hb : s.env.bin.beat Config.endlessBit = .beat true) (ha : s.alloc.toNat ≠ 513) :
    engineRun 2 s = .next { s with
      bitsIn := s.bitsIn + 1#32, env := { s.env with bin := s.env.bin.drop }, alloc := s.alloc + 1#10,
      eng := .run op parsePoint } := by
  have h1 : engineStep s = .next (s.takeBit.goto (.recv 0 (shiftIn 0 true) .tag)) := by
    simp [engineStep_run he, parsePoint, act, actRecv, actRecvBit, State.binBeat, hb]
  rw [engineRun_step h1, engineRun_succ,
    engineStep_run (op := op) (k := .recv 0 (shiftIn 0 true) .tag) (by simp [he])]
  simp [act, actRecv, actReceived, actTag, Config.nodeCap, ha, State.takeBit, State.goto, he]

/-- Parse reads tag 0 and a leaf's symbol field (R201). -/
theorem run_leaf {op : Opcode} {s : State} {n : Nat} {sym : Symbol} {q : Source Bool} (he : s.eng = .run op parsePoint)
    (hb : OffersBits s.env.bin (false :: symbolBits sym) q) (ha : s.alloc.toNat = n) (hn : n < 513)
    (hl : sym.toNat ≤ 256) :
    engineRun 12 s = .next { s with
      bitsIn := s.bitsIn + 10#32, env := { s.env with bin := q }, alloc := s.alloc + 1#10,
      ns := Memory.write Node.unwritten s.ns n (.leaf sym), eng := .run op (.parseRet s.alloc) } := by
  obtain ⟨hb, hq⟩ := hb
  have h1 : engineStep s = .next (s.takeBit.goto (.recv 0 (shiftIn 0 false) .tag)) := by
    simp [engineStep_run he, parsePoint, act, actRecv, actRecvBit, State.binBeat, hb]
  have h2 : engineStep (s.takeBit.goto (.recv 0 (shiftIn 0 false) .tag)) = .next { s with
      bitsIn := s.bitsIn + 1#32, env := { s.env with bin := s.env.bin.drop }, alloc := s.alloc + 1#10,
      eng := .run op (.recv (symbolBits sym).length 0 (.symbol s.alloc)) } := by
    have : ¬ s.alloc.toNat = 513 := by omega
    rw [engineStep_run (op := op) (k := .recv 0 (shiftIn 0 false) .tag) (by simp [he])]
    simp [act, actRecv, actReceived, actTag, Config.nodeCap, this, State.takeBit, State.goto, he]
  have h3 := run_recv (op := op) (who := .symbol s.alloc) (symbolBits sym) q 0 { s with
      bitsIn := s.bitsIn + 1#32, env := { s.env with bin := s.env.bin.drop }, alloc := s.alloc + 1#10,
      eng := .run op (.recv (symbolBits sym).length 0 (.symbol s.alloc)) } rfl hq
  rw [show 12 = (symbolBits sym).length + 1 + 1 + 1 by simp, engineRun_step h1, engineRun_step h2,
    engineRun_trans h3, engineRun_step (t := ?_) ?_, engineRun_zero]
  rw [engineStep_run (op := op) (k := .recv 0 ((symbolBits sym).foldl shiftIn 0) (.symbol s.alloc)) rfl]
  have hle : ¬ 256 < sym.toNat := by omega
  simp only [act, actRecv, actReceived, actSymbol, fieldValue_symbolBits, hle, if_false, setNode?_eq ha hn]
  simp [State.goto, BitVec.add_assoc]

/-- Where the right subtree that is being parsed starts: at the root, if no left subtree is complete (log 6). -/
def parseBase : List Frame → Nat
  | [] => 0
  | f :: _ => f.right.toNat

/-- The left child at j is parsed: the right one is due (R201). -/
theorem step_retLeft {op : Opcode} {s : State} {j : NodeIdx} (he : s.eng = .run op (.parseRet j))
    (hj : parseBase s.stack ≠ j.toNat) :
    engineStep s = .next { s with stack := ⟨j - 1, s.alloc, []⟩ :: s.stack, eng := .run op parsePoint } := by
  cases hs : s.stack with
  | nil =>
    have : j ≠ 0#10 := by rintro rfl; simp [hs, parseBase] at hj
    simp [engineStep_run he, act, actParseRet, actParseRight, hs, this, State.goto, he]
  | cons f fs =>
    have : j ≠ f.right := by rintro rfl; simp [hs, parseBase] at hj
    simp [engineStep_run he, act, actParseRet, actParseRight, hs, this, State.goto, he]

/-- Both children are parsed: the Internal node is written and returned (R201). -/
theorem step_retRight {op : Opcode} {s : State} {j i : NodeIdx} {n : Nat} {p : Bits} {fs : List Frame}
    (he : s.eng = .run op (.parseRet j)) (hs : s.stack = ⟨i, j, p⟩ :: fs) (hi : i.toNat = n) (hn : n < 513) :
    engineStep s = .next { s with
      ns := Memory.write Node.unwritten s.ns n (.internal (i + 1#10) j), stack := fs, eng := .run op (.parseRet i) } := by
  simp [engineStep_run he, act, actParseRet, hs, State.goto, he, setNode?_eq hi hn]

/-- Parse of Ser(t), from its entry to its return (R201): t is laid out from the next free index on, and nothing else
of the store changes. -/
theorem run_parse (t : HTree) (hl : t.legal = true) (n : Nat) (hn : n + t.size ≤ 513) (q : Source Bool) (op : Opcode)
    (s : State) (he : s.eng = .run op parsePoint) (hb : OffersBits s.env.bin t.ser q)
    (ha : s.alloc = BitVec.ofNat 10 n) (hw : Memory.wf Node.unwritten s.ns = true) (hB : parseBase s.stack ≤ n) :
    ∃ ns, engineRun t.parseTurns s =
        .next { s with
          bitsIn := s.bitsIn + BitVec.ofNat 32 t.ser.length, env := { s.env with bin := q }, ns := ns,
          alloc := BitVec.ofNat 10 (n + t.size), eng := .run op (.parseRet (BitVec.ofNat 10 n)) } ∧
      Laid ns n t ∧ Memory.wf Node.unwritten ns = true ∧
      ∀ a, a < n ∨ n + t.size ≤ a → Memory.read Node.unwritten ns a = Memory.read Node.unwritten s.ns a := by
  induction t generalizing n q s with
  | leaf sym =>
    simp only [HTree.size] at hn
    simp only [HTree.legal, decide_eq_true_eq] at hl
    have hat : s.alloc.toNat = n := by rw [ha, toNat_ofNat10 (by omega)]
    refine ⟨_, ?_, ⟨Memory.read_write_same hw _ _, hl⟩, Memory.wf_write hw _ _,
      fun a h => Memory.read_write_other hw (by simp [HTree.size] at h; omega) _⟩
    rw [HTree.parseTurns, run_leaf he hb hat (by omega) hl]
    simp [ha, HTree.ser, HTree.size, BitVec.ofNat_add]
  | node l r ihl ihr =>
    simp only [HTree.size] at hn
    simp only [HTree.legal, Bool.and_eq_true] at hl
    have hat : s.alloc.toNat = n := by rw [ha, toNat_ofNat10 (by omega)]
    have hlp := l.size_pos
    have hrp := r.size_pos
    have hi1 : s.alloc + 1#10 = BitVec.ofNat 10 (n + 1) := by simp [ha, BitVec.ofNat_add]
    have hi0 : BitVec.ofNat 10 (n + 1) - 1 = s.alloc := by rw [← hi1]; exact BitVec.add_sub_cancel _ _
    obtain ⟨hbt, m, hbl, hbr⟩ : s.env.bin.beat Config.endlessBit = .beat true ∧
        ∃ m, OffersBits s.env.bin.drop l.ser m ∧ OffersBits m r.ser q := by
      simpa [HTree.ser, Source.offers_append] using hb
    have hs1 := run_tagNode he hbt (by omega)
    obtain ⟨nsl, hrl, hll, hwl, hol⟩ := ihl hl.1 (n + 1) (by omega) m (he := rfl) (hb := hbl)
      (ha := hi1) (hw := hw) (hB := Nat.le_succ_of_le hB) (s := { s with
      bitsIn := s.bitsIn + 1#32, env := { s.env with bin := s.env.bin.drop }, alloc := s.alloc + 1#10,
      eng := .run op parsePoint })
    have hs2 := step_retLeft (s := { s with
      bitsIn := s.bitsIn + 1#32 + BitVec.ofNat 32 l.ser.length, env := { s.env with bin := m },
      ns := nsl, alloc := BitVec.ofNat 10 (n + 1 + l.size),
      eng := .run op (.parseRet (BitVec.ofNat 10 (n + 1))) }) rfl
      (show parseBase s.stack ≠ _ by rw [toNat_ofNat10 (by omega)]; omega)
    rw [hi0] at hs2
    obtain ⟨nsr, hrr, hlr, hwr, hor⟩ := ihr hl.2 (n + 1 + l.size) (by omega) q (he := rfl) (hb := hbr) (ha := rfl)
      (hw := hwl) (hB := by simp only [parseBase]; rw [toNat_ofNat10 (by omega)]) (s := { s with
      bitsIn := s.bitsIn + 1#32 + BitVec.ofNat 32 l.ser.length, env := { s.env with bin := m },
      ns := nsl, alloc := BitVec.ofNat 10 (n + 1 + l.size),
      stack := ⟨s.alloc, BitVec.ofNat 10 (n + 1 + l.size), []⟩ :: s.stack, eng := .run op parsePoint })
    have hs3 := step_retRight (s := { s with
      bitsIn := s.bitsIn + 1#32 + BitVec.ofNat 32 l.ser.length + BitVec.ofNat 32 r.ser.length,
      env := { s.env with bin := q }, ns := nsr, alloc := BitVec.ofNat 10 (n + 1 + l.size + r.size),
      stack := ⟨s.alloc, BitVec.ofNat 10 (n + 1 + l.size), []⟩ :: s.stack,
      eng := .run op (.parseRet (BitVec.ofNat 10 (n + 1 + l.size))) }) rfl rfl hat (by omega)
    rw [hi1] at hs3
    refine ⟨_, ?_, ⟨Memory.read_write_same hwr _ _, ?_, hlr.write hwr (by omega)⟩, Memory.wf_write hwr _ _, ?_⟩
    · rw [show (HTree.node l r).parseTurns = 2 + (l.parseTurns + (r.parseTurns + 1 + 1)) by
        simp only [HTree.parseTurns]; omega, engineRun_trans hs1, engineRun_trans hrl, Nat.add_right_comm,
        engineRun_step hs2, engineRun_trans hrr, engineRun_step hs3, engineRun_zero]
      have hc : s.bitsIn + 1#32 + BitVec.ofNat 32 l.ser.length + BitVec.ofNat 32 r.ser.length =
          s.bitsIn + BitVec.ofNat 32 (HTree.node l r).ser.length := by
        simp only [HTree.ser, List.length_cons, List.length_append]
        rw [show l.ser.length + r.ser.length + 1 = 1 + l.ser.length + r.ser.length by omega]
        simp [BitVec.ofNat_add, BitVec.add_assoc]
      rw [hc, show n + 1 + l.size + r.size = n + (HTree.node l r).size by simp only [HTree.size]; omega, ha]
    · exact (hll.congr fun a h h' => hor a (by omega)).write hwr (by omega)
    · intro a h
      simp only [HTree.size] at h
      rw [Memory.read_write_other hwr (by omega), hor a (by omega)]
      exact hol a (by omega)

/-- The engine actions Walk takes on a tree, up to its return. -/
def HTree.walkTurns : HTree → Nat
  | .leaf _ => 1
  | .node l r => l.walkTurns + r.walkTurns + 2

/-- Walk of a laid-out tree, from its entry to its return (R203): the code table takes the tree's writes. -/
theorem run_walk (t : HTree) (i : Nat) (p : Bits) (op : Opcode) (s : State)
    (he : s.eng = .run op (.walk (BitVec.ofNat 10 i) p)) (ht : Laid s.ns i t) (hi : i + t.size ≤ 513) :
    engineRun t.walkTurns s = .next { s with ct := t.record p s.ct, eng := .run op .walkRet } := by
  induction t generalizing i p s with
  | leaf sym =>
    simp only [HTree.size] at hi
    have h2 : sym.toNat < 257 := by have := ht.2; omega
    rw [HTree.walkTurns, engineRun_step (t := _) (n := 0) ?_, engineRun_zero]
    simp [engineStep_run he, act, actWalk, node?_eq (toNat_ofNat10 (n := i) (by omega)) (by omega), ht.1,
      State.setCode?, Config.nsym, h2, State.goto, he, HTree.record]
  | node l r ihl ihr =>
    simp only [HTree.size] at hi
    obtain ⟨h1, h2, h3⟩ := ht
    have hs1 : engineStep s = .next { s with
        stack := ⟨BitVec.ofNat 10 (i + 1 + l.size), 0, p ++ [true]⟩ :: s.stack,
        eng := .run op (.walk (BitVec.ofNat 10 (i + 1)) (p ++ [false])) } := by
      simp [engineStep_run he, act, actWalk, node?_eq (toNat_ofNat10 (n := i) (by omega)) (by omega), h1, State.goto, he]
    have hs2 := ihl (i + 1) (p ++ [false]) (he := rfl) (ht := h2) (hi := by omega) (s := { s with
        stack := ⟨BitVec.ofNat 10 (i + 1 + l.size), 0, p ++ [true]⟩ :: s.stack,
        eng := .run op (.walk (BitVec.ofNat 10 (i + 1)) (p ++ [false])) })
    have hs3 : engineStep { s with
        ct := l.record (p ++ [false]) s.ct,
        stack := ⟨BitVec.ofNat 10 (i + 1 + l.size), 0, p ++ [true]⟩ :: s.stack, eng := .run op .walkRet } =
        .next { s with
          ct := l.record (p ++ [false]) s.ct,
          eng := .run op (.walk (BitVec.ofNat 10 (i + 1 + l.size)) (p ++ [true])) } := rfl
    have hs4 := ihr (i + 1 + l.size) (p ++ [true]) (he := rfl) (ht := h3) (hi := by omega) (s := { s with
        ct := l.record (p ++ [false]) s.ct,
        eng := .run op (.walk (BitVec.ofNat 10 (i + 1 + l.size)) (p ++ [true])) })
    rw [show (HTree.node l r).walkTurns = l.walkTurns + (r.walkTurns + 1) + 1 by simp only [HTree.walkTurns]; omega,
      engineRun_step hs1, engineRun_trans hs2, engineRun_step hs3, hs4]
    rfl

/-- The engine actions Emit takes on a tree, up to its return. -/
def HTree.emitTurns : HTree → Nat
  | .leaf _ => 22
  | .node l r => l.emitTurns + r.emitTurns + 5

/-- Emit of a laid-out tree with a consumer that accepts, from its entry to its return (R210): Ser(t) goes to bout. -/
theorem run_emit (t : HTree) (i : Nat) (op : Opcode) (s : State) (he : s.eng = .run op (.emit (BitVec.ofNat 10 i)))
    (ht : Laid s.ns i t) (hi : i + t.size ≤ 513) (hr : s.env.boutReady = true) (hv : s.boutValid = false) :
    engineRun t.emitTurns s = .next { s with
      boutBit := t.ser.getLastD s.boutBit, bitsOut := s.bitsOut + BitVec.ofNat 32 t.ser.length,
      env := { s.env with boutTaken := s.env.boutTaken ++ t.ser }, eng := .run op .emitRet } := by
  induction t generalizing i s with
  | leaf sym =>
    simp only [HTree.size] at hi
    have hs1 : engineStep s = .next { s with eng := .run op (.send (HTree.leaf sym).ser .emitRet) } := by
      simp [engineStep_run he, act, actEmit, node?_eq (toNat_ofNat10 (n := i) (by omega)) (by omega), ht.1, State.goto,
        he, HTree.ser]
    rw [show (HTree.leaf sym).emitTurns = 2 * (HTree.leaf sym).ser.length + 1 + 1 by simp [HTree.emitTurns, HTree.ser],
      engineRun_step hs1]
    exact run_send _ _ rfl hr hv
  | node l r ihl ihr =>
    simp only [HTree.size] at hi
    obtain ⟨h1, h2, h3⟩ := ht
    have hs1 : engineStep s = .next { s with
        stack := ⟨BitVec.ofNat 10 (i + 1 + l.size), 0, []⟩ :: s.stack,
        eng := .run op (.send [true] (.emit (BitVec.ofNat 10 (i + 1)))) } := by
      simp [engineStep_run he, act, actEmit, node?_eq (toNat_ofNat10 (n := i) (by omega)) (by omega), h1, State.goto, he]
    have hs2 := run_send [true] (h := rfl) (hr := hr) (hv := hv) (s := { s with
        stack := ⟨BitVec.ofNat 10 (i + 1 + l.size), 0, []⟩ :: s.stack,
        eng := .run op (.send [true] (.emit (BitVec.ofNat 10 (i + 1)))) })
    have hs3 := ihl (i + 1) (he := rfl) (ht := h2) (hi := by omega) (hr := hr) (hv := hv) (s := { s with
        stack := ⟨BitVec.ofNat 10 (i + 1 + l.size), 0, []⟩ :: s.stack, boutBit := true,
        bitsOut := s.bitsOut + 1#32, env := { s.env with boutTaken := s.env.boutTaken ++ [true] },
        eng := .run op (.emit (BitVec.ofNat 10 (i + 1))) })
    have hs4 : engineStep { s with
        stack := ⟨BitVec.ofNat 10 (i + 1 + l.size), 0, []⟩ :: s.stack, boutBit := l.ser.getLastD true,
        bitsOut := s.bitsOut + 1#32 + BitVec.ofNat 32 l.ser.length,
        env := { s.env with boutTaken := s.env.boutTaken ++ [true] ++ l.ser }, eng := .run op .emitRet } =
        .next { s with
          boutBit := l.ser.getLastD true, bitsOut := s.bitsOut + 1#32 + BitVec.ofNat 32 l.ser.length,
          env := { s.env with boutTaken := s.env.boutTaken ++ [true] ++ l.ser },
          eng := .run op (.emit (BitVec.ofNat 10 (i + 1 + l.size))) } := rfl
    have hs5 := ihr (i + 1 + l.size) (he := rfl) (ht := h3) (hi := by omega) (hr := hr) (hv := hv) (s := { s with
          boutBit := l.ser.getLastD true, bitsOut := s.bitsOut + 1#32 + BitVec.ofNat 32 l.ser.length,
          env := { s.env with boutTaken := s.env.boutTaken ++ [true] ++ l.ser },
          eng := .run op (.emit (BitVec.ofNat 10 (i + 1 + l.size))) })
    rw [show (HTree.node l r).emitTurns = 2 * [true].length + 1 + (l.emitTurns + (r.emitTurns + 1)) + 1 by
        simp only [HTree.emitTurns, List.length_singleton]; omega,
      engineRun_step hs1, engineRun_trans hs2]
    refine (engineRun_trans hs3 _).trans ?_
    rw [engineRun_step hs4, hs5]
    have hc : s.bitsOut + 1#32 + BitVec.ofNat 32 l.ser.length + BitVec.ofNat 32 r.ser.length =
        s.bitsOut + BitVec.ofNat 32 (HTree.node l r).ser.length := by
      simp only [HTree.ser, List.length_cons, List.length_append]
      rw [show l.ser.length + r.ser.length + 1 = 1 + l.ser.length + r.ser.length by omega]
      simp [BitVec.ofNat_add, BitVec.add_assoc]
    have hd : r.ser.getLastD (l.ser.getLastD true) = (HTree.node l r).ser.getLastD s.boutBit := by
      cases hrs : r.ser <;> simp [HTree.ser, hrs, List.getLast?_cons, List.getLast?_append]
    rw [hc, hd]
    simp [HTree.ser]

end Sys2Proof.Machine
end

