-- ==== Sys2Proof/Laws/PerInstr.lean ====
section
/-! SUPPORT. Statements about every command as syntax, one lemma per constructor of Instr. -/

namespace Sys2Proof.Laws.CommandFields

open Sys2Proof

/-- A command's word carries its OP in bits [3:0] and its RSVD in bits [31:4] (spec/30_encoding.md R111). -/
def Statement (i : Instr) : Prop := opField (encode i) = i.opcode ∧ rsvdField (encode i) = i.reserved

theorem nop : Statement .nop := ⟨by decide, by decide⟩

theorem clear : Statement .clear := ⟨by decide, by decide⟩

theorem treeLoad : Statement .treeLoad := ⟨by decide, by decide⟩

theorem treeEmit : Statement .treeEmit := ⟨by decide, by decide⟩

theorem encode : Statement .encode := ⟨by decide, by decide⟩

theorem decode : Statement .decode := ⟨by decide, by decide⟩

theorem hdrWrite : Statement .hdrWrite := ⟨by decide, by decide⟩

theorem hdrCheck : Statement .hdrCheck := ⟨by decide, by decide⟩

theorem illegal (op : Opcode) (rsvd : BitVec 28) : Statement (.illegal op rsvd) := by
  constructor
  · simp only [opField, Sys2Proof.encode, Instr.reserved, Instr.opcode]
    ext i hi
    rw [BitVec.getElem_extractLsb', BitVec.getLsbD_append, if_pos (by omega), Nat.zero_add, BitVec.getLsbD_eq_getElem hi]
  · simp only [rsvdField, Sys2Proof.encode, Instr.reserved, Instr.opcode]
    ext i hi
    rw [BitVec.getElem_extractLsb', BitVec.getLsbD_append, if_neg (by omega), Nat.add_sub_cancel_left,
      BitVec.getLsbD_eq_getElem hi]

end Sys2Proof.Laws.CommandFields
end

