-- ==== Sys2Proof/Laws/Step.lean ====
section
/-! SUPPORT. Everything a register write, a command and a step can do, once. -/

namespace Sys2Proof.Machine

/-- Memory at reset is in canonical form. -/
theorem resetIn_wf (m : Word) (e : Env) :
    Memory.wf Node.unwritten (State.resetIn m e).ns = true ∧ Memory.wf CodeEntry.unwritten (State.resetIn m e).ct = true :=
  ⟨rfl, rfl⟩

/-- A register write other than to CMD sets DONE and DROP to less, sets the enables, resets the block, sets MAGIC while
idle, sets a select register, or changes nothing (spec/10_state.md R31). -/
theorem regWrite_cases (s : State) (off : Offset) (w : Word) :
    s.regWrite off w = { s with done := s.done && !w.getLsbD 1, drop := s.drop && !w.getLsbD 4 } ∨
      s.regWrite off w = { s with ieDone := w.getLsbD 1, ieErr := w.getLsbD 2 } ∨
      s.regWrite off w = s.blockReset ∨
      (s.regWrite off w = { s with magic := w } ∧ s.eng = .idle) ∨
      s.regWrite off w = { s with nodeSel := w.setWidth 10 } ∨
      s.regWrite off w = { s with ctSelSym := w.setWidth 9, ctSelWord := w.extractLsb' 16 3 } ∨
      s.regWrite off w = s := by
  unfold State.regWrite
  split
  · unfold State.writeCtrl
    split
    · exact .inr (.inr (.inl rfl))
    · exact .inr (.inl rfl)
  · exact .inl rfl
  · unfold State.writeMagic
    split
    · exact .inr (.inr (.inr (.inr (.inr (.inr rfl)))))
    · rename_i h
      refine .inr (.inr (.inr (.inl ⟨rfl, ?_⟩)))
      by_contra hc
      exact h (busy_iff.mpr hc)
  · exact .inr (.inr (.inr (.inr (.inl rfl))))
  · exact .inr (.inr (.inr (.inr (.inr (.inl rfl)))))
  · exact .inr (.inr (.inr (.inr (.inr (.inr rfl)))))

/-- A command is an event of its CMD write, with its opcode, whether it is legal, and where its pseudocode starts. -/
theorem exec_cases (i : Instr) (s : State) :
    ∃ op legal k, exec i s = afterEvent (s.request op legal k) ∧
      ((i = .nop ∧ op = 0x0#4 ∧ legal = true ∧ k = .finish) ∨ (i = .clear ∧ op = 0x1#4 ∧ legal = true ∧ k = .clear) ∨
        (i = .treeLoad ∧ op = 0x2#4 ∧ legal = true ∧ k = .load) ∨
        (i = .treeEmit ∧ op = 0x3#4 ∧ legal = true ∧ k = .emitRoot) ∨
        (i = .encode ∧ op = 0x4#4 ∧ legal = true ∧ k = .encode) ∨
        (i = .decode ∧ op = 0x5#4 ∧ legal = true ∧ k = .decode) ∨
        (i = .hdrWrite ∧ op = 0x6#4 ∧ legal = true ∧ k = .hdrWrite) ∨
        (i = .hdrCheck ∧ op = 0x7#4 ∧ legal = true ∧ k = .hdrCheck) ∨
        (∃ rsvd, i = .illegal op rsvd ∧ legal = false ∧ k = .finish)) := by
  cases i <;> exact ⟨_, _, _, rfl, by simp⟩

/-- A producer's move changes what that producer offers, or is refused (spec/20_memory.md R99). -/
theorem produceBin_cases (data : Bool) (p : Source Bool) (s : State) :
    produceBin data p s = afterEvent { s with env := { s.env with bin := p } } ∨
      produceBin data p s = .refused .dataAfterEnd := by
  unfold produceBin
  split
  · exact .inr rfl
  · exact .inl rfl

theorem produceSin_cases (data : Bool) (p : Source Byte) (s : State) :
    produceSin data p s = afterEvent { s with env := { s.env with sin := p } } ∨
      produceSin data p s = .refused .dataAfterEnd := by
  unfold produceSin
  split
  · exact .inr rfl
  · exact .inl rfl

/-- The bits left on bin are removed, or stay because a command runs (spec/70_reset_and_hazards.md R354, R342). -/
theorem removeBin_cases (s : State) :
    removeBin s = afterEvent { s with env := { s.env with bin := ⟨[], .more⟩ } } ∨
      removeBin s = .refused .dataWithdrawn := by
  unfold removeBin
  split
  · exact .inr rfl
  · exact .inl rfl

/-- The bytes left on sin are removed, or stay because a command runs (R342). -/
theorem removeSin_cases (s : State) :
    removeSin s = afterEvent { s with env := { s.env with sin := ⟨[], .more⟩ } } ∨
      removeSin s = .refused .dataWithdrawn := by
  unfold removeSin
  split
  · exact .inr rfl
  · exact .inl rfl

/-- A host statement other than a write to CMD is an event the block takes part in, a change of the host's and the
environment's own fields, a failed EXPECT, or refused. -/
theorem hostStmt_cases (st : HostStmt) (s : State) :
    (∃ off w, hostStmt st s = afterEvent (s.regWrite off w)) ∨ hostStmt st s = afterEvent s.blockReset ∨
      (∃ e : Env, hostStmt st s = afterEvent { s with env := e }) ∨
      (∃ e : Env, hostStmt st s = .next { s with env := e }) ∨ hostStmt st s = .fault .expectFailed ∨
      ∃ r, hostStmt st s = .refused r := by
  cases st with
  | wr width off w =>
    simp only [hostStmt, hostWrite]
    split
    · exact .inl ⟨off, w, rfl⟩
    · exact .inr (.inr (.inr (.inr (.inr ⟨_, rfl⟩))))
  | rd width off =>
    simp only [hostStmt, hostRead]
    split
    · exact .inr (.inr (.inl ⟨_, rfl⟩))
    · exact .inr (.inr (.inr (.inr (.inr ⟨_, rfl⟩))))
  | bin bits fin =>
    rcases produceBin_cases (!bits.isEmpty) (s.env.bin.extend bits fin) s with h | h
    · exact .inr (.inr (.inl ⟨_, h⟩))
    · exact .inr (.inr (.inr (.inr (.inr ⟨_, h⟩))))
  | sin bytes fin =>
    rcases produceSin_cases (!bytes.isEmpty) (s.env.sin.extend bytes fin) s with h | h
    · exact .inr (.inr (.inl ⟨_, h⟩))
    · exact .inr (.inr (.inr (.inr (.inr ⟨_, h⟩))))
  | binEndless stream =>
    rcases produceBin_cases true (s.env.bin.extendEndless stream) s with h | h
    · exact .inr (.inr (.inl ⟨_, h⟩))
    · exact .inr (.inr (.inr (.inr (.inr ⟨_, h⟩))))
  | sinEndless stream =>
    rcases produceSin_cases true (s.env.sin.extendEndless stream) s with h | h
    · exact .inr (.inr (.inl ⟨_, h⟩))
    · exact .inr (.inr (.inr (.inr (.inr ⟨_, h⟩))))
  | binRemove =>
    rcases removeBin_cases s with h | h
    · exact .inr (.inr (.inl ⟨_, h⟩))
    · exact .inr (.inr (.inr (.inr (.inr ⟨_, h⟩))))
  | sinRemove =>
    rcases removeSin_cases s with h | h
    · exact .inr (.inr (.inl ⟨_, h⟩))
    · exact .inr (.inr (.inr (.inr (.inr ⟨_, h⟩))))
  | expect off v =>
    simp only [hostStmt, hostExpect]
    split
    · exact .inr (.inr (.inr (.inl ⟨s.env, rfl⟩)))
    · exact .inr (.inr (.inr (.inr (.inl rfl))))
  | bnz off hi lo target =>
    simp only [hostStmt, hostBranch]
    split
    · exact .inr (.inr (.inr (.inr (.inr ⟨_, rfl⟩))))
    · split
      · exact .inr (.inr (.inr (.inl ⟨s.env, rfl⟩)))
      · exact .inr (.inr (.inr (.inl ⟨_, rfl⟩)))
  | boutReady level => exact .inr (.inr (.inl ⟨_, rfl⟩))
  | soutReady level => exact .inr (.inr (.inl ⟨_, rfl⟩))
  | resetPin => exact .inr (.inl rfl)
  | pace n => exact .inr (.inr (.inr (.inl ⟨_, rfl⟩)))

/-- A step is an engine action, a command, or another host statement. -/
theorem step_cases (s : State) :
    (s.env.hostProg[s.env.hostPc]? = none ∧ step s = engineStep s) ∨
      (∃ w, s.env.hostProg[s.env.hostPc]? = some (.wr .word 0x0C#8 w) ∧ step s = exec (decodeWord w) s.advanceHost) ∨
      ∃ st, s.env.hostProg[s.env.hostPc]? = some st ∧ step s = hostStmt st s.advanceHost := by
  cases h : s.env.hostProg[s.env.hostPc]? with
  | none => exact .inl ⟨rfl, by simp [step, fetch, h]⟩
  | some st =>
    by_cases hc : ∃ w, st = .wr .word 0x0C#8 w
    · obtain ⟨w, rfl⟩ := hc
      exact .inr (.inl ⟨w, rfl, by simp [step, fetch, h, classify, offCmd]⟩)
    · refine .inr (.inr ⟨st, rfl, ?_⟩)
      have : classify st = .other st := by
        cases st with
        | wr width off w =>
          cases width with
          | word =>
            by_cases ho : off = 0x0C#8
            · exact absurd ⟨w, by rw [ho]⟩ hc
            · simp [classify, offCmd, ho]
          | _ => rfl
        | _ => rfl
      simp [step, fetch, h, this]

end Sys2Proof.Machine
end

