-- ==== Sys2Proof/Laws/Streams.lean ====
section
/-! SUPPORT. Whole runs of the loops of ENCODE (spec/43_stream_encoder.md R240) and DECODE (spec/44_stream_decoder.md
R260). -/

namespace Sys2Proof.Machine

/-! ## ENCODE -/

/-- ENCODE's loop over bytes that all have a code, with a consumer that accepts: their codes go to bout. -/
theorem run_encode (bytes : List Byte) (q : Source Byte) (p : Bits) (op : Opcode) (s : State)
    (he : s.eng = .run op .encode) (hb : OffersBytes s.env.sin bytes q) (hp : codesOf s.ct bytes = some p) (hr : s.env.boutReady = true)
    (hv : s.boutValid = false) :
    engineRun (3 * bytes.length + 2 * p.length) s = .next { s with
      symsIn := s.symsIn + BitVec.ofNat 32 bytes.length, bitsOut := s.bitsOut + BitVec.ofNat 32 p.length,
      boutBit := p.getLastD s.boutBit,
      env := { s.env with sin := q, boutTaken := s.env.boutTaken ++ p } } := by
  induction bytes generalizing p s with
  | nil =>
    obtain rfl : p = [] := by simpa [codesOf] using hp.symm
    obtain rfl : s.env.sin = q := hb
    simp
  | cons b bytes ih =>
    obtain ⟨c, d, hc, hd, rfl⟩ : ∃ c d, codeIn s.ct (symOfByte b) = some c ∧ codesOf s.ct bytes = some d ∧ p = c ++ d := by
      simp only [codesOf] at hp
      split at hp
      · exact ⟨_, _, ‹_›, ‹_›, by simpa using hp.symm⟩
      · simp at hp
    obtain ⟨hb, hbs⟩ := hb
    have h1 : engineStep s = .next { s with
        symsIn := s.symsIn + 1#32, env := { s.env with sin := s.env.sin.drop }, eng := .run op (.gotSym (some b)) } := by
      simp [engineStep_run he, act, actReadSym, State.sinBeat, hb, State.takeSym, State.goto, he]
    have h2 : engineStep { s with
        symsIn := s.symsIn + 1#32, env := { s.env with sin := s.env.sin.drop }, eng := .run op (.gotSym (some b)) } =
        .next { s with
          symsIn := s.symsIn + 1#32, env := { s.env with sin := s.env.sin.drop }, eng := .run op (.send c .encode) } := by
      obtain ⟨hv', hc'⟩ : (s.code (symOfByte b)).valid = true ∧ (s.code (symOfByte b)).path = c := by
        simpa [codeIn, State.code] using hc
      rw [engineStep_run (k := .gotSym (some b)) (op := op) rfl]
      simp only [act, actGotSym, actEmitCode]
      erw [if_pos hv']
      erw [hc']
      rfl
    have h3 := run_send c (h := rfl) (hr := hr) (hv := hv) (s := { s with
        symsIn := s.symsIn + 1#32, env := { s.env with sin := s.env.sin.drop }, eng := .run op (.send c .encode) })
    have h4 := ih d (he := rfl) (hb := hbs) (hp := hd) (hr := hr) (hv := hv) (s := { s with
        symsIn := s.symsIn + 1#32, boutBit := c.getLastD s.boutBit, bitsOut := s.bitsOut + BitVec.ofNat 32 c.length,
        env := { s.env with sin := s.env.sin.drop, boutTaken := s.env.boutTaken ++ c }, eng := .run op .encode })
    rw [show 3 * (b :: bytes).length + 2 * (c ++ d).length =
        2 * c.length + 1 + (3 * bytes.length + 2 * d.length) + 1 + 1 by simp; omega,
      engineRun_step h1, engineRun_step h2]
    refine (engineRun_trans h3 _).trans (h4.trans ?_)
    have hl : d.getLastD (c.getLastD s.boutBit) = (c ++ d).getLastD s.boutBit := by
      cases d <;> simp [List.getLast?_cons, List.getLast?_append]
    rw [hl]
    simp [he, BitVec.ofNat_add, BitVec.add_assoc]
    exact BitVec.add_comm _ _

/-! ## DECODE -/

/-- Where the walk of DECODE goes on at subtree u (R260). -/
def HTree.arrival : HTree → Point
  | .leaf sym => if sym = 256#9 then .finish else .put (byteOfSym sym)
  | .node _ _ => walkPoint

/-- The walk moves to a laid-out subtree. -/
theorem arrive_eq {s : State} {op : Opcode} {k : Point} {i : Nat} {u : HTree} (he : s.eng = .run op k)
    (hp : s.pos = BitVec.ofNat 10 i) (hu : Laid s.ns i u) (hi : i + u.size ≤ 513) :
    actArrive s = .next { s with eng := .run op u.arrival } := by
  have := u.size_pos
  have hn := node?_eq (s := s) (i := s.pos) (n := i) (by rw [hp, toNat_ofNat10 (by omega)]) (by omega)
  cases u with
  | leaf sym =>
    simp only [actArrive, hn, hu.1, Config.sentinel, HTree.arrival]
    by_cases h : sym = 256#9 <;> simp [h, State.goto, he]
  | node l r => simp [actArrive, hn, hu.1, State.goto, he, HTree.arrival]

/-- The walk from an Internal node along bits that lead to subtree u (R260): two actions a bit. -/
theorem run_follow (bits : Bits) (q : Source Bool) (l r u : HTree) (i : Nat) (op : Opcode) (s : State)
    (he : s.eng = .run op walkPoint) (hp : s.pos = BitVec.ofNat 10 i) (ht : Laid s.ns i (.node l r))
    (hi : i + (HTree.node l r).size ≤ 513) (hb : OffersBits s.env.bin bits q)
    (hu : (HTree.node l r).follow bits = some u) :
    ∃ j, engineRun (2 * bits.length) s = .next { s with
        bitsIn := s.bitsIn + BitVec.ofNat 32 bits.length, pos := BitVec.ofNat 10 j,
        env := { s.env with bin := q }, eng := .run op u.arrival } ∧
      Laid s.ns j u ∧ j + u.size ≤ 513 := by
  induction bits generalizing l r i s with
  | nil =>
    obtain rfl : HTree.node l r = u := by simpa [HTree.follow] using hu
    refine ⟨i, ?_, ht, hi⟩
    obtain rfl : s.env.bin = q := hb
    simp [← hp, HTree.arrival, ← he]
  | cons b bits ih =>
    obtain ⟨hb, hbs⟩ := hb
    simp only [HTree.size] at hi
    obtain ⟨h1, h2, h3⟩ := ht
    have hn : s.node? s.pos = some (.internal (BitVec.ofNat 10 (i + 1)) (BitVec.ofNat 10 (i + 1 + l.size))) := by
      rw [node?_eq (n := i) (by rw [hp, toNat_ofNat10 (by omega)]) (by omega), h1]
    obtain ⟨v, j, hv, hlv, hj, hcj⟩ : ∃ v j, v.follow bits = some u ∧ Laid s.ns j v ∧ j + v.size ≤ 513 ∧
        (if b then BitVec.ofNat 10 (i + 1 + l.size) else BitVec.ofNat 10 (i + 1)) = BitVec.ofNat 10 j := by
      cases b with
      | false => exact ⟨l, i + 1, by simpa [HTree.follow] using hu, h2, by omega, rfl⟩
      | true => exact ⟨r, i + 1 + l.size, by simpa [HTree.follow] using hu, h3, by omega, rfl⟩
    have hs1 : engineStep s = .next { s with
        bitsIn := s.bitsIn + 1#32, env := { s.env with bin := s.env.bin.drop },
        eng := .run op (.recv 0 (shiftIn 0 b) .code) } := by
      simp [engineStep_run he, walkPoint, act, actRecv, actRecvBit, State.binBeat, hb, State.takeBit, State.goto, he]
    have hs2 : engineStep { s with
        bitsIn := s.bitsIn + 1#32, env := { s.env with bin := s.env.bin.drop },
        eng := .run op (.recv 0 (shiftIn 0 b) .code) } = .next { s with
          bitsIn := s.bitsIn + 1#32, env := { s.env with bin := s.env.bin.drop }, pos := BitVec.ofNat 10 j,
          eng := .run op v.arrival } := by
      have hb0 : (shiftIn 0 b).getLsbD 0 = b := by simp
      rw [engineStep_run (k := .recv 0 (shiftIn 0 b) .code) (op := op) rfl]
      simp only [act, actRecv, actReceived, actCodeBit, hb0]
      erw [hn]
      simp only [hcj]
      exact arrive_eq (i := j) (u := v) rfl rfl hlv hj
    have ht2 : 2 * (b :: bits).length = 2 * bits.length + 1 + 1 := by simp; omega
    rw [ht2, engineRun_step hs1, engineRun_step hs2]
    cases v with
    | leaf sym =>
      obtain ⟨rfl, rfl⟩ : bits = [] ∧ HTree.leaf sym = u := by
        cases bits with
        | nil => exact ⟨rfl, by simpa [HTree.follow] using hv⟩
        | cons c bits => simp [HTree.follow] at hv
      obtain rfl : s.env.bin.drop = q := hbs
      exact ⟨j, by simp, hlv, hj⟩
    | node l' r' =>
      obtain ⟨j', h4, h5, h6⟩ := ih l' r' j (he := rfl) (hp := rfl) (ht := hlv) (hi := hj) (hb := hbs) (hu := hv)
        (s := { s with
          bitsIn := s.bitsIn + 1#32, env := { s.env with bin := s.env.bin.drop }, pos := BitVec.ofNat 10 j,
          eng := .run op (HTree.node l' r').arrival })
      refine ⟨j', h4.trans ?_, h5, h6⟩
      simp [count_succ]

/-- DECODE's loop enters the walk at the root of a tree of two leaves or more (R260). -/
theorem step_decode {s : State} {op : Opcode} {l r : HTree} (he : s.eng = .run op .decode)
    (ht : Laid s.ns 0 (.node l r)) : engineStep s = .next { s with pos := 0#10, eng := .run op walkPoint } := by
  have hn : State.node? { s with pos := 0#10 } 0#10 = some (.internal (BitVec.ofNat 10 (0 + 1)) (BitVec.ofNat 10 (0 + 1 + l.size))) := by
    rw [node?_eq (n := 0) (by rfl) (by omega)]
    exact congrArg some ht.1
  rw [engineStep_run he]
  simp only [act, actDecode]
  erw [hn]
  simp [State.goto, he]

/-- DECODE's loop over the codes of bytes (R260): the bytes go to sout. -/
theorem run_decode (items : List (Byte × Bits)) (q : Source Bool) (l r : HTree) (op : Opcode) (s : State)
    (he : s.eng = .run op .decode) (ht : Laid s.ns 0 (.node l r)) (hi : (HTree.node l r).size ≤ 513)
    (hf : ∀ x ∈ items, (HTree.node l r).follow x.2 = some (.leaf (symOfByte x.1)))
    (hb : OffersBits s.env.bin (items.flatMap Prod.snd) q) (hr : s.env.soutReady = true) (hv : s.soutValid = false) :
    ∃ pos, engineRun (3 * items.length + 2 * (items.flatMap Prod.snd).length) s = .next { s with
      bitsIn := s.bitsIn + BitVec.ofNat 32 (items.flatMap Prod.snd).length,
      symsOut := s.symsOut + BitVec.ofNat 32 items.length, pos := pos,
      soutData := (items.map Prod.fst).getLastD s.soutData,
      env := { s.env with bin := q, soutTaken := s.env.soutTaken ++ items.map Prod.fst } } := by
  induction items generalizing s with
  | nil =>
    refine ⟨s.pos, ?_⟩
    obtain rfl : s.env.bin = q := hb
    simp
  | cons x items ih =>
    obtain ⟨b, c⟩ := x
    have hs1 := step_decode he ht
    obtain ⟨m, hbc, hbs⟩ : ∃ m, OffersBits s.env.bin c m ∧ OffersBits m (items.flatMap Prod.snd) q := by
      simpa [Source.offers_append] using hb
    obtain ⟨j, h2, -, -⟩ := run_follow c m l r (.leaf (symOfByte b)) 0 op
      (s := { s with pos := 0#10, eng := .run op walkPoint }) rfl rfl ht (by omega) hbc
      (hf (b, c) (by simp))
    have ha : (HTree.leaf (symOfByte b)).arrival = .put b := by
      have h1 : symOfByte b ≠ 256#9 := by
        intro h
        have := congrArg BitVec.toNat h
        simp only [symOfByte, BitVec.toNat_setWidth, BitVec.toNat_ofNat] at this
        omega
      have h2 : byteOfSym (symOfByte b) = b := by
        apply BitVec.eq_of_toNat_eq
        simp only [byteOfSym, symOfByte, BitVec.toNat_setWidth]
        omega
      simp [HTree.arrival, h1, h2]
    rw [ha] at h2
    have h3 : engineStep { s with
        bitsIn := s.bitsIn + BitVec.ofNat 32 c.length, pos := BitVec.ofNat 10 j,
        env := { s.env with bin := m }, eng := .run op (.put b) } = .next { s with
          bitsIn := s.bitsIn + BitVec.ofNat 32 c.length, pos := BitVec.ofNat 10 j, soutData := b, soutValid := true,
          env := { s.env with bin := m }, eng := .run op .drainSym } := rfl
    have h4 : engineStep { s with
          bitsIn := s.bitsIn + BitVec.ofNat 32 c.length, pos := BitVec.ofNat 10 j, soutData := b, soutValid := true,
          env := { s.env with bin := m }, eng := .run op .drainSym } = .next { s with
          bitsIn := s.bitsIn + BitVec.ofNat 32 c.length, pos := BitVec.ofNat 10 j, soutData := b,
          symsOut := s.symsOut + 1#32,
          env := { s.env with bin := m, soutTaken := s.env.soutTaken ++ [b] },
          eng := .run op .decode } := by
      rw [engineStep_run (k := .drainSym) (op := op) rfl]
      simp [act, actDrainSym, hr, State.sendSym, State.goto, hv]
    obtain ⟨pos, h5⟩ := ih (he := rfl) (ht := ht) (hf := fun y hy => hf y (by simp [hy])) (hb := hbs) (hr := hr)
      (hv := hv) (s := { s with
        bitsIn := s.bitsIn + BitVec.ofNat 32 c.length, pos := BitVec.ofNat 10 j, soutData := b,
        symsOut := s.symsOut + 1#32,
        env := { s.env with bin := m, soutTaken := s.env.soutTaken ++ [b] },
        eng := .run op .decode })
    refine ⟨pos, ?_⟩
    rw [show 3 * ((b, c) :: items).length + 2 * (((b, c) :: items).flatMap Prod.snd).length =
        2 * c.length + (3 * items.length + 2 * (items.flatMap Prod.snd).length + 1 + 1) + 1 by simp; omega,
      engineRun_step hs1]
    refine (engineRun_trans h2 _).trans ?_
    rw [engineRun_step h3, engineRun_step h4]
    refine h5.trans ?_
    have hd : (items.map Prod.fst).getLastD b = (((b, c) :: items).map Prod.fst).getLastD s.soutData := by
      cases items <;> simp [List.getLast?_cons]
    rw [hd]
    simp [he, BitVec.ofNat_add, BitVec.add_assoc]
    exact BitVec.add_comm _ _

end Sys2Proof.Machine
end

