-- ==== Sys2Proof/Machine/HostProg.lean ====
section
/-! DEFINITION. Host programs: the pseudo-instructions of spec/30_encoding.md R127 and their expansions. The argument
`at_` is the index in the host program at which the expansion stands, for its branches. -/

namespace Sys2Proof.Machine

/-- `WR <REG>, <value>` (R126). -/
def wrReg (off : Offset) (v : Word) : HostStmt := .wr .word off v

/-- `RD <REG>` (R126). -/
def rdReg (off : Offset) : HostStmt := .rd .word off

/-- `CMD <mnemonic>` is `WR CMD, <OP of mnemonic>` (R127). -/
def cmd (i : Instr) : HostStmt := wrReg offCmd (encode i)

/-- `WAIT_IDLE`: read STATUS until BUSY = 0 (R127). -/
def waitIdle (at_ : Nat) : List HostStmt := [rdReg offStatus, .bnz offStatus 0 0 at_]

/-- `CHECK_OK`: read STATUS, branch to `fail` if ERR (R127). -/
def checkOk (fail : Nat) : List HostStmt := [rdReg offStatus, .bnz offStatus 2 2 fail]

/-- A command and the wait for its end. -/
def cmdWait (at_ : Nat) (i : Instr) : List HostStmt := cmd i :: waitIdle (at_ + 1)

/-- `COMPRESS T, D` (R127), from index at_. -/
def compress (at_ fail : Nat) (tree : Bits) (bytes : List Byte) : List HostStmt :=
  cmdWait at_ .clear ++ [.bin tree true] ++ cmdWait (at_ + 4) .treeLoad ++ checkOk fail ++
    cmdWait (at_ + 9) .hdrWrite ++ cmdWait (at_ + 12) .treeEmit ++ [.sin bytes true] ++
    cmdWait (at_ + 16) .encode ++ checkOk fail

/-- `DECOMPRESS F` (R127), from index at_. -/
def decompress (at_ fail : Nat) (file : Bits) : List HostStmt :=
  [.bin file true] ++ cmdWait (at_ + 1) .clear ++ cmdWait (at_ + 4) .hdrCheck ++ checkOk fail ++
    cmdWait (at_ + 9) .treeLoad ++ checkOk fail ++ cmdWait (at_ + 14) .decode ++ checkOk fail

end Sys2Proof.Machine
end

