-- ==== Sys2Proof/Tests/Slice0.lean ====
section
/-! SUPPORT. Tests of the model: well-formedness, decoding, one step of each command against the vectors of
spec/95_test_vectors.md and of the section files, and a witness for every obligation that has hypotheses. -/

namespace Sys2Proof.Tests

open Sys2Proof Sys2Proof.Machine

/-! ## Small states -/

/-- The state an outcome leads to, if there is one. -/
def nextOf (r : Res) : Option State :=
  match r with
  | .next t => some t
  | .fault _ => none
  | .refused _ => none

/-- Bits written as digits. -/
def bits (ds : List Nat) : Bits := ds.map (· == 1)

/-- A block after reset, MAGIC_RESET = 0x736, whose host's next statement is the write of w to CMD, n engine actions to
each host event. -/
def cmdState (w n : Nat) : State := (State.resetIn 0x00000736#32 { Env.start with pace := n }).withFetchWord 32 w

/-- The same with bits on bin, then END. -/
def binState (w n : Nat) (b : Bits) : State :=
  let s := cmdState w n
  { s with env := { s.env with bin := ⟨b, .fin⟩ } }

/-- Tree t loaded, as TREE_LOAD leaves it. -/
def withTree (s : State) (ns : Memory Node) (count : NodeIdx) (t : HTree) : State :=
  { s with treeValid := true, nodeCount := count, ns := ns, ct := t.codeTable }

/-- V-T2: Internal(Leaf(256), Leaf(65)). -/
def treeT2 : HTree := .node (.leaf 256#9) (.leaf 65#9)

/-- V-T4: Internal(Leaf(256), Internal(Leaf(65), Leaf(66))). -/
def treeT4 : HTree := .node (.leaf 256#9) (.node (.leaf 65#9) (.leaf 66#9))

/-- V-T7: Internal(Leaf(65), Leaf(66)), without a sentinel. -/
def treeT7 : HTree := .node (.leaf 65#9) (.leaf 66#9)

def withT2 (s : State) : State := withTree s [(0, .internal 1#10 2#10), (1, .leaf 256#9), (2, .leaf 65#9)] 3#10 treeT2

def withT4 (s : State) : State :=
  withTree s [(0, .internal 1#10 2#10), (1, .leaf 256#9), (2, .internal 3#10 4#10), (3, .leaf 65#9), (4, .leaf 66#9)] 5#10
    treeT4

def withT7 (s : State) : State := withTree s [(0, .internal 1#10 2#10), (1, .leaf 65#9), (2, .leaf 66#9)] 3#10 treeT7

/-- A one-leaf tree: V-T1 for 256, V-T9 for 65. -/
def withLeaf (s : State) (sym : Symbol) : State := withTree s [(0, .leaf sym)] 1#10 (.leaf sym)

/-- Bytes on sin, then END. -/
def withSin (s : State) (bytes : List Byte) : State := { s with env := { s.env with sin := ⟨bytes, .fin⟩ } }

/-- Bits on bin, then END. -/
def withBin (s : State) (b : Bits) : State := { s with env := { s.env with bin := ⟨b, .fin⟩ } }

/-- Bits on bin, then the endless bit stream 0. -/
def withEndless (s : State) (b : Bits) : State := { s with env := { s.env with bin := ⟨b, .endless 0 0⟩ } }

/-! ## Well-formedness and decoding -/

/-- OP 3 with RSVD = 0 is TREE_EMIT, no illegal command (30 R112, R113). -/
theorem test_wf_refuses_legal_op : (Instr.illegal 0x3#4 0#28).wf = false := by decide

/-- OP 7 with RSVD = 0 is HDR_CHECK (30 R112). -/
theorem test_wf_refuses_op7 : (Instr.illegal 0x7#4 0#28).wf = false := by decide

/-- OP 8 is illegal with RSVD = 0, and OP 3 with RSVD = 1 is (30 R113, R114). -/
theorem test_wf_admits_illegal : (Instr.illegal 0x8#4 0#28).wf = true ∧ (Instr.illegal 0x3#4 1#28).wf = true := by decide

/-- 30 R111, R112: RSVD 28 zeros, OP 0010. -/
theorem test_decode_tree_load : decodeWord 0b00000000000000000000000000000010#32 = .treeLoad := by decide

/-- OP 0000. -/
theorem test_decode_nop : decodeWord 0b00000000000000000000000000000000#32 = .nop := by decide

/-- OP 0001. -/
theorem test_decode_clear : decodeWord 0b00000000000000000000000000000001#32 = .clear := by decide

/-- OP 0011. -/
theorem test_decode_tree_emit : decodeWord 0b00000000000000000000000000000011#32 = .treeEmit := by decide

/-- OP 0100. -/
theorem test_decode_encode : decodeWord 0b00000000000000000000000000000100#32 = .encode := by decide

/-- OP 0101. -/
theorem test_decode_decode : decodeWord 0b00000000000000000000000000000101#32 = .decode := by decide

/-- OP 0110. -/
theorem test_decode_hdr_write : decodeWord 0b00000000000000000000000000000110#32 = .hdrWrite := by decide

/-- OP 0111. -/
theorem test_decode_hdr_check : decodeWord 0b00000000000000000000000000000111#32 = .hdrCheck := by decide

/-- OP 1000, and OP 0010 with RSVD = 1 (95 C7). -/
theorem test_decode_illegal :
    decodeWord 0b00000000000000000000000000001000#32 = .illegal 0b1000#4 0#28 ∧
      decodeWord 0b00000000000000000000000000010010#32 = .illegal 0b0010#4 1#28 := by decide

/-- The word is read from its byte lanes, lane 0 first, and from the opcode table's bits. -/
theorem test_decode_table_word : decodeTableWord 32 0x00000005 = some .decode ∧ decodeTableWord 32 0x10 = some (.illegal 0#4 1#28) := by
  decide

/-- Three bytes are no command word (20 R86). -/
theorem test_decode_bytes_refused : decodeBytes [2#8, 0#8, 0#8] = .error (.notOneWord 3) := rfl

/-! ## One step of each command -/

/-- 95 C1. -/
theorem test_nop : (nextOf (step (cmdState 0x0 5))).map State.statusWord = some 0x00000000#32 := by decide

/-- 95 C17, 40 R150: a NOP while busy is dropped. -/
theorem test_nop_busy :
    (nextOf (step { cmdState 0x0 0 with eng := .run 0x7#4 (.recv 32 0#32 .magic), op := 0x7#4 })).map State.statusWord =
      some 0x00000711#32 := by decide

/-- 95 C2. -/
theorem test_clear : (nextOf (step (cmdState 0x1 2))).map State.statusWord = some 0x00000102#32 := by decide

/-- 95 C15: the tree is discarded, NODE_COUNT and NODE_DATA[0] read 0. -/
theorem test_clear_tree :
    (nextOf (step (withT2 (cmdState 0x1 2)))).map (fun t => (t.statusWord, t.regRead 0x1C#8, t.regRead 0x34#8)) =
      some (0x00000102#32, 0#32, 0#32) := by decide

/-- 42 R201 by hand, on `1 1 0(65) 0(66) 0(256)`: a left child that is an Internal node, indices in pre-order. -/
theorem test_tree_load :
    (nextOf (step (binState 0x2 57 (bits [1, 1, 0, 0, 0, 1, 0, 0, 0, 0, 0, 1, 0, 0, 0, 1, 0, 0, 0, 0, 1, 0, 0, 1, 0, 0, 0, 0,
        0, 0, 0, 0])))).map (fun t => (t.statusWord, t.bitsIn, t.nodeCount, t.ns)) =
      some (0x0000020A#32, 32#32, 5#10,
        [(0, .internal 1#10 4#10), (1, .internal 2#10 3#10), (2, .leaf 65#9), (3, .leaf 66#9), (4, .leaf 256#9)]) := by
  decide

/-- 42 R208, fourth row: ESYM = 257. -/
theorem test_tree_load_bad_symbol :
    (nextOf (step (binState 0x2 40 (bits [0, 1, 0, 0, 0, 0, 0, 0, 0, 1])))).map (fun t => (t.errinfo, t.bitsIn)) =
      some (0x01010122#32, 10#32) := by decide

/-- 95 M2. -/
theorem test_tree_emit :
    (nextOf (step (withT2 (cmdState 0x3 60)))).map (fun t => (t.statusWord, t.env.boutTaken)) =
      some (0x0000030A#32, bits [1, 0, 1, 0, 0, 0, 0, 0, 0, 0, 0, 0, 0, 0, 1, 0, 0, 0, 0, 0, 1]) := by decide

/-- 95 C8: no tree. -/
theorem test_tree_emit_no_tree : (nextOf (step (cmdState 0x3 9))).map (fun t => (t.statusWord, t.errinfo)) =
    some (0x00000304#32, 0x00000037#32) := by decide

/-- 95 N1. -/
theorem test_encode :
    (nextOf (step (withSin (withT4 (cmdState 0x4 30)) [0x41#8, 0x42#8]))).map
        (fun t => (t.statusWord, t.symsIn, t.bitsOut, t.env.boutTaken)) =
      some (0x0000040A#32, 2#32, 5#32, bits [1, 0, 1, 1, 0]) := by decide

/-- 95 N6 (V-T9): no sentinel code. -/
theorem test_encode_no_sentinel :
    (nextOf (step (withSin (withLeaf (cmdState 0x4 30) 65#9) []))).map (fun t => (t.statusWord, t.errinfo)) =
      some (0x0000040C#32, 0x01000044#32) := by decide

/-- 95 D1. -/
theorem test_decode :
    (nextOf (step (withBin (withT4 (cmdState 0x5 30)) (bits [1, 0, 1, 1, 0])))).map
        (fun t => (t.statusWord, t.bitsIn, t.symsOut, t.env.soutTaken)) =
      some (0x0000050A#32, 5#32, 2#32, [0x41#8, 0x42#8]) := by decide

/-- 44 R262: the stream ends before the sentinel. -/
theorem test_decode_truncated :
    (nextOf (step (withBin (withT2 (cmdState 0x5 30)) (bits [1, 1, 1])))).map (fun t => (t.statusWord, t.errinfo, t.symsOut)) =
      some (0x0000050C#32, 0x00000053#32, 3#32) := by decide

/-- 95 H1. -/
theorem test_hdr_write :
    (nextOf (step { cmdState 0x6 80 with magic := 0x12345678#32 })).map (fun t => (t.statusWord, t.bitsOut, t.env.boutTaken)) =
      some (0x00000602#32, 32#32,
        bits [0, 0, 0, 1, 0, 0, 1, 0, 0, 0, 1, 1, 0, 1, 0, 0, 0, 1, 0, 1, 0, 1, 1, 0, 0, 1, 1, 1, 1, 0, 0, 0]) := by decide

/-- 95 H4: 31 bits, SHORT. -/
theorem test_hdr_check_short :
    (nextOf (step (binState 0x7 80
        (bits [0, 0, 0, 0, 0, 0, 0, 0, 0, 0, 0, 0, 0, 0, 0, 0, 0, 0, 0, 0, 0, 1, 1, 1, 0, 0, 1, 1, 0, 1, 1])))).map
          (fun t => (t.statusWord, t.errinfo, t.bitsIn)) =
      some (0x00000704#32, 0x00000171#32, 31#32) := by decide

/-- 45 R287, 95 G1: 0x00000736 on bin. -/
theorem test_hdr_check :
    (nextOf (step (binState 0x7 80
        (bits [0, 0, 0, 0, 0, 0, 0, 0, 0, 0, 0, 0, 0, 0, 0, 0, 0, 0, 0, 0, 0, 1, 1, 1, 0, 0, 1, 1, 0, 1, 1, 0])))).map
          (fun t => (t.statusWord, t.bitsIn)) =
      some (0x00000702#32, 32#32) := by decide

/-- 95 C5. -/
theorem test_illegal : (nextOf (step (cmdState 0xF 9))).map (fun t => (t.statusWord, t.errinfo)) =
    some (0x00000F04#32, 0x000000F8#32) := by decide

/-- 95 C6: OP 0 with RSVD not 0 is not a NOP. -/
theorem test_illegal_rsvd : (nextOf (step (cmdState 0x10 9))).map (fun t => (t.statusWord, t.errinfo)) =
    some (0x00000004#32, 0x00000008#32) := by decide

/-! ## Registers -/

/-- 95 G10: the soft reset discards the enables of its own write. -/
theorem test_soft_reset : ((cmdState 0 0).regWrite 0x08#8 0x7#32).regRead 0x08#8 = 0#32 := by decide

/-- 95 G3: a reserved offset. -/
theorem test_reserved_offset : ((cmdState 0 0).regWrite 0x44#8 0xFFFFFFFF#32).regRead 0x44#8 = 0#32 := by decide

/-- 10 R51, 95 G14's form: NODE_DATA of an Internal entry. -/
theorem test_node_data : (withT2 (cmdState 0 0)).regRead 0x34#8 = 0xC0020001#32 := by decide

/-- 10 R53, R54: the code of 66 in V-T4 is `11`. -/
theorem test_code_window :
    ({ withT4 (cmdState 0 0) with ctSelSym := 66#9 }.regRead 0x3C#8, { withT4 (cmdState 0 0) with ctSelSym := 66#9 }.regRead 0x40#8) =
      (0x80000002#32, 0xC0000000#32) := by decide

/-- 41 R190's small case: Build of "AAA" is V-T2. -/
theorem test_build_AAA : build (freqTable [0x41#8, 0x41#8, 0x41#8]) = treeT2 := by decide

/-- Build of the empty input is V-T1. -/
theorem test_build_empty : build (freqTable []) = .leaf 256#9 := by decide

/-! ## Witnesses: states and operands that meet the hypotheses of the obligations -/

/-- Idle, no error, pace n. -/
def idleState (n : Nat) : State := State.resetIn 0x00000736#32 { Env.start with pace := n }

/-- A block in the error state. -/
def errState : State := { idleState 5 with err := true }

/-- A running command at point k. -/
def runState (op : Opcode) (k : Point) : State := { idleState 5 with eng := .run op k, op := op }

theorem witness_DecodeOfEncode :
    (Instr.illegal 0x8#4 0#28).wf = true ∧ (Instr.illegal 0x0#4 1#28).wf = true ∧ Instr.hdrCheck.wf = true := by decide

theorem witness_StepRunsDecodedCommand :
    (cmdState 0xFFFFFFFF 1).env.hostProg[(cmdState 0xFFFFFFFF 1).env.hostPc]? = some (.wr .word 0x0C#8 0xFFFFFFFF#32) ∧
      Instr.treeLoad.wf = true ∧
      (cmdState 0x2 1).env.hostProg[(cmdState 0x2 1).env.hostPc]? = some (.wr .word 0x0C#8 (encode .treeLoad)) := by
  decide

theorem witness_StepAfterHostIsEngineAction : State.reset.env.hostProg[State.reset.env.hostPc]? = none := by decide

theorem witness_BusyCommandIsDropped : (runState 0x7#4 .hdrCheck).busy = true := by decide

theorem witness_ErrorStateDropsCommands :
    errState.eng = .idle ∧ errState.err = true ∧ Instr.illegal 0x1#4 1#28 ≠ .nop ∧ Instr.illegal 0x1#4 1#28 ≠ .clear := by
  decide

theorem witness_NopCompletes : errState.eng = .idle ∧ (idleState 0).eng = .idle := by decide

theorem witness_IllegalCommandEntersError : (idleState 0).eng = .idle ∧ (idleState 0).err = false := by decide

theorem witness_CommandWithoutTreeEntersError :
    (idleState 0).eng = .idle ∧ (idleState 0).err = false ∧ (idleState 0).treeValid = false := by decide

theorem witness_ClearCompletes :
    (errState.eng = .idle ∧ 2 ≤ errState.env.pace) ∧ (idleState 2).eng = .idle ∧ 2 ≤ (idleState 2).env.pace := by decide

theorem witness_HdrWriteCompletes :
    (idleState 67).quiet ∧ (idleState 67).err = false ∧ (idleState 67).env.boutReady = true ∧
      67 ≤ (idleState 67).env.pace := ⟨⟨rfl, rfl, rfl⟩, rfl, rfl, by decide⟩

/-- The first 32 bits of a stream that ends, and of an endless one. -/
theorem witness_HdrCheckCompletes :
    (let s := withBin (idleState 35) (bitsOf 0x736#32 32 ++ [true]);
      s.eng = .idle ∧ s.err = false ∧ OffersBits s.env.bin (bitsOf s.magic 32) ⟨[true], .fin⟩ ∧ 35 ≤ s.env.pace) ∧
      OffersBits (withEndless (idleState 35) (bitsOf 0x736#32 32)).env.bin (bitsOf (idleState 35).magic 32)
        ⟨[], .endless 0 0⟩ :=
  ⟨⟨rfl, rfl, Source.offers_items _ _ _, by decide⟩, Source.offers_all _ _⟩

theorem witness_HdrCheckRejectsMismatch :
    let s := withBin (idleState 34) (bitsOf 0x80000736#32 32)
    s.eng = .idle ∧ s.err = false ∧ 0x80000736#32 ≠ s.magic ∧ OffersBits s.env.bin (bitsOf 0x80000736#32 32) ⟨[], .fin⟩ ∧
      34 ≤ s.env.pace := ⟨rfl, rfl, by decide, Source.offers_all _ _, by decide⟩

theorem witness_HdrCheckRejectsShortStream :
    let s := withBin (idleState 34) (List.replicate 31 true)
    s.eng = .idle ∧ s.err = false ∧ s.env.bin = ⟨List.replicate 31 true, .fin⟩ ∧ (List.replicate 31 true).length < 32 ∧
      34 ≤ s.env.pace := by decide

theorem witness_TreeLoadCompletes :
    let s := withBin (idleState 38) (treeT2.ser ++ [true])
    treeT2.legal = true ∧ treeT2.size ≤ 513 ∧ s.eng = .idle ∧ s.err = false ∧ Memory.wf Node.unwritten s.ns = true ∧
      OffersBits s.env.bin treeT2.ser ⟨[true], .fin⟩ ∧ 19 * treeT2.leaves ≤ s.env.pace :=
  ⟨by decide, by decide, rfl, rfl, rfl, Source.offers_items _ _ _, by decide⟩

/-- A node too many: n nodes are allocated and only tags 1 follow. -/
theorem parse_ones (k : Nat) : ∀ fuel n, n + k = 513 → k < fuel →
    parseBits fuel n (List.replicate (k + 1) true) = .overflow [] := by
  induction k with
  | zero =>
    intro fuel n hn hf
    obtain ⟨f, rfl⟩ : ∃ f, fuel = f + 1 := ⟨fuel - 1, by omega⟩
    obtain rfl : n = 513 := by omega
    rfl
  | succ k ih =>
    intro fuel n hn hf
    obtain ⟨f, rfl⟩ : ∃ f, fuel = f + 1 := ⟨fuel - 1, by omega⟩
    have h : ¬ n = 513 := by omega
    rw [List.replicate_succ]
    simp [parseBits, h, ih f (n + 1) (by omega) (by omega)]

theorem parse_stream_ones : parseStream (List.replicate 514 true) = .overflow [] := by
  rw [parseStream, List.length_replicate]
  exact parse_ones 513 _ 0 rfl (by omega)

/-- The hypotheses, and the four ends of Parse at the edges: a legal leaf of 256, an empty stream, symbol 257, and 514
tags 1. -/
theorem witness_TreeLoadFollowsParse :
    (let s := withBin (idleState 88) (HTree.leaf 256#9).ser;
      s.eng = .idle ∧ s.err = false ∧ Memory.wf Node.unwritten s.ns = true ∧
        s.env.bin = ⟨(HTree.leaf 256#9).ser, .fin⟩ ∧ 8 * ((HTree.leaf 256#9).ser.length + 1) ≤ s.env.pace) ∧
      parseStream (HTree.leaf 256#9).ser = .parsed (.leaf 256#9) [] ∧ parseStream [] = .exhausted ∧
      parseStream (HTree.leaf 257#9).ser = .badSymbol 257#9 [] ∧
      parseStream (List.replicate 514 true) = .overflow [] :=
  ⟨by decide, by decide, by decide, by decide, parse_stream_ones⟩

/-! ### Loaded trees -/

theorem loaded_T2 (s : State) : Loaded (withT2 s) treeT2 :=
  ⟨⟨rfl, ⟨rfl, by decide⟩, rfl, by decide⟩, by decide, rfl, rfl, rfl⟩

theorem loaded_T4 (s : State) : Loaded (withT4 s) treeT4 :=
  ⟨⟨rfl, ⟨rfl, by decide⟩, rfl, ⟨rfl, by decide⟩, rfl, by decide⟩, by decide, rfl, rfl, rfl⟩

theorem loaded_leaf (s : State) (sym : Symbol) (h : sym.toNat ≤ 256) : Loaded (withLeaf s sym) (.leaf sym) :=
  ⟨⟨rfl, h⟩, by simp [HTree.size], rfl, rfl, rfl⟩

theorem witness_TreeEmitCompletes :
    let s := withT2 (idleState 54)
    Loaded s treeT2 ∧ s.quiet ∧ s.err = false ∧ s.env.boutReady = true ∧ 27 * treeT2.leaves ≤ s.env.pace :=
  ⟨loaded_T2 _, ⟨rfl, rfl, rfl⟩, rfl, rfl, by decide⟩

theorem witness_EmitGivesBackLoadedBits :
    let s := withBin (idleState 19) (HTree.leaf 256#9).ser
    (s.quiet ∧ s.err = false ∧ Memory.wf Node.unwritten s.ns = true) ∧
      (nextOf (exec .treeLoad s)).map (fun u => (u.eng, u.done)) = some (.idle, true) ∧
      (idleState 270).env.boutReady = true ∧ 27 * (HTree.leaf 256#9).ser.length ≤ (idleState 270).env.pace :=
  ⟨⟨⟨rfl, rfl, rfl⟩, rfl, rfl⟩, by decide, rfl, by decide⟩

theorem witness_EncodeCompletes :
    let s := withSin (withT2 (idleState 16)) [65#8, 65#8]
    s.quiet ∧ s.err = false ∧ s.treeValid = true ∧ s.env.sin = ⟨[65#8, 65#8], .fin⟩ ∧
      payload s.ct [65#8, 65#8] = some [true, true, false] ∧ s.env.boutReady = true ∧ 3 * 2 + 2 * 3 + 4 ≤ s.env.pace :=
  ⟨⟨rfl, rfl, rfl⟩, rfl, rfl, rfl, by decide, rfl, by decide⟩

theorem witness_EncodeByteWithoutCode :
    let s := withSin (withT2 (idleState 7)) ([65#8] ++ 66#8 :: [67#8])
    s.quiet ∧ s.err = false ∧ s.treeValid = true ∧ OffersBytes s.env.sin ([65#8] ++ [66#8]) ⟨[67#8], .fin⟩ ∧
      codesOf s.ct [65#8] = some [true] ∧ codeIn s.ct (symOfByte 66#8) = none ∧ s.env.boutReady = true ∧
      3 * [65#8].length + 2 * [true].length + 2 ≤ s.env.pace :=
  ⟨⟨rfl, rfl, rfl⟩, rfl, rfl, Source.offers_items [65#8, 66#8] [67#8] .fin, by decide, by decide, rfl, by decide⟩

theorem witness_EncodeWithoutSentinel :
    let s := withSin (withT7 (idleState 7)) [66#8]
    s.quiet ∧ s.err = false ∧ s.treeValid = true ∧ s.env.sin = ⟨[66#8], .fin⟩ ∧ codesOf s.ct [66#8] = some [true] ∧
      codeIn s.ct 256#9 = none ∧ s.env.boutReady = true ∧ 3 * [66#8].length + 2 * [true].length + 2 ≤ s.env.pace :=
  ⟨⟨rfl, rfl, rfl⟩, rfl, rfl, rfl, by decide, by decide, rfl, by decide⟩

/-- The codes of V-T4 with bits after the sentinel's, and a sentinel at once. -/
theorem witness_DecodeCompletes :
    let items : List (Byte × Bits) := [(65#8, [true, false]), (66#8, [true, true])]
    let s := withBin (withT4 (idleState 18)) (items.flatMap Prod.snd ++ [false] ++ [true])
    Loaded s treeT4 ∧ s.quiet ∧ s.err = false ∧ (∀ x ∈ items, treeT4.follow x.2 = some (.leaf (symOfByte x.1))) ∧
      treeT4.follow [false] = some (.leaf 256#9) ∧
      OffersBits s.env.bin (items.flatMap Prod.snd ++ [false]) ⟨[true], .fin⟩ ∧ s.env.soutReady = true ∧
      3 * items.length + 2 * (items.flatMap Prod.snd ++ [false]).length + 2 ≤ s.env.pace :=
  ⟨loaded_T4 (idleState 18), ⟨rfl, rfl, rfl⟩, rfl, by decide, rfl, Source.offers_items _ _ _, rfl, by decide⟩

/-- The stream ends inside a code (`1` of `10`). -/
theorem witness_DecodeOfTruncatedStream :
    let items : List (Byte × Bits) := [(66#8, [true, true])]
    let s := withBin (withT4 (idleState 12)) (items.flatMap Prod.snd ++ [true])
    Loaded s treeT4 ∧ s.quiet ∧ s.err = false ∧ (∀ x ∈ items, treeT4.follow x.2 = some (.leaf (symOfByte x.1))) ∧
      treeT4.follow [true] = some (.node (.leaf 65#9) (.leaf 66#9)) ∧
      s.env.bin = ⟨items.flatMap Prod.snd ++ [true], .fin⟩ ∧ s.env.soutReady = true ∧
      3 * items.length + 2 * (items.flatMap Prod.snd ++ [true]).length + 3 ≤ s.env.pace :=
  ⟨loaded_T4 (idleState 12), ⟨rfl, rfl, rfl⟩, rfl, by decide, rfl, rfl, rfl, by decide⟩

/-- Both clauses: the sentinel's leaf, and another. -/
theorem witness_DecodeOfOneLeafTree :
    (Loaded (withLeaf (idleState 2) 256#9) (.leaf 256#9) ∧ (withLeaf (idleState 2) 256#9).eng = .idle ∧
      (withLeaf (idleState 2) 256#9).err = false ∧ 2 ≤ (withLeaf (idleState 2) 256#9).env.pace) ∧
      Loaded (withLeaf (idleState 2) 255#9) (.leaf 255#9) ∧ 255#9 ≠ 256#9 :=
  ⟨⟨loaded_leaf _ _ (by decide), rfl, rfl, by decide⟩, loaded_leaf _ _ (by decide), by decide⟩

/-- The hypotheses of the three clauses, for S = "AAA", whose payload is `1110`. -/
theorem witness_RoundTripOfBytes :
    let S : List Byte := [0x41#8, 0x41#8, 0x41#8]
    let s1 := withBin (idleState 4883) (treeT2.ser ++ [true])
    let s2 := withSin (withT2 (idleState 21)) S
    let s3 := withBin (withT2 (idleState 19)) ([true, true, true, false] ++ [true])
    (s1.eng = .idle ∧ s1.err = false ∧ Memory.wf Node.unwritten s1.ns = true ∧
        OffersBits s1.env.bin (build (freqTable S)).ser ⟨[true], .fin⟩ ∧ 19 * 257 ≤ s1.env.pace) ∧
      (Loaded s2 (build (freqTable S)) ∧ s2.quiet ∧ s2.err = false ∧ s2.env.sin = ⟨S, .fin⟩ ∧ s2.env.boutReady = true ∧ 3 * S.length + 2 * 4 + 4 ≤ s2.env.pace) ∧
      (Loaded s3 (build (freqTable S)) ∧ s3.quiet ∧ s3.err = false ∧
        OffersBits s3.env.bin [true, true, true, false] ⟨[true], .fin⟩ ∧ s3.env.soutReady = true ∧
        3 * S.length + 2 * 4 + 2 ≤ s3.env.pace) := by
  intro S s1 s2 s3
  rw [show build (freqTable S) = treeT2 from test_build_AAA]
  exact ⟨⟨rfl, rfl, rfl, Source.offers_items _ _ _, by decide⟩,
    ⟨loaded_T2 (idleState 21), ⟨rfl, rfl, rfl⟩, rfl, rfl, rfl, by decide⟩,
    loaded_T2 (idleState 19), ⟨rfl, rfl, rfl⟩, rfl, Source.offers_items _ _ _, rfl, by decide⟩

/-- S = "AAA" with its payload cut before the sentinel's code. -/
theorem witness_TruncatedPayloadIsDetected :
    let S : List Byte := [0x41#8, 0x41#8, 0x41#8]
    let s := withBin (withT2 (idleState 20)) [true, true, true]
    payload (build (freqTable S)).codeTable S = some [true, true, true, false] ∧
      [true, true, true, false] = [true, true, true] ++ [false] ∧ [false] ≠ [] ∧ Loaded s (build (freqTable S)) ∧
      s.quiet ∧ s.err = false ∧ s.env.bin = ⟨[true, true, true], .fin⟩ ∧ s.env.soutReady = true ∧
      3 * S.length + 2 * [true, true, true, false].length + 3 ≤ s.env.pace := by
  intro S s
  rw [show build (freqTable S) = treeT2 from test_build_AAA]
  exact ⟨by decide, rfl, by decide, loaded_T2 (idleState 20), ⟨rfl, rfl, rfl⟩, rfl, rfl, rfl, by decide⟩

theorem witness_CodesArePrefixFree :
    treeT4.symbols.Nodup ∧ codeIn treeT4.codeTable 66#9 = some [true, true] ∧ treeT4.size ≤ 513 ∧
      [true, true] <+: [true, true] := by decide

/-! ### Registers and ports -/

/-- The first and the last reserved offset, and a read-only register, whose writes the two clauses speak of. -/
theorem witness_RegisterMap :
    0x44 ≤ (0x44#8).toNat ∧ 0x44 ≤ (0xFF#8).toNat ∧
      0x40#8 ∈ [0x00#8, 0x04#8, 0x14#8, 0x1C#8, 0x20#8, 0x24#8, 0x28#8, 0x2C#8, 0x34#8, 0x3C#8, 0x40#8] := by decide

theorem witness_RegisterAccessIsOneEvent : (0xFC#8).toNat % 4 = 0 ∧ (0x10#8).toNat % 4 = 0 ∧ 0x10#8 ≠ 0x0C#8 := by decide

/-- An access of another width, one at another offset; a producer whose end the running command has seen, with data and
without, and one whose end it has not; and the removal of what is offered, while idle and while a command runs. -/
theorem witness_HostAndProducerMoves :
    (AccessWidth.half ≠ .word ∧ (0x0E#8).toNat % 4 ≠ 0) ∧
      (runState 0x5#4 (.starved .code)).binEndShown = true ∧ [true] ≠ [] ∧ (idleState 5).binEndShown = false ∧
      (runState 0x4#4 (.send [true] .finish)).sinEndShown = true ∧ [0#8] ≠ [] ∧
      (runState 0x4#4 (.send [true] .encode)).sinEndShown = false ∧
      nextOf (hostStmt (.bin [true] true) (runState 0x5#4 (.starved .code))) = none ∧
      (nextOf (hostStmt (.sin [] true) (runState 0x4#4 (.send [true] .finish)))).isSome = true ∧
      (nextOf (hostStmt (.binEndless 0) (idleState 5))).map (fun t => t.env.bin) = some ⟨[], .endless 0 0⟩ ∧
      ((withBin (idleState 5) [true]).eng = .idle ∧
        (nextOf (hostStmt .binRemove (withBin (idleState 5) [true]))).map (fun t => t.env.bin) = some ⟨[], .more⟩) ∧
      ((withSin (idleState 5) [65#8]).eng = .idle ∧
        (nextOf (hostStmt .sinRemove (withSin (idleState 5) [65#8]))).map (fun t => t.env.sin) = some ⟨[], .more⟩) ∧
      ((withBin (runState 0x4#4 .encode) [true]).eng ≠ .idle ∧
        (withBin (runState 0x4#4 .encode) [true]).env.bin.offering = true) ∧
      ((withSin (runState 0x5#4 .decode) [65#8]).eng ≠ .idle ∧
        (withSin (runState 0x5#4 .decode) [65#8]).env.sin.offering = true) := by decide

theorem witness_MagicWriteOnlyWhileIdle : (idleState 0).eng = .idle ∧ (runState 0x7#4 .hdrCheck).eng ≠ .idle := by decide

theorem witness_ControlWrite : (0x6#32).getLsbD 0 = false ∧ (0x7#32).getLsbD 0 = true := by decide

/-- Both sides of NODE_DATA's condition: the last node of the tree, and the index after it. -/
theorem witness_NodeDataWindow :
    (let s := { withT2 (idleState 0) with nodeSel := 2#10 };
      s.eng = .idle ∧ s.nodeSel.toNat < s.nodeCount.toNat) ∧
      (let s := { withT2 (idleState 0) with nodeSel := 3#10 };
        ¬ s.nodeSel.toNat < s.nodeCount.toNat) := by decide

/-- Both sides of the window's condition: symbol 256 with a code, and symbol 257. -/
theorem witness_CodeTableWindow :
    (let s := { withT2 (idleState 0) with ctSelSym := 256#9 };
      s.eng = .idle ∧ s.ctSelSym.toNat ≤ 256 ∧ (s.code s.ctSelSym).valid = true) ∧
      (let s := { withT2 (idleState 0) with ctSelSym := 257#9 };
        ¬ s.ctSelSym.toNat ≤ 256) := by decide

theorem witness_ReadBitTransfers :
    (runState 0x7#4 (.recv (31 + 1) 0#32 .magic)).eng = .run 0x7#4 (.recv (31 + 1) 0#32 .magic) := rfl

theorem witness_ByteTransfers :
    (runState 0x4#4 .encode).eng = .run 0x4#4 .encode ∧ (runState 0x5#4 (.put 65#8)).eng = .run 0x5#4 (.put 65#8) ∧
      (runState 0x5#4 .drainSym).eng = .run 0x5#4 .drainSym := ⟨rfl, rfl, rfl⟩

theorem witness_WriteBitTransfers :
    (runState 0x6#4 (.send [true, false] .finish)).eng = .run 0x6#4 (.send [true, false] .finish) ∧
      (runState 0x6#4 (.drain [false] .finish)).eng = .run 0x6#4 (.drain [false] .finish) := ⟨rfl, rfl⟩

/-- A bit offered to a consumer that is not ready, while the host's next statement is st. -/
def heldBit (st : HostStmt) : State :=
  let s := runState 0x6#4 (.drain [false] .finish)
  { s with boutValid := true, boutBit := true, env := { s.env with boutReady := false, hostProg := [st] } }

/-- A byte offered to a consumer that is not ready, while the host's next statement is st. -/
def heldByte (st : HostStmt) : State :=
  let s := runState 0x5#4 .drainSym
  { s with soutValid := true, soutData := 65#8, env := { s.env with soutReady := false, hostProg := [st] } }

/-- The two clauses: over a dropped CLEAR, over a write of CTRL without SRST, and where the consumer stays as it is. -/
theorem witness_OfferedBeatIsHeld :
    (let s := heldBit (cmd .clear);
      (nextOf (step s)).isSome = true ∧ s.env.hostProg[s.env.hostPc]? ≠ some .resetPin ∧
        (∀ w : Word, w.getLsbD 0 = true → s.env.hostProg[s.env.hostPc]? ≠ some (.wr .word 0x08#8 w)) ∧
        s.draining = true ∧ s.boutValid = true ∧ s.env.boutReady = false ∧
        s.env.hostProg[s.env.hostPc]? ≠ some (.boutReady true)) ∧
      (let s := heldByte (.soutReady false);
        (nextOf (step s)).isSome = true ∧ s.env.hostProg[s.env.hostPc]? ≠ some .resetPin ∧
          (∀ w : Word, w.getLsbD 0 = true → s.env.hostProg[s.env.hostPc]? ≠ some (.wr .word 0x08#8 w)) ∧
          s.drainingSym = true ∧ s.soutValid = true ∧ s.env.soutReady = false ∧
          s.env.hostProg[s.env.hostPc]? ≠ some (.soutReady true)) ∧
      (let s := heldBit (.wr .word 0x08#8 0x6#32);
        (nextOf (step s)).isSome = true ∧
          ∀ w : Word, w.getLsbD 0 = true → s.env.hostProg[s.env.hostPc]? ≠ some (.wr .word 0x08#8 w)) ∧
      (let s := heldBit (.boutReady false);
        (nextOf (step s)).isSome = true ∧ s.env.hostProg[s.env.hostPc]? ≠ some (.boutReady true)) := by
  refine ⟨⟨by decide, by decide, ?_, rfl, rfl, rfl, by decide⟩, ⟨by decide, by decide, ?_, rfl, rfl, rfl, by decide⟩,
    ⟨by decide, ?_⟩, by decide, by decide⟩
  · intro w _ h; simp [heldBit, cmd, wrReg, offCmd, runState, idleState, State.resetIn, Env.start] at h
  · intro w _ h; simp [heldByte, runState, idleState, State.resetIn, Env.start] at h
  · rintro w hw h
    obtain rfl : 0x6#32 = w := by simpa [heldBit, runState, idleState, State.resetIn, Env.start] using h
    simp at hw

/-- A waiting engine on each of the four ports. -/
theorem witness_WaitingEngineHangs :
    (let s := runState 0x7#4 (.recv 32 0#32 .magic);
      s.binReady = true ∧ s.env.bin = ⟨[], .more⟩) ∧
      (let s := runState 0x4#4 .encode;
        s.sinReady = true ∧ s.env.sin = ⟨[], .more⟩) ∧
      (let s := heldBit (.pace 0);
        s.draining = true ∧ s.env.boutReady = false) ∧
      (let s := heldByte (.pace 0);
        s.drainingSym = true ∧ s.env.soutReady = false) := by decide

theorem witness_ResetEventsAgree : (0x1#32).getLsbD 0 = true := by decide

/-! ### The invariant -/

/-- DECODE reads a bit of an endless stream at the root of V-T2. -/
def decodingState : State := withEndless (withT2 (runState 0x5#4 (.recv 1 0#32 .code))) []

theorem decoding_inv : Inv decodingState where
  nsWf := by decide
  ctWf := by decide
  bout := rfl
  sout := rfl
  depth := by decide
  idle := by intro h; cases h
  running := by
    intro op k h
    cases h
    exact ⟨rfl, rfl, (by intro h; cases h), fun _ => rfl, rfl, by decide, _, _, (loaded_T2 decodingState).1, by decide⟩
  tree := .inr (.inl ⟨treeT2, loaded_T2 decodingState⟩)

theorem witness_StepKeepsInv : Inv decodingState ∧ (nextOf (step decodingState)).isSome = true := ⟨decoding_inv, by decide⟩

/-- The same block after reset with a host program of one EXPECT that does not hold. -/
def expectState : State :=
  State.resetIn 0#32 { Env.start with hostProg := [.expect 0x00#8 0#32] }

theorem expect_inv : Inv expectState where
  nsWf := rfl
  ctWf := rfl
  bout := rfl
  sout := rfl
  depth := by decide
  idle := fun _ => rfl
  running := by intro op k h; cases h
  tree := .inr (.inr ⟨rfl, rfl, rfl⟩)

theorem witness_EngineNeverFaults : Inv expectState ∧ step expectState = .fault .expectFailed := ⟨expect_inv, rfl⟩

/-- HDR_WRITE is about to complete. -/
def finishingState : State := runState 0x6#4 .finish

theorem finishing_inv : Inv finishingState where
  nsWf := rfl
  ctWf := rfl
  bout := rfl
  sout := rfl
  depth := by decide
  idle := by intro h; cases h
  running := by
    intro op k h
    cases h
    exact ⟨rfl, rfl, (by intro h; cases h), by decide, by decide, by decide⟩
  tree := .inr (.inr ⟨rfl, rfl, rfl⟩)

theorem witness_CommandEndsOnce :
    Inv finishingState ∧ finishingState.busy = true ∧ (nextOf (engineStep finishingState)).map State.eng = some .idle :=
  ⟨finishing_inv, rfl, by decide⟩

theorem witness_WalkStackWithin256 : Reachable State.reset := Reachable.reset _ _

theorem witness_CompleteEndsCommand : Inv finishingState ∧ finishingState.eng = .run 0x6#4 .finish := ⟨finishing_inv, rfl⟩

/-! ### Frames -/

theorem witness_StreamCommandsFrame :
    Instr.encode ∈ [Instr.treeEmit, .encode, .decode, .hdrWrite, .hdrCheck] ∧ (withT2 (idleState 3)).eng = .idle ∧
      (nextOf (exec .encode (withT2 (idleState 3)))).isSome = true ∧ (withT2 (idleState 3)).err = false := by decide

theorem witness_CommandsUseTheirPorts :
    (withT2 (idleState 3)).eng = .idle ∧ (withT2 (idleState 3)).err = false ∧
      ∀ i ∈ [Instr.treeEmit, .hdrWrite, .encode, .decode, .hdrCheck, .treeLoad, .clear],
        (nextOf (exec i (withT2 (idleState 3)))).isSome = true := by decide

theorem witness_TreeCommandsFrame :
    (withT2 (idleState 3)).eng = .idle ∧ Memory.wf Node.unwritten (withT2 (idleState 3)).ns = true ∧
      (nextOf (exec .clear (withT2 (idleState 3)))).isSome = true ∧
      (nextOf (exec .treeLoad (withT2 (idleState 3)))).isSome = true := by decide

end Sys2Proof.Tests
end

section
/-! PROOFS. The registers the host reads and writes (spec/10_state.md R31-R54), one equation per register, and what
they read after reset (R65). -/

namespace Sys2Proof.Machine

variable (s : State) (w : Word)

/-! ## The register map -/

@[simp] theorem regRead_ctrl : s.regRead 0x08#8 = s.ctrlWord := rfl
@[simp] theorem regRead_status : s.regRead 0x10#8 = s.statusWord := rfl
@[simp] theorem regRead_nodeSel : s.regRead 0x30#8 = s.nodeSel.setWidth 32 := rfl
@[simp] theorem regRead_nodeData : s.regRead 0x34#8 = s.nodeDataWord := rfl
@[simp] theorem regRead_ctSel : s.regRead 0x38#8 = s.ctSelWordValue := rfl
@[simp] theorem regRead_ctInfo : s.regRead 0x3C#8 = s.ctInfoWord := rfl
@[simp] theorem regRead_ctData : s.regRead 0x40#8 = s.ctDataWord := rfl

@[simp] theorem regWrite_ctrl : s.regWrite 0x08#8 w = s.writeCtrl w := rfl
@[simp] theorem regWrite_status : s.regWrite 0x10#8 w = s.writeStatus w := rfl
@[simp] theorem regWrite_magic : s.regWrite 0x18#8 w = s.writeMagic w := rfl
@[simp] theorem regWrite_nodeSel : s.regWrite 0x30#8 w = { s with nodeSel := w.setWidth 10 } := rfl
@[simp] theorem regWrite_ctSel :
    s.regWrite 0x38#8 w = { s with ctSelSym := w.setWidth 9, ctSelWord := w.extractLsb' 16 3 } := rfl

/-- Offsets above the last register are reserved: they read 0. -/
theorem regRead_reserved {off : Offset} (h : 0x44 ≤ off.toNat) : s.regRead off = 0 := by
  unfold State.regRead
  split
  case h_18 => rfl
  all_goals omega

/-- Only CTRL, STATUS, MAGIC and the two select registers take a write. -/
theorem regWrite_readOnly {off : Offset}
    (h : off.toNat ∉ [0x08, 0x10, 0x18, 0x30, 0x38]) : s.regWrite off w = s := by
  unfold State.regWrite
  split <;> simp_all

theorem busy_eq : s.busy = decide (s.eng ≠ .idle) := by
  rw [Bool.eq_iff_iff, busy_iff, decide_eq_true_iff]

/-! ## Fields of registers -/

theorem flagBit_getLsbD (b : Bool) {k : Nat} (hk : k < 32) (n : Nat) :
    (flagBit b k).getLsbD n = (b && decide (n = k)) := by
  cases b with
  | false => simp [flagBit]
  | true =>
    rw [Bool.eq_iff_iff]
    simp [flagBit, BitVec.getLsbD_one]
    omega

theorem ctrlWord_getLsbD (n : Nat) :
    s.ctrlWord.getLsbD n = if n = 1 then s.ieDone else if n = 2 then s.ieErr else false := by
  simp (disch := decide) only [State.ctrlWord, BitVec.getLsbD_or, flagBit_getLsbD]
  by_cases h1 : n = 1
  · simp [h1]
  · by_cases h2 : n = 2 <;> simp [h1, h2]

@[simp] theorem flagBit_false (k : Nat) : flagBit false k = 0#32 := rfl

theorem statusWord_getLsbD (n : Nat) :
    s.statusWord.getLsbD n =
      if n = 0 then s.busy else if n = 1 then s.done else if n = 2 then s.err else if n = 3 then s.treeValid
      else if n = 4 then s.drop else if n = 5 then s.irq else if 8 ≤ n ∧ n ≤ 11 then s.op.getLsbD (n - 8)
      else false := by
  simp (disch := decide) only [State.statusWord, BitVec.getLsbD_or, flagBit_getLsbD, BitVec.getLsbD_shiftLeft,
    BitVec.getLsbD_setWidth]
  rcases Nat.lt_or_ge n 8 with hlow | hhigh
  · interval_cases n <;> simp
  · obtain ⟨m, rfl⟩ := Nat.exists_eq_add_of_le' hhigh
    have hm : m ≤ 3 ∨ s.op.getLsbD m = false := by
      rcases Nat.lt_or_ge m 4 with h | h
      · exact .inl (by omega)
      · exact .inr (BitVec.getLsbD_of_ge _ _ h)
    rcases hm with hm | hm
    · simp [hm, show m + 8 < 32 by omega, show m < 32 by omega]
    · simp [hm]

theorem ctSelWordValue_eq : s.ctSelWordValue = 0#13 ++ s.ctSelWord ++ 0#7 ++ s.ctSelSym := by
  apply BitVec.eq_of_getLsbD_eq
  intro i hi
  simp only [State.ctSelWordValue, BitVec.getLsbD_or, BitVec.getLsbD_setWidth, BitVec.getLsbD_shiftLeft,
    BitVec.getLsbD_append, BitVec.getLsbD_zero]
  by_cases h1 : i < 9
  · simp [h1, show i < 32 by omega, show i < 16 by omega]
  have hs : s.ctSelSym.getLsbD i = false := BitVec.getLsbD_of_ge _ _ (by omega)
  by_cases h2 : i < 16
  · simp [h1, h2, hs, show i - 9 < 7 by omega]
  by_cases h3 : i < 19
  · simp [h1, h2, hs, hi, show ¬ i - 9 < 7 by omega, show i - 16 < 3 by omega, show i - 16 < 32 by omega,
      show i - 9 - 7 = i - 16 by omega]
  · have hw : s.ctSelWord.getLsbD (i - 16) = false := BitVec.getLsbD_of_ge _ _ (by omega)
    simp [h1, h2, hs, hw, show ¬ i - 9 < 7 by omega, show ¬ i - 9 - 7 < 3 by omega]

/-- packBits shifts the first n bits of p in below v, the first bit highest. -/
theorem packBits_getLsbD (n : Nat) (p : Bits) (v : Word) (i : Nat) (hi : i < 32) :
    (packBits n p v).getLsbD i = if i < n then p.getD (n - 1 - i) false else v.getLsbD (i - n) := by
  induction n generalizing p v with
  | zero => simp [packBits]
  | succ n ih =>
    rw [packBits, ih]
    rcases Nat.lt_trichotomy i n with h | h | h
    · rw [if_pos h, if_pos (by omega), show n + 1 - 1 - i = (n - 1 - i) + 1 by omega]
      cases p <;> simp
    · subst h
      rw [if_neg (lt_irrefl i), if_pos (Nat.lt_succ_self i), shiftIn_getLsbD, if_pos (Nat.sub_self i),
        Nat.add_sub_cancel, Nat.sub_self]
      cases p <;> rfl
    · rw [if_neg (by omega), if_neg (by omega), shiftIn_getLsbD, if_neg (by omega), decide_eq_true (by omega),
        Bool.true_and, show i - n - 1 = i - (n + 1) by omega]

/-- CT_DATA[31-j] is bit 32 w + j of the path (spec/10_state.md R54). -/
theorem pathWord_getLsbD (p : Bits) (i : Nat) {j : Nat} (hj : j < 32) :
    (pathWord p i).getLsbD (31 - j) = p.getD (32 * i + j) false := by
  rw [pathWord, packBits_getLsbD _ _ _ _ (by omega), if_pos (by omega), show 32 - 1 - (31 - j) = j by omega]
  simp

/-! ## Select registers and windows -/

/-- NODE_SEL keeps bits [9:0] (spec/10_state.md R50). -/
theorem nodeSel_readBack : (w.setWidth 10).setWidth 32 = w &&& 0x000003FF#32 := by
  apply BitVec.eq_of_getLsbD_eq
  intro i hi
  have hmask : (0x000003FF#32).getLsbD i = decide (i < 10) := by
    revert i
    decide
  rw [BitVec.getLsbD_and, hmask]
  simp [hi, Bool.and_comm]

/-- CT_SEL keeps bits [8:0] and [18:16] (spec/10_state.md R52). -/
theorem ctSel_readBack : (s.regWrite 0x38#8 w).regRead 0x38#8 = w &&& 0x000701FF#32 := by
  rw [regWrite_ctSel, regRead_ctSel]
  apply BitVec.eq_of_getLsbD_eq
  intro i hi
  have hmask : (0x000701FF#32).getLsbD i = (decide (i < 9) || decide (16 ≤ i) && decide (i < 19)) := by
    revert i
    decide
  rw [BitVec.getLsbD_and, hmask]
  simp only [State.ctSelWordValue, BitVec.getLsbD_or, BitVec.getLsbD_setWidth, BitVec.getLsbD_shiftLeft,
    BitVec.getLsbD_extractLsb']
  by_cases h1 : i < 16
  · simp [hi, h1, show ¬ 16 ≤ i by omega, Bool.and_comm]
  · have h2 : i - 16 < 3 ↔ i < 19 := by omega
    simp [hi, h1, h2, show ¬ i < 9 by omega, show 16 ≤ i by omega, show i - 16 < 32 by omega, Bool.and_comm]

theorem window?_eq_some (h : s.eng = .idle ∧ s.ctSelSym.toNat ≤ 256 ∧ (s.code s.ctSelSym).valid = true) :
    s.window? = some (s.code s.ctSelSym) := by
  obtain ⟨he, hs, hv⟩ := h
  simp [State.window?, he, hs, hv]

theorem window?_eq_none (h : ¬(s.eng = .idle ∧ s.ctSelSym.toNat ≤ 256 ∧ (s.code s.ctSelSym).valid = true)) :
    s.window? = none := by
  rw [State.window?, if_neg (by simpa [busy_eq, and_assoc] using h)]

/-! ## After reset -/

@[simp] theorem ctrlWord_resetIn (m : Word) (e : Env) : (State.resetIn m e).ctrlWord = 0#32 := by
  simp [State.ctrlWord, State.resetIn]

@[simp] theorem statusWord_resetIn (m : Word) (e : Env) : (State.resetIn m e).statusWord = 0#32 := by
  simp [State.statusWord, State.resetIn, State.busy, State.irq]

@[simp] theorem ctSelWordValue_resetIn (m : Word) (e : Env) : (State.resetIn m e).ctSelWordValue = 0#32 := by
  simp [State.ctSelWordValue, State.resetIn]

/-- Every register but ID, CAPS and MAGIC reads 0 after reset (spec/10_state.md R65). -/
theorem regRead_resetIn_zero (m : Word) (e : Env) {off : Offset} (hid : off ≠ 0x00#8) (hcaps : off ≠ 0x04#8)
    (hmagic : off ≠ 0x18#8) : (State.resetIn m e).regRead off = 0#32 := by
  unfold State.regRead
  split
  case h_1 h => exact absurd (BitVec.eq_of_toNat_eq h) hid
  case h_2 h => exact absurd (BitVec.eq_of_toNat_eq h) hcaps
  case h_7 h => exact absurd (BitVec.eq_of_toNat_eq h) hmagic
  case h_3 => exact ctrlWord_resetIn m e
  case h_5 => exact statusWord_resetIn m e
  case h_15 => exact ctSelWordValue_resetIn m e
  all_goals rfl

/-! ## The obligations about the registers -/

/-- Settles O32: the two constants. -/
theorem identificationRegisters : Obligations.IdentificationRegisters := fun _ => ⟨rfl, rfl⟩

/-- Settles O33, bit by bit. -/
theorem statusWordFields : Obligations.StatusWordFields := by
  intro s n
  refine ⟨rfl, ?_⟩
  rw [regRead_status, statusWord_getLsbD, busy_eq]
  rfl

/-- Settles O34, from the fields of CTRL and CT_SEL, the reserved offsets and the read-only registers. -/
theorem registerMap : Obligations.RegisterMap := by
  intro s off w
  refine ⟨ctrlWord_getLsbD s, rfl, rfl, rfl, ?_, rfl, rfl, rfl, rfl, ?_, ctSelWordValue_eq s, regRead_reserved s,
    fun h => regWrite_readOnly s w ?_⟩
  · exact BitVec.setWidth_eq_append (by decide)
  · exact BitVec.setWidth_eq_append (by decide)
  · rcases h with h | h
    · revert off
      decide
    · simp only [List.mem_cons, List.not_mem_nil, or_false]
      omega

/-- Settles O37, by the four values of the two bits written. -/
theorem statusWriteClears : Obligations.StatusWriteClears := by
  intro s w
  rw [regWrite_status, State.writeStatus]
  cases w.getLsbD 1 <;> cases w.getLsbD 4 <;> simp

/-- Settles O38: BUSY is 1 exactly while the engine is not idle. -/
theorem magicWriteOnlyWhileIdle : Obligations.MagicWriteOnlyWhileIdle := by
  intro s w
  rw [regWrite_magic, State.writeMagic, busy_eq]
  exact ⟨fun h => by simp [h], fun h => by simp [h]⟩

/-- Settles O39, by the value of SRST. -/
theorem controlWrite : Obligations.ControlWrite := by
  intro s w
  rw [regWrite_ctrl, State.writeCtrl]
  refine ⟨fun h => if_neg (by rw [h]; decide), fun h => ?_⟩
  rw [if_pos h]
  exact ⟨rfl, ctrlWord_resetIn _ _⟩

/-- Settles O40, from what each select register keeps of a word. -/
theorem selectWrites : Obligations.SelectWrites := by
  intro s w
  refine ⟨?_, ?_, ?_, ?_⟩
  · rw [regWrite_nodeSel, BitVec.setWidth_eq_extractLsb' (by decide)]
  · rw [regWrite_ctSel, BitVec.setWidth_eq_extractLsb' (by decide)]
  · exact nodeSel_readBack w
  · exact ctSel_readBack s w

/-- Settles O41, by whether an entry of the loaded tree is selected while idle. -/
theorem nodeDataWindow : Obligations.NodeDataWindow := by
  intro s
  rw [regRead_nodeData, State.nodeDataWord, busy_eq]
  by_cases h : s.eng = .idle ∧ s.nodeSel.toNat < s.nodeCount.toNat
  · rw [if_pos h, if_pos (by simp [h])]
    cases s.nodeData s.nodeSel <;> rfl
  · rw [if_neg h, if_neg (by simpa using h)]
    rfl

/-- Settles O42, from the entry the window shows and the bits of a path's word. -/
theorem codeTableWindow : Obligations.CodeTableWindow := by
  intro s
  rw [regRead_ctInfo, regRead_ctData, State.ctInfoWord, State.ctDataWord]
  refine ⟨fun h => ?_, fun h => ?_⟩
  · rw [window?_eq_some s h]
    exact ⟨rfl, fun j hj => pathWord_getLsbD _ _ hj⟩
  · rw [window?_eq_none s h]
    exact ⟨rfl, rfl⟩

/-- Settles O48: ID, CAPS and MAGIC by evaluation, every other offset reads 0. -/
theorem resetValues : Obligations.ResetValues := by
  intro m e off
  refine ⟨?_, rfl, rfl, rfl, rfl, rfl, rfl, rfl⟩
  split_ifs with hid hcaps hmagic
  · subst hid
    rfl
  · subst hcaps
    rfl
  · subst hmagic
    rfl
  · exact regRead_resetIn_zero m e hid hcaps hmagic

end Sys2Proof.Machine
end

section
/-! PROOFS. The invariant of the block (spec/10_state.md R42, R56, R59, R62): what it asks of an idle and of a running
block, and that every engine action, command and host statement keeps it. -/

namespace Sys2Proof.Machine

/-! ## What the invariant looks at -/

/-- The fields a program point's condition speaks of. -/
def State.view (s : State) : Memory Node × Memory CodeEntry × Bool × NodeIdx × List Frame × NodeIdx × NodeIdx :=
  (s.ns, s.ct, s.treeValid, s.nodeCount, s.stack, s.alloc, s.pos)

theorem PointOk.congr {s t : State} {op : Opcode} {k : Point} (hk : PointOk s op k) (h : t.view = s.view) :
    PointOk t op k := by
  simp only [State.view, Prod.mk.injEq] at h
  obtain ⟨hns, hct, htv, hnc, hst, hal, hpos⟩ := h
  induction k with
  | recv left v who =>
    cases who <;> simpa only [PointOk, NoTree, AtInternal, hns, hct, htv, hnc, hst, hal, hpos] using hk
  | starved who => cases who <;> simpa only [PointOk, NoTree, hct, htv, hnc] using hk
  | send bits next ih => exact ⟨hk.1, ih hk.2⟩
  | drain rest next ih => exact ⟨hk.1, ih hk.2⟩
  | parseRet | walk | walkRet | loadDone | emit | emitRet =>
    simpa only [PointOk, NoTree, Parsed, hns, hct, htv, hnc, hst, hal] using hk
  | _ => exact hk

/-- The fields the invariant looks at, but for DONE. -/
def State.guarded (s : State) :=
  (s.view, s.eng, s.op, s.err, s.boutValid, s.soutValid)

/-- What the invariant does not look at may change, and DONE may be cleared. -/
theorem Inv.congr {s t : State} (h : Inv s) (hg : t.guarded = s.guarded) (hd : t.done = true → s.done = true) :
    Inv t := by
  have hv : t.view = s.view := congrArg Prod.fst hg
  simp only [State.guarded, State.view, Prod.mk.injEq] at hg
  obtain ⟨⟨hns, hct, htv, hnc, hst, -, -⟩, heng, hop, herr, hb, ho⟩ := hg
  refine ⟨hns ▸ h.nsWf, hct ▸ h.ctWf, ?_, ?_, ?_, ?_, hst ▸ h.depth, ?_⟩
  · simpa only [State.draining, hb, heng] using h.bout
  · simpa only [State.drainingSym, ho, heng] using h.sout
  · intro hi
    have hidle := h.idle (heng ▸ hi)
    rw [herr]
    cases hdt : t.done with
    | false => rfl
    | true => rwa [hd hdt] at hidle
  · intro op k hk
    obtain ⟨hops, hds, herrs, hneed, hks⟩ := h.running op k (heng ▸ hk)
    exact ⟨hop ▸ hops, by simpa using mt hd (by simp [hds]), herr ▸ herrs, htv ▸ hneed, hks.congr hv⟩
  · simpa only [State.building, Loaded, NoTree, hns, hct, htv, hnc, heng] using h.tree

/-- A tree is loaded, or there is none: the last clause of the invariant while no code table is being built. -/
def TreeOk (s : State) : Prop := (∃ t, Loaded s t) ∨ NoTree s

/-- The invariant of an idle block. -/
theorem inv_of_idle {s : State} (he : s.eng = .idle) (hn : Memory.wf Node.unwritten s.ns = true)
    (hc : Memory.wf CodeEntry.unwritten s.ct = true) (hb : s.boutValid = false) (ho : s.soutValid = false)
    (hd : (s.done && s.err) = false) (hst : s.stack.length ≤ 256) (ht : TreeOk s) : Inv s where
  nsWf := hn
  ctWf := hc
  bout := by simp [State.draining, he, hb]
  sout := by simp [State.drainingSym, he, ho]
  idle _ := hd
  running op k h := by simp [he] at h
  depth := hst
  tree := .inr ht

/-! ## A running command -/

variable {s t : State} {op : Opcode} {k : Point}

/-- The points at which no output beat is pending. -/
def Point.quiet : Point → Bool
  | .drain _ _ => false
  | .drainSym => false
  | _ => true

/-- The points at which TREE_LOAD builds the code table. -/
def Point.builds : Point → Bool
  | .walk _ _ => true
  | .walkRet => true
  | .loadDone => true
  | _ => false

theorem building_eq (he : s.eng = .run op k) : s.building = k.builds := by
  cases k <;> simp [State.building, Point.builds, he]

theorem draining_of_quiet (he : s.eng = .run op k) (hq : k.quiet = true) :
    s.draining = false ∧ s.drainingSym = false := by
  cases k <;> simp_all [State.draining, State.drainingSym, Point.quiet]

/-- The invariant of a running block. -/
theorem inv_of_run (he : s.eng = .run op k) (hn : Memory.wf Node.unwritten s.ns = true)
    (hc : Memory.wf CodeEntry.unwritten s.ct = true) (hb : s.boutValid = s.draining) (ho : s.soutValid = s.drainingSym)
    (hop : op = s.op) (hd : s.done = false) (herr : s.err = true → k = .clear)
    (hneed : needsTree op = true → s.treeValid = true) (hk : PointOk s op k) (hst : s.stack.length ≤ 256)
    (ht : k.builds = true ∨ TreeOk s) : Inv s where
  nsWf := hn
  ctWf := hc
  bout := hb
  sout := ho
  idle h := by simp [he] at h
  running op' k' h := by
    obtain ⟨rfl, rfl⟩ : op = op' ∧ k = k' := by simpa [he] using h
    exact ⟨hop, hd, herr, hneed, hk⟩
  depth := hst
  tree := by rwa [← building_eq he] at ht

/-- What the invariant says of a running command past CLEAR's updates, whatever its program point. -/
def Runs (s : State) (op : Opcode) : Prop :=
  (∃ k, s.eng = .run op k) ∧ op = s.op ∧ s.done = false ∧ s.err = false ∧
    (needsTree op = true → s.treeValid = true) ∧ Memory.wf Node.unwritten s.ns = true ∧
    Memory.wf CodeEntry.unwritten s.ct = true ∧ s.stack.length ≤ 256

/-- What the invariant says of a running command at every quiet point. -/
def Steady (s : State) (op : Opcode) : Prop := Runs s op ∧ s.boutValid = false ∧ s.soutValid = false

theorem Inv.pointOk (h : Inv s) (he : s.eng = .run op k) : PointOk s op k := by
  obtain ⟨-, -, -, -, hk⟩ := h.running op k he
  exact hk

theorem Inv.treeOk (h : Inv s) (he : s.eng = .run op k) (hk : k.builds = false := by rfl) : TreeOk s :=
  h.tree.resolve_left (by simp [building_eq he, hk])

theorem Inv.runs (h : Inv s) (he : s.eng = .run op k) (hk : k ≠ .clear) : Runs s op := by
  obtain ⟨hop, hd, herr, hneed, -⟩ := h.running op k he
  exact ⟨⟨k, he⟩, hop, hd, by simpa using mt herr hk, hneed, h.nsWf, h.ctWf, h.depth⟩

theorem Inv.ports (h : Inv s) (he : s.eng = .run op k) (hq : k.quiet = true := by rfl) :
    s.boutValid = false ∧ s.soutValid = false := by
  obtain ⟨hb, ho⟩ := draining_of_quiet he hq
  exact ⟨h.bout.trans hb, h.sout.trans ho⟩

theorem Inv.steady (h : Inv s) (he : s.eng = .run op k) (hk : k ≠ .clear := by nofun)
    (hq : k.quiet = true := by rfl) : Steady s op := ⟨h.runs he hk, h.ports he hq⟩

/-- A running command goes on at point k. -/
theorem Runs.inv_goto (h : Runs s op) (hk : PointOk s op k) (ht : k.builds = true ∨ TreeOk s)
    (hb : s.boutValid = State.draining { s with eng := .run op k })
    (ho : s.soutValid = State.drainingSym { s with eng := .run op k }) : Inv (s.goto k) := by
  obtain ⟨⟨j, he⟩, hop, hd, herr, hneed, hn, hc, hst⟩ := h
  have hg : s.goto k = { s with eng := .run op k } := by simp [State.goto, he]
  rw [hg]
  exact inv_of_run rfl hn hc hb ho hop hd (by simp [herr]) hneed (hk.congr rfl) hst ht

namespace Steady

/-- A running command goes on at a quiet point. -/
theorem inv_goto (h : Steady s op) (hk : PointOk s op k) (ht : k.builds = true ∨ TreeOk s)
    (hq : k.quiet = true := by rfl) : Inv (s.goto k) := by
  obtain ⟨h, hb, ho⟩ := h
  obtain ⟨hb', ho'⟩ := draining_of_quiet (s := { s with eng := .run op k }) rfl hq
  exact h.inv_goto hk ht (hb.trans hb'.symm) (ho.trans ho'.symm)

/-- A running command ends with an error. -/
theorem inv_raise (h : Steady s op) (ht : TreeOk s) (e : Cause) (sub : BitVec 4) (esym : Symbol) :
    Inv (s.raise e sub esym) := by
  obtain ⟨⟨-, -, -, -, -, hn, hc, hst⟩, hb, ho⟩ := h
  exact inv_of_idle rfl hn hc hb ho rfl hst ht

/-- A running command ends with success. -/
theorem inv_complete (h : Steady s op) (ht : TreeOk s) : Inv s.complete := by
  obtain ⟨⟨-, -, -, herr, -, hn, hc, hst⟩, hb, ho⟩ := h
  exact inv_of_idle rfl hn hc hb ho (by simp [herr]) hst ht

theorem setStack (h : Steady s op) {fs : List Frame} (hfs : fs.length ≤ 256) :
    Steady { s with stack := fs } op := by
  obtain ⟨⟨he, hop, hd, herr, hneed, hn, hc, -⟩, hports⟩ := h
  exact ⟨⟨he, hop, hd, herr, hneed, hn, hc, hfs⟩, hports⟩

theorem setNs (h : Steady s op) {m : Memory Node} (hm : Memory.wf Node.unwritten m = true) :
    Steady { s with ns := m } op := by
  obtain ⟨⟨he, hop, hd, herr, hneed, -, hc, hst⟩, hports⟩ := h
  exact ⟨⟨he, hop, hd, herr, hneed, hm, hc, hst⟩, hports⟩

theorem setCt (h : Steady s op) {m : Memory CodeEntry} (hm : Memory.wf CodeEntry.unwritten m = true) :
    Steady { s with ct := m } op := by
  obtain ⟨⟨he, hop, hd, herr, hneed, hn, -, hst⟩, hports⟩ := h
  exact ⟨⟨he, hop, hd, herr, hneed, hn, hm, hst⟩, hports⟩

end Steady

/-- The invariant holds in the next state, if there is one. -/
def InvAfter : Res → Prop
  | .next t => Inv t
  | _ => True

/-! ## The actions at the ports -/

theorem quiet_of_afterSend (h : k.afterSend = true) : k.quiet = true := by
  cases k <;> simp_all [Point.afterSend, Point.quiet]

theorem actSend_keeps {bits : Bits} {next : Point} (h : Inv s) (he : s.eng = .run op (.send bits next)) :
    InvAfter (actSend bits next s) := by
  obtain ⟨hnext, hk⟩ := h.pointOk he
  cases bits with
  | nil => exact (h.steady he).inv_goto hk (.inr (h.treeOk he)) (quiet_of_afterSend hnext)
  | cons b rest =>
    obtain ⟨hr, -, ho⟩ := h.steady he
    have hr' : Runs (s.offerBit b) op := hr
    exact hr'.inv_goto (k := .drain rest next) ⟨hnext, hk.congr rfl⟩ (.inr (h.treeOk he)) rfl ho

theorem actDrain_keeps {rest : Bits} {next : Point} (h : Inv s) (he : s.eng = .run op (.drain rest next)) :
    InvAfter (actDrain rest next s) := by
  obtain ⟨hnext, hk⟩ := h.pointOk he
  have ho : s.soutValid = false := by simp [h.sout, State.drainingSym, he]
  have hs : Steady s.sendBit op := ⟨h.runs he (by simp), rfl, ho⟩
  unfold actDrain
  split
  · exact hs.inv_goto (k := .send rest next) ⟨hnext, hk.congr rfl⟩ (.inr (h.treeOk he))
  · exact h

theorem actPut_keeps {v : Byte} (h : Inv s) (he : s.eng = .run op (.put v)) : InvAfter (actPut v s) := by
  obtain ⟨hr, hb, -⟩ := h.steady he
  have hr' : Runs (s.offerSym v) op := hr
  exact hr'.inv_goto (k := .drainSym) (h.pointOk he) (.inr (h.treeOk he)) hb rfl

theorem actDrainSym_keeps (h : Inv s) (he : s.eng = .run op .drainSym) : InvAfter (actDrainSym s) := by
  have hb : s.boutValid = false := by simp [h.bout, State.draining, he]
  have hs : Steady s.sendSym op := ⟨h.runs he (by simp), hb, rfl⟩
  unfold actDrainSym
  split
  · exact hs.inv_goto (k := .decode) (h.pointOk he) (.inr (h.treeOk he))
  · exact h

/-- While bits are read, the reader's condition holds at every number of bits left, and where no bit comes. -/
theorem PointOk.recv_next {n : Nat} {v w : Word} {who : Reader} (h : PointOk s op (.recv (n + 1) v who)) :
    PointOk s op (.recv n w who) ∧ PointOk s op (.starved who) := by
  cases who with
  | tag =>
    obtain ⟨hop, hl, hn, ha, hp⟩ := h
    exact ⟨⟨hop, by omega, hn, ha, hp⟩, hop, hn⟩
  | symbol idx =>
    obtain ⟨hop, hl, hn, ha, hp⟩ := h
    exact ⟨⟨hop, by omega, hn, ha, hp⟩, hop, hn⟩
  | code =>
    obtain ⟨hop, hl, hp⟩ := h
    exact ⟨⟨hop, by omega, hp⟩, hop⟩
  | magic =>
    obtain ⟨hop, hl⟩ := h
    exact ⟨⟨hop, by omega⟩, hop⟩

theorem actRecvBit_keeps {n : Nat} {v : Word} {who : Reader} (h : Inv s) (he : s.eng = .run op (.recv (n + 1) v who)) :
    InvAfter (actRecvBit n v who s) := by
  have hk := h.pointOk he
  have hs := h.steady he
  unfold actRecvBit
  split
  · exact h
  · obtain ⟨-, hstarved⟩ := hk.recv_next (w := v)
    exact hs.inv_goto hstarved (.inr (h.treeOk he))
  · rename_i b _
    obtain ⟨hrecv, -⟩ := hk.recv_next (w := shiftIn v b)
    have hs' : Steady s.takeBit op := hs
    exact hs'.inv_goto (hrecv.congr rfl) (.inr (h.treeOk he))

theorem actStarved_keeps {who : Reader} (h : Inv s) (he : s.eng = .run op (.starved who)) :
    InvAfter (actStarved who s) := by
  have hr := (h.steady he).inv_raise (h.treeOk he)
  cases who with
  | tag | symbol | code | magic => exact hr _ _ _

/-! ## The actions of ENCODE, DECODE and the header -/

theorem actReadSym_keeps (h : Inv s) (he : s.eng = .run op .encode) : InvAfter (actReadSym s) := by
  have hop : op = 0x4#4 := h.pointOk he
  have hs := h.steady he
  unfold actReadSym
  split
  · exact h
  · exact hs.inv_goto (k := .gotSym none) hop (.inr (h.treeOk he))
  · have hs' : Steady s.takeSym op := hs
    exact hs'.inv_goto (k := .gotSym _) hop (.inr (h.treeOk he))

theorem actEmitCode_keeps {sym : Symbol} {next : Point} (h : Steady s op) (ht : TreeOk s)
    (hn : next.afterSend = true) (hk : PointOk s op next) : InvAfter (actEmitCode sym next s) := by
  unfold actEmitCode
  split
  · exact h.inv_goto (k := .send _ next) ⟨hn, hk⟩ (.inr ht)
  · exact h.inv_raise ht _ _ _

theorem actGotSym_keeps {b : Option Byte} (h : Inv s) (he : s.eng = .run op (.gotSym b)) :
    InvAfter (actGotSym b s) := by
  obtain rfl : op = 0x4#4 := h.pointOk he
  cases b with
  | none => exact actEmitCode_keeps (h.steady he) (h.treeOk he) rfl ⟨by decide, by decide⟩
  | some v => exact actEmitCode_keeps (h.steady he) (h.treeOk he) rfl (by rfl)

/-- The entry of a laid-out leaf. -/
theorem node?_leaf {i : NodeIdx} {sym : Symbol} (h : Laid s.ns i.toNat (.leaf sym)) (hi : i.toNat < 513) :
    s.node? i = some (.leaf sym) := by
  rw [node?_eq rfl hi, h.1]

/-- The entry of a laid-out Internal node (spec/10_state.md R55). -/
theorem node?_node {i : NodeIdx} {l r : HTree} (h : Laid s.ns i.toNat (.node l r)) (hi : i.toNat < 513) :
    s.node? i = some (.internal (BitVec.ofNat 10 (i.toNat + 1)) (BitVec.ofNat 10 (i.toNat + 1 + l.size))) := by
  rw [node?_eq rfl hi, h.1]

/-- A command that needs a tree runs with a loaded one (spec/40_control.md R151). -/
theorem Steady.loaded (h : Steady s op) (ht : TreeOk s) (hop : needsTree op = true) : ∃ t, Loaded s t := by
  obtain ⟨⟨-, -, -, -, hneed, -⟩, -⟩ := h
  refine ht.resolve_right fun hno => ?_
  obtain ⟨htv, -, -⟩ := hno
  simp [hneed hop] at htv

/-- POS is a node of a laid-out tree: the walk of DECODE ends, outputs a byte, or stands at an Internal node (R260). -/
theorem actArrive_keeps {u : HTree} (h : Steady s 0x5#4) (ht : TreeOk s) (hu : Laid s.ns s.pos.toNat u)
    (hi : s.pos.toNat + u.size ≤ 513) : InvAfter (actArrive s) := by
  have hpos := u.size_pos
  unfold actArrive
  cases u with
  | leaf sym =>
    rw [node?_leaf hu (by omega)]
    dsimp only
    split
    · exact h.inv_goto (k := .finish) ⟨by decide, by decide⟩ (.inr ht)
    · exact h.inv_goto (k := .put _) rfl (.inr ht)
  | node l r =>
    rw [node?_node hu (by omega)]
    exact h.inv_goto (k := walkPoint) ⟨rfl, le_refl 1, l, r, hu, hi⟩ (.inr ht)

theorem actCodeBit_keeps {b : Bool} {n : Nat} {v : Word} (h : Inv s) (he : s.eng = .run op (.recv n v .code)) :
    InvAfter (actCodeBit b s) := by
  obtain ⟨rfl, -, l, r, hu, hi⟩ := h.pointOk he
  simp only [HTree.size, Config.nodeCap] at hi
  have hs := h.steady he
  have ht := h.treeOk he
  unfold actCodeBit
  rw [node?_node hu (by omega)]
  obtain ⟨-, hl, hr⟩ := hu
  obtain ⟨u, j, hj, hchild, hfits⟩ : ∃ (u : HTree) (j : NodeIdx),
      (if b then BitVec.ofNat 10 (s.pos.toNat + 1 + l.size) else BitVec.ofNat 10 (s.pos.toNat + 1)) = j ∧
        Laid s.ns j.toNat u ∧ j.toNat + u.size ≤ 513 := by
    cases b with
    | false =>
      refine ⟨l, BitVec.ofNat 10 (s.pos.toNat + 1), rfl, ?_⟩
      rw [toNat_ofNat10 (by omega)]
      exact ⟨hl, by omega⟩
    | true =>
      refine ⟨r, BitVec.ofNat 10 (s.pos.toNat + 1 + l.size), rfl, ?_⟩
      rw [toNat_ofNat10 (by omega)]
      exact ⟨hr, by omega⟩
  simp only [hj]
  exact actArrive_keeps (s := { s with pos := j }) hs ht hchild hfits

theorem actDecode_keeps (h : Inv s) (he : s.eng = .run op .decode) : InvAfter (actDecode s) := by
  obtain rfl : op = 0x5#4 := h.pointOk he
  have hs : Steady { s with pos := 0 } 0x5#4 := h.steady he
  have ht : TreeOk { s with pos := 0 } := h.treeOk he
  obtain ⟨u, hu, hsize, -⟩ := hs.loaded ht rfl
  have hi : (0 : NodeIdx).toNat < 513 := by decide
  unfold actDecode
  dsimp only
  cases u with
  | leaf sym =>
    rw [node?_leaf (sym := sym) hu hi]
    dsimp only
    split
    · exact hs.inv_goto (k := .finish) ⟨by decide, by decide⟩ (.inr ht)
    · exact hs.inv_raise ht _ _ _
  | node l r =>
    rw [node?_node (l := l) (r := r) hu hi]
    exact hs.inv_goto (k := walkPoint) ⟨rfl, le_refl 1, l, r, hu, by simpa using hsize⟩ (.inr ht)

theorem actMagic_keeps {n : Nat} {v w : Word} (h : Inv s) (he : s.eng = .run op (.recv n v .magic)) :
    InvAfter (actMagic w s) := by
  obtain ⟨rfl, -⟩ := h.pointOk he
  have hs := h.steady he
  unfold actMagic
  split
  · exact hs.inv_goto (k := .finish) ⟨by decide, by decide⟩ (.inr (h.treeOk he))
  · exact hs.inv_raise (h.treeOk he) _ _ _

/-! ## Parse -/

theorem ParseStack.mono {ns : Memory Node} {fs : List Frame} {n m : Nat} (h : ParseStack ns fs n) (hnm : n ≤ m) :
    ParseStack ns fs m := by
  cases fs with
  | nil => trivial
  | cons f fs =>
    obtain ⟨hr, hl, hfs⟩ := h
    exact ⟨hr.trans hnm, hl, hfs⟩

/-- A write at the next subtree or after it leaves the parser's stack alone. -/
theorem ParseStack.write {ns : Memory Node} (hw : Memory.wf Node.unwritten ns = true) {fs : List Frame} {n a : Nat}
    {e : Node} (h : ParseStack ns fs n) (ha : n ≤ a) : ParseStack (Memory.write Node.unwritten ns a e) fs n := by
  induction fs generalizing n with
  | nil => trivial
  | cons f fs ih =>
    obtain ⟨hr, ⟨t, ht, hsize⟩, hfs⟩ := h
    exact ⟨hr, ⟨t, ht.write hw (by omega), hsize⟩, ih hfs (by omega)⟩

/-- A subtree that is no right child starts after the index before it too: its Internal node's (R201; log 6). -/
theorem ParseStack.pred {ns : Memory Node} {fs : List Frame} {n : Nat} (h : ParseStack ns fs n)
    (hn : parseBase fs ≠ n) : ParseStack ns fs (n - 1) := by
  cases fs with
  | nil => trivial
  | cons f fs =>
    obtain ⟨hr, hl, hfs⟩ := h
    simp only [parseBase] at hn
    exact ⟨by omega, hl, hfs⟩

/-- The right subtree that is being parsed starts at the next subtree or before it. -/
theorem ParseStack.base_le {ns : Memory Node} {fs : List Frame} {n : Nat} (h : ParseStack ns fs n) :
    parseBase fs ≤ n := by
  cases fs with
  | nil => exact Nat.zero_le n
  | cons f fs => exact h.1

theorem toNat_succ10 {n : NodeIdx} (h : n.toNat < 513) : (n + 1).toNat = n.toNat + 1 := by
  bv_omega

theorem actTag_keeps {b : Bool} {n : Nat} {v : Word} (h : Inv s) (he : s.eng = .run op (.recv n v .tag)) :
    InvAfter (actTag b s) := by
  obtain ⟨rfl, -, hno, (ha : s.alloc.toNat ≤ 513), hp⟩ := h.pointOk he
  have hs := h.steady he
  have hs' : Steady { s with alloc := s.alloc + 1 } 0x2#4 := hs
  unfold actTag
  split
  · exact hs.inv_raise (h.treeOk he) _ _ _
  have hne : s.alloc.toNat ≠ 513 := ‹_›
  have hsucc := toNat_succ10 (n := s.alloc) (by omega)
  have hfits : (s.alloc + 1).toNat ≤ 513 := by omega
  split
  · have hp' : ParseStack s.ns s.stack (s.alloc + 1).toNat := hp.mono (by omega)
    exact hs'.inv_goto (k := parsePoint) ⟨rfl, le_refl 1, hno, hfits, hp'⟩ (.inr (.inr hno))
  · exact hs'.inv_goto (k := .recv 9 0 (.symbol s.alloc)) ⟨rfl, le_refl 9, hno, hfits, hsucc, hp⟩ (.inr (.inr hno))

theorem actSymbol_keeps {idx : NodeIdx} {n : Nat} {v : Word} {sym : Symbol} (h : Inv s)
    (he : s.eng = .run op (.recv n v (.symbol idx))) : InvAfter (actSymbol idx sym s) := by
  obtain ⟨rfl, -, hno, (ha : s.alloc.toNat ≤ 513), hidx, hp⟩ := h.pointOk he
  have hs := h.steady he
  unfold actSymbol
  split
  · exact hs.inv_raise (h.treeOk he) _ _ _
  · rw [setNode?_eq rfl (by omega)]
    have hs' := hs.setNs (Memory.wf_write h.nsWf idx.toNat (.leaf sym))
    have hleaf : Laid (Memory.write Node.unwritten s.ns idx.toNat (.leaf sym)) idx.toNat (.leaf sym) :=
      ⟨Memory.read_write_same h.nsWf _ _, by omega⟩
    exact hs'.inv_goto (k := .parseRet idx) ⟨rfl, hno, ha, ⟨_, hleaf, hidx⟩, hp.write h.nsWf le_rfl⟩ (.inr (.inr hno))

/-- A left child at idx is complete: its Internal node takes a frame, and the right child is parsed. -/
theorem actParseRight_keeps {idx : NodeIdx} (h : Inv s) (he : s.eng = .run op (.parseRet idx))
    (hidx : parseBase s.stack ≠ idx.toNat) : InvAfter (actParseRight idx s) := by
  obtain ⟨rfl, hno, (ha : s.alloc.toNat ≤ 513), ⟨t, ht, hsize⟩, hp⟩ := h.pointOk he
  have hbase := hp.base_le
  have hpred : (idx - 1).toNat = idx.toNat - 1 := by bv_omega
  have hsucc : (idx - 1).toNat + 1 = idx.toNat := by omega
  have hright : s.alloc.toNat = (idx - 1).toNat + 1 + t.size := by omega
  have hstack : ParseStack s.ns (⟨idx - 1, s.alloc, []⟩ :: s.stack) s.alloc.toNat :=
    ⟨le_rfl, ⟨t, hsucc.symm ▸ ht, hright⟩, hpred.symm ▸ hp.pred hidx⟩
  have hdepth := hstack.depth
  have hs := (h.steady he).setStack (fs := ⟨idx - 1, s.alloc, []⟩ :: s.stack) (by omega)
  exact hs.inv_goto (k := parsePoint) ⟨rfl, le_refl 1, hno, ha, hstack⟩ (.inr (.inr hno))

/-- Writing an Internal node in front of its two subtrees lays out the whole tree (R201). -/
theorem laid_node {ns : Memory Node} (hw : Memory.wf Node.unwritten ns = true) {i j : NodeIdx} {l r : HTree}
    (hl : Laid ns (i.toNat + 1) l) (hj : j.toNat = i.toNat + 1 + l.size) (hr : Laid ns j.toNat r) :
    Laid (Memory.write Node.unwritten ns i.toNat (.internal (i + 1) j)) i.toNat (.node l r) := by
  have hi1 : i + 1 = BitVec.ofNat 10 (i.toNat + 1) := by simp [BitVec.ofNat_add]
  have hj1 : j = BitVec.ofNat 10 (i.toNat + 1 + l.size) := by simp [← hj]
  refine ⟨?_, hl.write hw (by omega), hj ▸ hr.write hw (by omega)⟩
  rw [Memory.read_write_same hw, ← hi1, ← hj1]

theorem actParseRet_keeps {idx : NodeIdx} (h : Inv s) (he : s.eng = .run op (.parseRet idx)) :
    InvAfter (actParseRet idx s) := by
  have hright := actParseRight_keeps h he
  obtain ⟨rfl, hno, (ha : s.alloc.toNat ≤ 513), ⟨t, ht, hsize⟩, hp⟩ := h.pointOk he
  have hs := h.steady he
  unfold actParseRet
  split
  · rename_i hst
    split
    · rename_i h0
      subst h0
      have hzero : (0 : NodeIdx).toNat = 0 := rfl
      have hfits : 0 + t.size ≤ 513 := by omega
      have halloc : s.alloc = BitVec.ofNat 10 t.size := by bv_omega
      obtain ⟨htv, hnc, hct⟩ := hno
      have hwalk : WalkStack s.ns s.stack (0 + t.size) (t.record [] s.ct) t.codeTable := by
        rw [hst, hct]
        exact ⟨hfits, rfl⟩
      have hparsed : Parsed s t := ⟨htv, hnc, ht, by simpa using hfits, halloc⟩
      exact hs.inv_goto (k := .walk 0 []) ⟨rfl, by simp [hst], t, hparsed, t, ht, hwalk⟩ (.inl rfl)
    · rename_i h0
      exact hright (by rw [hst]; exact fun hc => h0 (BitVec.eq_of_toNat_eq hc.symm))
  · rename_i f fs hst
    rw [hst] at hp
    obtain ⟨hr, ⟨l, hl, hlsize⟩, hfs⟩ := hp
    split
    · rename_i hidx
      subst hidx
      rw [setNode?_eq rfl (by omega)]
      have hdepth := hfs.depth
      have hs' := (hs.setNs (Memory.wf_write h.nsWf f.node.toNat (.internal (f.node + 1) f.right))).setStack
        (fs := fs) (by omega)
      have hnode := laid_node h.nsWf hl hlsize ht
      have hsize' : s.alloc.toNat = f.node.toNat + (HTree.node l t).size := by
        simp only [HTree.size]
        omega
      exact hs'.inv_goto (k := .parseRet f.node) ⟨rfl, hno, ha, ⟨_, hnode, hsize'⟩, hfs.write h.nsWf le_rfl⟩
        (.inr (.inr hno))
    · rename_i hidx
      exact hright (by rw [hst]; exact fun hc => hidx (BitVec.eq_of_toNat_eq hc.symm))

/-! ## Walk and Emit -/

/-- Going to the left child, Walk keeps the right one (R203). -/
theorem WalkStack.push {ns : Memory Node} {fs : List Frame} {i : Nat} {p : Bits} {l r : HTree}
    {ct goal : Memory CodeEntry} (hr : Laid ns (i + 1 + l.size) r)
    (h : WalkStack ns fs (i + (HTree.node l r).size) ((HTree.node l r).record p ct) goal) :
    WalkStack ns (⟨BitVec.ofNat 10 (i + 1 + l.size), 0, p ++ [true]⟩ :: fs) (i + 1 + l.size)
      (l.record (p ++ [false]) ct) goal := by
  have hdepth := h.depth
  rw [show i + (HTree.node l r).size = i + 1 + l.size + r.size by simp only [HTree.size]; omega] at h hdepth
  exact ⟨toNat_ofNat10 (by omega), r, hr, h⟩

/-- Going to the left child, Emit keeps the right one (R210). -/
theorem EmitStack.push {ns : Memory Node} {fs : List Frame} {i : Nat} {l r : HTree}
    (hr : Laid ns (i + 1 + l.size) r) (h : EmitStack ns fs (i + (HTree.node l r).size)) :
    EmitStack ns (⟨BitVec.ofNat 10 (i + 1 + l.size), 0, []⟩ :: fs) (i + 1 + l.size) := by
  have hdepth := h.depth
  rw [show i + (HTree.node l r).size = i + 1 + l.size + r.size by simp only [HTree.size]; omega] at h hdepth
  exact ⟨toNat_ofNat10 (by omega), r, hr, h⟩

/-- The code table has an entry for every symbol that TREE_LOAD stores (spec/10_state.md R58). -/
theorem setCode?_eq {sym : Symbol} {p : Bits} (h : sym.toNat ≤ 256) :
    s.setCode? sym p = some { s with ct := Memory.write CodeEntry.unwritten s.ct sym.toNat ⟨true, p⟩ } :=
  if_pos (Nat.lt_succ_of_le h)

theorem actWalk_keeps {i : NodeIdx} {p : Bits} (h : Inv s) (he : s.eng = .run op (.walk i p)) :
    InvAfter (actWalk i p s) := by
  obtain ⟨rfl, hlen, t, hparsed, u, hu, hw⟩ := h.pointOk he
  have hs := h.steady he
  have hdepth := hw.depth
  have hpos := u.size_pos
  unfold actWalk
  cases u with
  | leaf sym =>
    obtain ⟨-, hsym⟩ := id hu
    rw [node?_leaf hu (by omega)]
    simp only [setCode?_eq hsym]
    have hlen' : s.stack.length ≤ i.toNat + (HTree.leaf sym).size := by omega
    have hs' := hs.setCt (Memory.wf_write h.ctWf sym.toNat ⟨true, p⟩)
    exact hs'.inv_goto (k := .walkRet) ⟨rfl, t, hparsed, _, hlen', hw⟩ (.inl rfl)
  | node l r =>
    obtain ⟨-, hl, hr⟩ := id hu
    have hw' := hw.push hr
    have hdepth' := hw'.depth
    rw [List.length_cons] at hdepth'
    rw [node?_node hu (by omega)]
    have hi1 := toNat_ofNat10 (n := i.toNat + 1) (by omega)
    have hlen' : s.stack.length + 1 ≤ (BitVec.ofNat 10 (i.toNat + 1)).toNat := by omega
    have hs' := hs.setStack (fs := ⟨BitVec.ofNat 10 (i.toNat + 1 + l.size), 0, p ++ [true]⟩ :: s.stack)
      (by rw [List.length_cons]; omega)
    exact hs'.inv_goto (k := .walk _ _) ⟨rfl, hlen', t, hparsed, l, hi1.symm ▸ hl, hi1.symm ▸ hw'⟩ (.inl rfl)

theorem actWalkRet_keeps (h : Inv s) (he : s.eng = .run op .walkRet) : InvAfter (actWalkRet s) := by
  obtain ⟨rfl, t, hparsed, n, hlen, hw⟩ := h.pointOk he
  have hs := h.steady he
  unfold actWalkRet
  split
  · rename_i hst
    rw [hst] at hw
    exact hs.inv_goto (k := .loadDone) ⟨rfl, t, hparsed, hw.2⟩ (.inl rfl)
  · rename_i f fs hst
    rw [hst] at hw hlen
    obtain ⟨rfl, u, hu, hfs⟩ := hw
    have hdepth := h.depth
    rw [hst, List.length_cons] at hdepth
    have hs' := hs.setStack (fs := fs) (by omega)
    exact hs'.inv_goto (k := .walk f.node f.path) ⟨rfl, Nat.le_of_succ_le hlen, t, hparsed, u, hu, hfs⟩ (.inl rfl)

theorem actLoadDone_keeps (h : Inv s) (he : s.eng = .run op .loadDone) : InvAfter (actLoadDone s) := by
  obtain ⟨rfl, t, ⟨-, -, ht, hsize, halloc⟩, hct⟩ := h.pointOk he
  obtain ⟨⟨hrun, hop, hd, herr, -, hmem⟩, hports⟩ := h.steady he
  have hs : Steady { s with nodeCount := s.alloc, treeValid := true } 0x2#4 :=
    ⟨⟨hrun, hop, hd, herr, fun _ => rfl, hmem⟩, hports⟩
  exact hs.inv_goto (k := .finish) ⟨by decide, by decide⟩ (.inr (.inl ⟨t, ht, hsize, halloc, hct, rfl⟩))

theorem actEmitRoot_keeps (h : Inv s) (he : s.eng = .run op .emitRoot) : InvAfter (actEmitRoot s) := by
  obtain rfl : op = 0x3#4 := h.pointOk he
  have ht := h.treeOk he
  have hs := h.steady he
  obtain ⟨u, hu, hsize, -⟩ := hs.loaded ht rfl
  have hstack : EmitStack s.ns [] (0 + u.size) := (Nat.zero_add u.size).symm ▸ hsize
  exact (hs.setStack (fs := []) (by decide)).inv_goto (k := .emit 0) ⟨rfl, Nat.zero_le _, u, hu, hstack⟩ (.inr ht)

theorem actEmit_keeps {i : NodeIdx} (h : Inv s) (he : s.eng = .run op (.emit i)) : InvAfter (actEmit i s) := by
  obtain ⟨rfl, hlen, u, hu, hstack⟩ := h.pointOk he
  have hs := h.steady he
  have hdepth := hstack.depth
  have hpos := u.size_pos
  unfold actEmit
  cases u with
  | leaf sym =>
    rw [node?_leaf hu (by omega)]
    exact hs.inv_goto (k := .send _ .emitRet) ⟨rfl, rfl, _, by omega, hstack⟩ (.inr (h.treeOk he))
  | node l r =>
    obtain ⟨-, hl, hr⟩ := id hu
    have hstack' := hstack.push hr
    have hdepth' := hstack'.depth
    rw [List.length_cons] at hdepth'
    rw [node?_node hu (by omega)]
    have hi1 := toNat_ofNat10 (n := i.toNat + 1) (by omega)
    have hlen' : s.stack.length + 1 ≤ (BitVec.ofNat 10 (i.toNat + 1)).toNat := by omega
    have hs' := hs.setStack (fs := ⟨BitVec.ofNat 10 (i.toNat + 1 + l.size), 0, []⟩ :: s.stack)
      (by rw [List.length_cons]; omega)
    exact hs'.inv_goto (k := .send _ (.emit _)) ⟨rfl, rfl, hlen', l, hi1.symm ▸ hl, hi1.symm ▸ hstack'⟩
      (.inr (h.treeOk he))

theorem actEmitRet_keeps (h : Inv s) (he : s.eng = .run op .emitRet) : InvAfter (actEmitRet s) := by
  obtain ⟨rfl, n, hlen, hstack⟩ := h.pointOk he
  have hs := h.steady he
  unfold actEmitRet
  split
  · exact hs.inv_goto (k := .finish) ⟨by decide, by decide⟩ (.inr (h.treeOk he))
  · rename_i f fs hst
    rw [hst] at hstack hlen
    obtain ⟨rfl, u, hu, hfs⟩ := hstack
    have hdepth := h.depth
    rw [hst, List.length_cons] at hdepth
    have hs' := hs.setStack (fs := fs) (by omega)
    exact hs'.inv_goto (k := .emit f.node) ⟨rfl, Nat.le_of_succ_le hlen, u, hu, hfs⟩ (.inr (h.treeOk he))

/-! ## Every action, command, host statement and step -/

theorem actLoad_keeps (h : Inv s) (he : s.eng = .run op .load) : InvAfter (actLoad s) := by
  obtain rfl : op = 0x2#4 := h.pointOk he
  obtain ⟨⟨hrun, hop, hd, herr, -, hn, -, -⟩, hports⟩ := h.steady he
  have hs : Steady { s.dropTree with alloc := 0, stack := [] } 0x2#4 :=
    ⟨⟨hrun, hop, hd, herr, fun hc => absurd hc (by decide), hn, rfl, Nat.zero_le _⟩, hports⟩
  have hno : NoTree { s.dropTree with alloc := 0, stack := [] } := ⟨rfl, rfl, rfl⟩
  exact hs.inv_goto (k := parsePoint) ⟨rfl, le_refl 1, hno, Nat.zero_le _, trivial⟩ (.inr (.inr hno))

theorem actClear_keeps (h : Inv s) (he : s.eng = .run op .clear) : InvAfter (actClear s) := by
  obtain rfl : op = 0x1#4 := h.pointOk he
  obtain ⟨hop, hd, -, -, -⟩ := h.running _ _ he
  have hs : Steady s.dropTree.leaveError 0x1#4 :=
    ⟨⟨⟨_, he⟩, hop, hd, rfl, fun hc => absurd hc (by decide), h.nsWf, rfl, h.depth⟩, h.ports he⟩
  exact hs.inv_goto (k := .finish) ⟨by decide, by decide⟩ (.inr (.inr ⟨rfl, rfl, rfl⟩))

theorem actReceived_keeps {v : Word} {who : Reader} (h : Inv s) (he : s.eng = .run op (.recv 0 v who)) :
    InvAfter (actReceived v who s) := by
  cases who with
  | tag => exact actTag_keeps h he
  | symbol idx => exact actSymbol_keeps h he
  | code => exact actCodeBit_keeps h he
  | magic => exact actMagic_keeps h he

theorem act_keeps (h : Inv s) (he : s.eng = .run op k) : InvAfter (act k s) := by
  cases k with
  | clear => exact actClear_keeps h he
  | load => exact actLoad_keeps h he
  | recv left v who =>
    cases left with
    | zero => exact actReceived_keeps h he
    | succ n => exact actRecvBit_keeps h he
  | starved who => exact actStarved_keeps h he
  | parseRet idx => exact actParseRet_keeps h he
  | walk i p => exact actWalk_keeps h he
  | walkRet => exact actWalkRet_keeps h he
  | loadDone => exact actLoadDone_keeps h he
  | emitRoot => exact actEmitRoot_keeps h he
  | emit i => exact actEmit_keeps h he
  | emitRet => exact actEmitRet_keeps h he
  | send bits next => exact actSend_keeps h he
  | drain rest next => exact actDrain_keeps h he
  | encode => exact actReadSym_keeps h he
  | gotSym b => exact actGotSym_keeps h he
  | decode => exact actDecode_keeps h he
  | put v => exact actPut_keeps h he
  | drainSym => exact actDrainSym_keeps h he
  | hdrWrite =>
    obtain rfl : op = 0x6#4 := h.pointOk he
    exact (h.steady he).inv_goto (k := .send _ .finish) ⟨rfl, by decide, by decide⟩ (.inr (h.treeOk he))
  | hdrCheck =>
    exact (h.steady he).inv_goto (k := .recv 32 0 .magic) ⟨h.pointOk he, le_refl 32⟩ (.inr (h.treeOk he))
  | finish => exact (h.steady he).inv_complete (h.treeOk he)

theorem inv_engineStep (h : Inv s) (ht : engineStep s = .next t) : Inv t := by
  cases he : s.eng with
  | idle =>
    rw [engineStep_idle he] at ht
    cases ht
    exact h
  | run op k =>
    have hk := act_keeps h he
    rwa [← engineStep_run he, ht] at hk

theorem inv_afterEvent (h : Inv s) (ht : afterEvent s = .next t) : Inv t :=
  engineRun_keeps (fun _ _ => inv_engineStep) h ht

/-- The invariant holds after reset (spec/10_state.md R65). -/
theorem inv_resetIn (m : Word) (e : Env) : Inv (State.resetIn m e) :=
  inv_of_idle rfl rfl rfl rfl rfl rfl (Nat.zero_le _) (.inr ⟨rfl, rfl, rfl⟩)

theorem inv_setEnv (h : Inv s) (e : Env) : Inv { s with env := e } := h.congr rfl id

theorem inv_regWrite (h : Inv s) (off : Offset) (w : Word) : Inv (s.regWrite off w) := by
  rcases regWrite_cases s off w with hw | hw | hw | ⟨hw, -⟩ | hw | hw | hw <;> rw [hw]
  · exact h.congr rfl (by simp +contextual)
  · exact h.congr rfl id
  · exact inv_resetIn _ _
  · exact h.congr rfl id
  · exact h.congr rfl id
  · exact h.congr rfl id
  · exact h

/-- While no command runs, no output beat is pending and no code table is being built. -/
theorem Inv.not_busy (h : Inv s) (hb : s.busy = false) : s.boutValid = false ∧ s.soutValid = false ∧ TreeOk s := by
  have he : s.eng = .idle := by
    by_contra hc
    simp [busy_iff.mpr hc] at hb
  exact ⟨by simp [h.bout, State.draining, he], by simp [h.sout, State.drainingSym, he],
    h.tree.resolve_left (by simp [State.building, he])⟩

/-- Where the pseudocode of a command may start (spec/40_control.md R151). -/
def StartOk (op : Opcode) (k : Point) : Prop :=
  (∀ s, PointOk s op k) ∧ (op = 0x1#4 → k = .clear) ∧ k.quiet = true

/-- The event of a CMD write keeps the invariant, if a command that it starts may start there. -/
theorem inv_request {legal : Bool} (h : Inv s) (hstart : legal = true → op ≠ 0x0#4 → StartOk op k) :
    Inv (s.request op legal k) := by
  have hraise : s.busy = false → ∀ e sub esym, Inv ((s.begun op).raise e sub esym) := fun hb e sub esym => by
    obtain ⟨hbv, hov, ht⟩ := h.not_busy hb
    exact inv_of_idle rfl h.nsWf h.ctWf hbv hov rfl h.depth ht
  rcases request_cases s op legal k with
    ⟨hr, -⟩ | ⟨hr, -⟩ | ⟨hr, hb, -⟩ | ⟨hr, hb, -⟩ | ⟨hr, hb, hlegal, h0, herr, hneed⟩ <;> rw [hr]
  · exact h.congr rfl id
  · exact h
  · exact hraise hb _ _ _
  · exact hraise hb _ _ _
  · obtain ⟨hk, hclear, hq⟩ := hstart hlegal h0
    obtain ⟨hbv, hov, ht⟩ := h.not_busy hb
    obtain ⟨hd, hds⟩ := draining_of_quiet (s := { s.begun op with eng := .run op k }) rfl hq
    exact inv_of_run rfl h.nsWf h.ctWf (hbv.trans hd.symm) (hov.trans hds.symm) rfl rfl (fun he => hclear (herr he))
      hneed (hk _) h.depth (.inr ht)

theorem inv_exec {i : Instr} (h : Inv s) (ht : exec i s = .next t) : Inv t := by
  obtain ⟨op, legal, k, hx, hi⟩ := exec_cases i s
  rw [hx] at ht
  refine inv_afterEvent (inv_request h fun hlegal h0 => ?_) ht
  rcases hi with ⟨-, rfl, -⟩ | ⟨-, rfl, -, rfl⟩ | ⟨-, rfl, -, rfl⟩ | ⟨-, rfl, -, rfl⟩ | ⟨-, rfl, -, rfl⟩ |
    ⟨-, rfl, -, rfl⟩ | ⟨-, rfl, -, rfl⟩ | ⟨-, rfl, -, rfl⟩ | ⟨rsvd, -, rfl, -⟩
  · exact absurd rfl h0
  · exact ⟨fun _ => rfl, fun _ => rfl, rfl⟩
  iterate 6 exact ⟨fun _ => rfl, fun hc => absurd hc (by decide), rfl⟩
  · cases hlegal

theorem inv_hostStmt {st : HostStmt} (h : Inv s) (ht : hostStmt st s = .next t) : Inv t := by
  rcases hostStmt_cases st s with ⟨off, w, hx⟩ | hx | ⟨e, hx⟩ | ⟨e, hx⟩ | hx | ⟨r, hx⟩ <;> rw [hx] at ht
  · exact inv_afterEvent (inv_regWrite h off w) ht
  · exact inv_afterEvent (inv_resetIn _ _) ht
  · exact inv_afterEvent (inv_setEnv h e) ht
  · cases ht
    exact inv_setEnv h e
  · cases ht
  · cases ht

theorem inv_step (h : Inv s) (ht : step s = .next t) : Inv t := by
  have hadv : Inv s.advanceHost := inv_setEnv h _
  rcases step_cases s with ⟨-, hx⟩ | ⟨w, -, hx⟩ | ⟨st, -, hx⟩ <;> rw [hx] at ht
  · exact inv_engineStep h ht
  · exact inv_exec hadv ht
  · exact inv_hostStmt hadv ht

theorem inv_of_reachable (h : Reachable s) : Inv s := by
  induction h with
  | reset m e => exact inv_resetIn m e
  | step _ ht ih => exact inv_step ih ht

/-! ## The obligations about the invariant -/

/-- Settles O51, by a case for every program point of the engine, every command and every host statement. -/
theorem stepKeepsInv : Obligations.StepKeepsInv := fun _ _ => inv_step

/-- Settles O54: the bound is part of the invariant. -/
theorem walkStackWithin256 : Obligations.WalkStackWithin256 := fun _ h => (inv_of_reachable h).depth

/-- Settles O50: after reset the block is idle with no tree. -/
theorem invAfterReset : Obligations.InvAfterReset := ⟨inv_resetIn _ _, inv_resetIn⟩

end Sys2Proof.Machine
end

section
/-! PROOFS. The moves of the host and of the producers, the transfers at the stream ports, and what becomes of an
offered beat until its consumer takes it (spec/20_memory.md R86-R100). -/

namespace Sys2Proof.Machine

variable {s t : State} {op : Opcode} {k : Point}

/-! ## Host statements -/

theorem produceBin_eq (data : Bool) (p : Source Bool) (s : State) :
    produceBin data p s =
      if s.binEndShown = true ∧ data = true then .refused .dataAfterEnd
      else afterEvent { s with env := { s.env with bin := p } } := by simp [produceBin]

theorem produceSin_eq (data : Bool) (p : Source Byte) (s : State) :
    produceSin data p s =
      if s.sinEndShown = true ∧ data = true then .refused .dataAfterEnd
      else afterEvent { s with env := { s.env with sin := p } } := by simp [produceSin]

theorem removeBin_eq (s : State) :
    removeBin s =
      if s.eng ≠ .idle ∧ s.env.bin.offering = true then .refused .dataWithdrawn
      else afterEvent { s with env := { s.env with bin := ⟨[], .more⟩ } } := by simp [removeBin, busy_eq]

theorem removeSin_eq (s : State) :
    removeSin s =
      if s.eng ≠ .idle ∧ s.env.sin.offering = true then .refused .dataWithdrawn
      else afterEvent { s with env := { s.env with sin := ⟨[], .more⟩ } } := by simp [removeSin, busy_eq]

theorem supported_iff (width : AccessWidth) (off : Offset) :
    supported width off = true ↔ width = .word ∧ off.toNat % 4 = 0 := by simp [supported]

/-- A register write, a reset too, leaves the host and the environment alone (spec/70_reset_and_hazards.md R342). -/
theorem regWrite_env (s : State) (off : Offset) (w : Word) : (s.regWrite off w).env = s.env := by
  rcases regWrite_cases s off w with hw | hw | hw | ⟨hw, -⟩ | hw | hw | hw <;>
    simp [hw, State.blockReset, State.resetIn]

theorem binEndShown_iff : s.binEndShown = true ↔ ∃ op who, s.eng = .run op (.starved who) := by
  unfold State.binEndShown
  split
  · simp_all
  · rename_i hno
    simpa only [Bool.false_eq_true, false_iff, not_exists] using hno

theorem afterSinEnd_iff :
    k.afterSinEnd = true ↔
      ∃ bits, k = .gotSym none ∨ k = .send bits .finish ∨ k = .drain bits .finish ∨ k = .finish := by
  unfold Point.afterSinEnd
  split <;> simp_all

theorem sinEndShown_iff :
    s.sinEndShown = true ↔ ∃ k bits, s.eng = .run 0x4#4 k ∧
      (k = .gotSym none ∨ k = .send bits .finish ∨ k = .drain bits .finish ∨ k = .finish) := by
  cases he : s.eng with
  | idle => simp [State.sinEndShown, he]
  | run op k => simp [State.sinEndShown, he, afterSinEnd_iff]

/-! ## Offered beats -/

/-- What the block shows the consumers, with what they have taken, the counts of it and the engine that drives them. -/
def State.outputs (s : State) :=
  (s.eng, (s.boutValid, s.boutBit, s.bitsOut, s.env.boutTaken), s.soutValid, s.soutData, s.symsOut, s.env.soutTaken)

/-- The host statement st makes u of s: it moves no output, and no consumer becomes ready but by st's own word. -/
structure MovesNoOutput (st : Option HostStmt) (s u : State) : Prop where
  outputs : u.outputs = s.outputs
  boutReady : st ≠ some (.boutReady true) → s.env.boutReady = false → u.env.boutReady = false
  soutReady : st ≠ some (.soutReady true) → s.env.soutReady = false → u.env.soutReady = false

theorem MovesNoOutput.of_eq {st : Option HostStmt} {u : State} (ho : u.outputs = s.outputs)
    (hb : u.env.boutReady = s.env.boutReady) (hs : u.env.soutReady = s.env.soutReady) : MovesNoOutput st s u :=
  ⟨ho, fun _ h => hb.trans h, fun _ h => hs.trans h⟩

/-- t is what engine actions make of a state that the host statement st makes of s, without moving an output. -/
def HeldEvent (st : Option HostStmt) (s t : State) : Prop := ∃ n u, engineRun n u = .next t ∧ MovesNoOutput st s u

/-- A register write that is no reset moves no output. -/
theorem regWrite_outputs {off : Offset} {w : Word} (h : off = 0x08#8 → w.getLsbD 0 = false) :
    (s.regWrite off w).outputs = s.outputs := by
  by_cases hoff : off = 0x08#8
  · subst hoff
    rw [regWrite_ctrl, State.writeCtrl, if_neg (by rw [h rfl]; decide)]
    rfl
  · unfold State.regWrite
    split
    case h_1 hc => exact absurd (BitVec.eq_of_toNat_eq hc) hoff
    case h_3 =>
      unfold State.writeMagic
      split <;> rfl
    all_goals rfl

/-- A move of the environment that may be refused. -/
theorem heldEvent_of_move {st : Option HostStmt} {r : Res} {e : Env} {x : Refusal}
    (hr : r = afterEvent { s with env := e } ∨ r = .refused x) (ht : r = .next t)
    (ho : State.outputs { s with env := e } = s.outputs) (hb : e.boutReady = s.env.boutReady)
    (hs : e.soutReady = s.env.soutReady) : HeldEvent st s t := by
  rcases hr with rfl | rfl
  · exact ⟨_, _, ht, .of_eq ho hb hs⟩
  · cases ht

/-- Every host statement but a reset and a write to CMD. -/
theorem hostStmt_heldEvent {st : HostStmt} (hpin : st ≠ .resetPin)
    (hsrst : ∀ w : Word, w.getLsbD 0 = true → st ≠ .wr .word 0x08#8 w) (ht : hostStmt st s = .next t) :
    HeldEvent (some st) s t := by
  cases st with
  | wr width off w =>
    simp only [hostStmt, hostWrite] at ht
    split at ht
    · rename_i hsup
      obtain ⟨rfl, -⟩ := (supported_iff width off).mp hsup
      have hw : off = 0x08#8 → w.getLsbD 0 = false := by
        rintro rfl
        simpa using mt (hsrst w)
      exact ⟨_, _, ht, .of_eq (regWrite_outputs hw) (by rw [regWrite_env]) (by rw [regWrite_env])⟩
    · cases ht
  | rd width off =>
    simp only [hostStmt, hostRead] at ht
    split at ht
    · exact ⟨_, _, ht, .of_eq rfl rfl rfl⟩
    · cases ht
  | bin | binEndless => exact heldEvent_of_move (produceBin_cases _ _ _) ht rfl rfl rfl
  | sin | sinEndless => exact heldEvent_of_move (produceSin_cases _ _ _) ht rfl rfl rfl
  | binRemove => exact heldEvent_of_move (removeBin_cases s) ht rfl rfl rfl
  | sinRemove => exact heldEvent_of_move (removeSin_cases s) ht rfl rfl rfl
  | expect off v =>
    simp only [hostStmt, hostExpect] at ht
    split at ht
    · exact ⟨0, _, ht, .of_eq rfl rfl rfl⟩
    · cases ht
  | bnz off hi lo target =>
    simp only [hostStmt, hostBranch] at ht
    split at ht
    · cases ht
    · split at ht
      · exact ⟨0, _, ht, .of_eq rfl rfl rfl⟩
      · exact ⟨0, _, ht, .of_eq rfl rfl rfl⟩
  | boutReady level => exact ⟨_, _, ht, rfl, fun hl _ => by simpa using hl, fun _ h => h⟩
  | soutReady level => exact ⟨_, _, ht, rfl, fun _ h => h, fun hl _ => by simpa using hl⟩
  | resetPin => exact absurd rfl hpin
  | pace n => exact ⟨0, _, ht, .of_eq rfl rfl rfl⟩

/-- While a command runs, a step that is no reset moves no output but by engine actions: a CMD write only sets DROP. -/
theorem step_heldEvent (ht : step s = .next t) (hb : s.busy = true)
    (hpin : s.env.hostProg[s.env.hostPc]? ≠ some .resetPin)
    (hsrst : ∀ w : Word, w.getLsbD 0 = true → s.env.hostProg[s.env.hostPc]? ≠ some (.wr .word 0x08#8 w)) :
    HeldEvent s.env.hostProg[s.env.hostPc]? s t := by
  rcases step_cases s with ⟨-, hx⟩ | ⟨w, -, hx⟩ | ⟨st, hst, hx⟩ <;> rw [hx] at ht
  · exact ⟨1, s, engineRun_one ht, .of_eq rfl rfl rfl⟩
  · obtain ⟨op, legal, k, he, -⟩ := exec_cases (decodeWord w) s.advanceHost
    have hdrop : s.advanceHost.request op legal k = { s.advanceHost with drop := true } := if_pos hb
    rw [he, hdrop] at ht
    exact ⟨_, _, ht, .of_eq rfl rfl rfl⟩
  · rw [hst] at hpin hsrst ⊢
    obtain ⟨n, u, hu, ho, hbr, hsr⟩ :=
      hostStmt_heldEvent (by simpa using hpin) (fun w hw => by simpa using hsrst w hw) ht
    exact ⟨n, u, hu, ho, hbr, hsr⟩

theorem draining_iff : s.draining = true ↔ ∃ op rest next, s.eng = .run op (.drain rest next) := by
  unfold State.draining
  split
  · simp_all
  · rename_i hno
    simpa only [Bool.false_eq_true, false_iff, not_exists] using hno

theorem drainingSym_iff : s.drainingSym = true ↔ ∃ op, s.eng = .run op .drainSym := by
  unfold State.drainingSym
  split
  · simp_all
  · rename_i hno
    simpa only [Bool.false_eq_true, false_iff, not_exists] using hno

/-- A bit or a byte is offered to a consumer that is not ready. -/
def State.blocked (s : State) : Prop :=
  (s.draining = true ∧ s.env.boutReady = false) ∨ (s.drainingSym = true ∧ s.env.soutReady = false)

theorem blocked_busy (h : s.blocked) : s.busy = true := by
  rcases h with ⟨hd, -⟩ | ⟨hd, -⟩
  · obtain ⟨op, rest, next, he⟩ := draining_iff.mp hd
    exact busy_of_run he
  · obtain ⟨op, he⟩ := drainingSym_iff.mp hd
    exact busy_of_run he

/-- The engine waits for the consumer (spec/20_memory.md R92, R93). -/
theorem engineStep_blocked (h : s.blocked) : engineStep s = .next s := by
  rcases h with ⟨hd, hr⟩ | ⟨hd, hr⟩
  · obtain ⟨op, rest, next, he⟩ := draining_iff.mp hd
    simp [engineStep_run he, act, actDrain, hr]
  · obtain ⟨op, he⟩ := drainingSym_iff.mp hd
    simp [engineStep_run he, act, actDrainSym, hr]

/-- An engine that stays where it is in one action stays there in every number of them. -/
theorem engineRun_of_stays (h : engineStep s = .next s) (n : Nat) : engineRun n s = .next s := by
  induction n with
  | zero => rfl
  | succ n ih => rw [engineRun_step h, ih]

/-- An offered beat stays as it is over a step that leaves its consumer not ready (spec/20_memory.md R96). -/
theorem outputs_of_heldEvent {st : Option HostStmt} (h : HeldEvent st s t)
    (hw : (s.draining = true ∧ s.env.boutReady = false ∧ st ≠ some (.boutReady true)) ∨
      (s.drainingSym = true ∧ s.env.soutReady = false ∧ st ≠ some (.soutReady true))) :
    t.outputs = s.outputs := by
  obtain ⟨n, u, hu, ho, hbr, hsr⟩ := h
  have heng : u.eng = s.eng := congrArg Prod.fst ho
  have hblocked : u.blocked := by
    rcases hw with ⟨hd, hr, hst⟩ | ⟨hd, hr, hst⟩
    · exact .inl ⟨by rwa [State.draining, heng], hbr hst hr⟩
    · exact .inr ⟨by rwa [State.drainingSym, heng], hsr hst hr⟩
  rw [engineRun_of_stays (engineStep_blocked hblocked)] at hu
  cases hu
  exact ho

/-! ## Transfers -/

theorem shiftIn_eq (v : Word) (b : Bool) : shiftIn v b = v <<< 1 ||| (BitVec.ofBool b).setWidth 32 := by
  cases b <;> rfl

/-- The engine of a running command goes on at k. -/
theorem goto_of_run {j : Point} (he : s.eng = .run op j) (k : Point) : s.goto k = { s with eng := .run op k } := by
  rw [State.goto, he, Engine.goto_run]

/-! ## The obligations about the host and the ports -/

/-- Settles O6: the host has no next statement. -/
theorem stepAfterHostIsEngineAction : Obligations.StepAfterHostIsEngineAction := by
  intro s h
  simp [step, fetch, h]

/-- Settles O35: an aligned word is a supported access. -/
theorem registerAccessIsOneEvent : Obligations.RegisterAccessIsOneEvent := by
  intro s off w h
  have hsup : supported .word off = true := (supported_iff _ _).mpr ⟨rfl, h⟩
  have hwrite : hostStmt (.wr .word off w) s = afterEvent (s.regWrite off w) := if_pos hsup
  exact ⟨if_pos hsup, fun _ => by rw [hwrite, afterEvent, regWrite_env]⟩

/-- Settles O36, from one equation for each move and what the two end levels say of the engine. -/
theorem hostAndProducerMoves : Obligations.HostAndProducerMoves := by
  intro s
  refine ⟨fun width off w h => ?_, binEndShown_iff, sinEndShown_iff, fun bits fin => ?_, fun n => ?_,
    fun bytes fin => ?_, fun n => ?_, removeBin_eq s, removeSin_eq s, fun α p ys fin n => ?_⟩
  · have hsup : ¬ supported width off = true := by
      rw [supported_iff]
      tauto
    exact ⟨if_neg hsup, if_neg hsup⟩
  · simp [hostStmt, produceBin_eq, afterEvent]
  · simp [hostStmt, produceBin_eq, afterEvent]
  · simp [hostStmt, produceSin_eq, afterEvent]
  · simp [hostStmt, produceSin_eq, afterEvent]
  · obtain ⟨items, tail⟩ := p
    cases tail with
    | more | fin => cases items <;> simp [Source.extend, Source.extendEndless]
    | endless stream pos => cases items <;> exact ⟨rfl, rfl, rfl⟩

/-- Settles O43, by what the producer of bin shows. -/
theorem readBitTransfers : Obligations.ReadBitTransfers := by
  intro s op n v who he
  have hact : engineStep s = actRecvBit n v who s := engineStep_run he
  have htake := goto_of_run (s := s.takeBit) he
  rw [hact, actRecvBit, State.binBeat]
  rcases hbin : s.env.bin with ⟨_ | ⟨b, rest⟩, tail⟩
  · cases tail with
    | more => rfl
    | fin => simp [goto_of_run he]
    | endless stream pos => simp [htake, hbin, shiftIn_eq]
  · simp [htake, hbin, shiftIn_eq]

/-- Settles O44, by what the producer of sin shows and whether the consumer of sout is ready. -/
theorem byteTransfers : Obligations.ByteTransfers := by
  intro s op
  refine ⟨fun he => ?_, fun v he => ?_, fun he => ?_⟩
  · have hact : engineStep s = actReadSym s := engineStep_run he
    have htake := goto_of_run (s := s.takeSym) he
    rw [hact, actReadSym, State.sinBeat]
    rcases hsin : s.env.sin with ⟨_ | ⟨b, rest⟩, tail⟩
    · cases tail with
      | more => rfl
      | fin => simp [goto_of_run he]
      | endless stream pos => simp [htake, hsin]
    · simp [htake, hsin]
  · have hact : engineStep s = actPut v s := engineStep_run he
    rw [hact, actPut, goto_of_run (s := s.offerSym v) he, State.offerSym]
  · have hact : engineStep s = actDrainSym s := engineStep_run he
    rw [hact, actDrainSym, goto_of_run (s := s.sendSym) he]
    rfl

/-- Settles O45: the offer, then the wait or the transfer. -/
theorem writeBitTransfers : Obligations.WriteBitTransfers := by
  intro s op b rest k
  refine ⟨fun he => ?_, fun he => ?_⟩
  · have hact : engineStep s = actSend (b :: rest) k s := engineStep_run he
    rw [hact, actSend, goto_of_run (s := s.offerBit b) he, State.offerBit]
  · have hact : engineStep s = actDrain rest k s := engineStep_run he
    rw [hact, actDrain, goto_of_run (s := s.sendBit) he]
    rfl

/-- Settles O46: the step is an event that moves no output, followed by actions of an engine that waits. -/
theorem offeredBeatIsHeld : Obligations.OfferedBeatIsHeld := by
  intro s t ht hpin hsrst
  have hevent : s.busy = true → HeldEvent s.env.hostProg[s.env.hostPc]? s t := fun hb =>
    step_heldEvent ht hb hpin hsrst
  refine ⟨fun hd hv hr hst => ?_, fun hd hv hr hst => ?_⟩
  · have ho := outputs_of_heldEvent (hevent (blocked_busy (.inl ⟨hd, hr⟩))) (.inl ⟨hd, hr, hst⟩)
    simp only [State.outputs, Prod.mk.injEq] at ho
    obtain ⟨heng, ⟨hvalid, hbit, hcount, htaken⟩, -⟩ := ho
    exact ⟨hvalid.trans hv, hbit, heng, hcount, htaken⟩
  · have ho := outputs_of_heldEvent (hevent (blocked_busy (.inr ⟨hd, hr⟩))) (.inr ⟨hd, hr, hst⟩)
    simp only [State.outputs, Prod.mk.injEq] at ho
    obtain ⟨heng, -, hvalid, hdata, hcount, htaken⟩ := ho
    exact ⟨hvalid.trans hv, hdata, heng, hcount, htaken⟩

end Sys2Proof.Machine
end

section
/-! PROOFS. From a state with the invariant every engine action answers a next state: no entry outside NS or CT and no
child of a leaf is named (spec/20_memory.md R98, spec/10_state.md R56). -/

namespace Sys2Proof.Machine

variable {s t : State} {op : Opcode} {k : Point}

/-- The action answers a next state: neither a fault nor a refusal. -/
def Answers (r : Res) : Prop := ∃ t, r = .next t

@[simp] theorem answers_next (s : State) : Answers (.next s) := ⟨s, rfl⟩

/-! ## The actions that access NS or CT -/

theorem actSymbol_answers {idx : NodeIdx} {n : Nat} {v : Word} {sym : Symbol} (h : Inv s)
    (he : s.eng = .run op (.recv n v (.symbol idx))) : Answers (actSymbol idx sym s) := by
  obtain ⟨-, -, -, (ha : s.alloc.toNat ≤ 513), hidx, -⟩ := h.pointOk he
  unfold actSymbol
  split
  · simp
  · rw [setNode?_eq rfl (by omega)]
    simp

theorem actParseRet_answers {idx : NodeIdx} (h : Inv s) (he : s.eng = .run op (.parseRet idx)) :
    Answers (actParseRet idx s) := by
  obtain ⟨-, -, (ha : s.alloc.toNat ≤ 513), ⟨t, -, hsize⟩, hp⟩ := h.pointOk he
  have hpos := t.size_pos
  cases hst : s.stack with
  | nil =>
    simp only [actParseRet, hst]
    split <;> simp [actParseRight]
  | cons f fs =>
    rw [hst] at hp
    obtain ⟨hr, ⟨l, -, hl⟩, -⟩ := hp
    simp only [actParseRet, hst]
    split
    · rw [setNode?_eq rfl (by omega)]
      simp
    · simp [actParseRight]

theorem actWalk_answers {i : NodeIdx} {p : Bits} (h : Inv s) (he : s.eng = .run op (.walk i p)) :
    Answers (actWalk i p s) := by
  obtain ⟨-, -, t, -, u, hu, hw⟩ := h.pointOk he
  have hdepth := hw.depth
  have hpos := u.size_pos
  unfold actWalk
  cases u with
  | leaf sym =>
    rw [node?_leaf hu (by omega)]
    simp [setCode?_eq hu.2]
  | node l r =>
    rw [node?_node hu (by omega)]
    simp

theorem actEmit_answers {i : NodeIdx} (h : Inv s) (he : s.eng = .run op (.emit i)) : Answers (actEmit i s) := by
  obtain ⟨-, -, u, hu, hstack⟩ := h.pointOk he
  have hdepth := hstack.depth
  have hpos := u.size_pos
  unfold actEmit
  cases u with
  | leaf sym =>
    rw [node?_leaf hu (by omega)]
    simp
  | node l r =>
    rw [node?_node hu (by omega)]
    simp

theorem actDecode_answers (s : State) : Answers (actDecode s) := by
  simp only [actDecode, node?_eq (i := 0) (n := 0) rfl (by decide)]
  cases Memory.read Node.unwritten s.ns 0 with
  | leaf sym =>
    dsimp only
    split <;> simp
  | internal l r => simp

theorem actArrive_answers (h : s.pos.toNat < 513) : Answers (actArrive s) := by
  simp only [actArrive, node?_eq rfl h]
  cases Memory.read Node.unwritten s.ns s.pos.toNat with
  | leaf sym =>
    dsimp only
    split <;> simp
  | internal l r => simp

theorem actCodeBit_answers {b : Bool} {n : Nat} {v : Word} (h : Inv s) (he : s.eng = .run op (.recv n v .code)) :
    Answers (actCodeBit b s) := by
  obtain ⟨-, -, l, r, hu, hi⟩ := h.pointOk he
  simp only [HTree.size, Config.nodeCap] at hi
  have hl := l.size_pos
  have hr := r.size_pos
  unfold actCodeBit
  rw [node?_node hu (by omega)]
  refine actArrive_answers ?_
  cases b with
  | false => exact (toNat_ofNat10 (n := s.pos.toNat + 1) (by omega)).trans_lt (by omega)
  | true => exact (toNat_ofNat10 (n := s.pos.toNat + 1 + l.size) (by omega)).trans_lt (by omega)

/-! ## Every action and every step -/

theorem actReceived_answers {v : Word} {who : Reader} (h : Inv s) (he : s.eng = .run op (.recv 0 v who)) :
    Answers (actReceived v who s) := by
  cases who with
  | tag =>
    simp only [actReceived, actTag]
    split
    · simp
    · split <;> simp
  | symbol idx => exact actSymbol_answers h he
  | code => exact actCodeBit_answers h he
  | magic =>
    simp only [actReceived, actMagic]
    split <;> simp

theorem act_answers (h : Inv s) (he : s.eng = .run op k) : Answers (act k s) := by
  cases k with
  | recv left v who =>
    cases left with
    | zero => exact actReceived_answers h he
    | succ n =>
      simp only [act, actRecv, actRecvBit]
      split <;> simp
  | starved who => cases who <;> exact answers_next _
  | parseRet idx => exact actParseRet_answers h he
  | walk i p => exact actWalk_answers h he
  | emit i => exact actEmit_answers h he
  | decode => exact actDecode_answers s
  | walkRet | emitRet =>
    simp only [act, actWalkRet, actEmitRet]
    split <;> simp
  | send bits next => cases bits <;> exact answers_next _
  | drain | drainSym =>
    simp only [act, actDrain, actDrainSym]
    split <;> simp
  | encode =>
    simp only [act, actReadSym]
    split <;> simp
  | gotSym b =>
    cases b <;>
    · simp only [act, actGotSym, actEmitCode]
      split <;> simp
  | clear | load | loadDone | emitRoot | put | hdrWrite | hdrCheck | finish => exact answers_next _

theorem engineStep_answers (h : Inv s) : Answers (engineStep s) := by
  cases he : s.eng with
  | idle => simp [engineStep_idle he]
  | run op k =>
    rw [engineStep_run he]
    exact act_answers h he

theorem engineRun_answers (h : Inv s) (n : Nat) : Answers (engineRun n s) := by
  induction n generalizing s with
  | zero => simp
  | succ n ih =>
    obtain ⟨t, ht⟩ := engineStep_answers h
    rw [engineRun_step ht]
    exact ih (inv_engineStep h ht)

theorem afterEvent_answers (h : Inv s) : Answers (afterEvent s) := engineRun_answers h _

/-- The engine actions that follow a CMD write start from a state with the invariant. -/
theorem exec_answers (i : Instr) (h : Inv s) : Answers (exec i s) := by
  cases i with
  | nop => exact afterEvent_answers (inv_request h fun _ h0 => absurd rfl h0)
  | clear => exact afterEvent_answers (inv_request h fun _ _ => ⟨fun _ => rfl, fun _ => rfl, rfl⟩)
  | illegal op rsvd => exact afterEvent_answers (inv_request h nofun)
  | treeLoad | treeEmit | encode | decode | hdrWrite | hdrCheck =>
    exact afterEvent_answers (inv_request h fun _ _ => ⟨fun _ => rfl, fun hc => absurd hc (by decide), rfl⟩)

/-- Settles O52: every engine action answers a next state, so only the host statement itself can fault. -/
theorem engineNeverFaults : Obligations.EngineNeverFaults := by
  intro s f h hf
  have hadv : Inv s.advanceHost := inv_setEnv h _
  have never : ∀ {r : Res}, Answers r → r = .fault f → False := by
    rintro r ⟨t, rfl⟩ hr
    cases hr
  rcases step_cases s with ⟨-, hx⟩ | ⟨w, -, hx⟩ | ⟨st, -, hx⟩ <;> rw [hx] at hf
  · exact (never (engineStep_answers h) hf).elim
  · exact (never (exec_answers _ hadv) hf).elim
  · rcases hostStmt_cases st s.advanceHost with ⟨off, w, hs⟩ | hs | ⟨e, hs⟩ | ⟨e, hs⟩ | hs | ⟨r, hs⟩ <;>
      rw [hs] at hf
    · exact (never (afterEvent_answers (inv_regWrite hadv off w)) hf).elim
    · exact (never (afterEvent_answers (inv_resetIn _ _)) hf).elim
    · exact (never (afterEvent_answers (inv_setEnv hadv e)) hf).elim
    · cases hf
    · cases hf
      rfl
    · cases hf

end Sys2Proof.Machine
end

section
/-! PROOFS. What each command may touch of the stream ports, the event counters, POS and the walk stack, however far it
gets (spec/20_memory.md R95, spec/10_state.md R49). -/

namespace Sys2Proof.Machine

variable {s t u : State} {op : Opcode} {j k : Point}

/-! ## What a command uses -/

/-- TREE_LOAD, DECODE and HDR_CHECK read bin. -/
def readsBin (op : Opcode) : Bool := op == 0x2#4 || op == 0x5#4 || op == 0x7#4

/-- ENCODE reads sin. -/
def readsSin (op : Opcode) : Bool := op == 0x4#4

/-- TREE_EMIT, ENCODE and HDR_WRITE write bout. -/
def writesBout (op : Opcode) : Bool := op == 0x3#4 || op == 0x4#4 || op == 0x6#4

/-- DECODE writes sout, and moves POS. -/
def writesSout (op : Opcode) : Bool := op == 0x5#4

/-- TREE_LOAD and TREE_EMIT use the walk stack. -/
def usesStack (op : Opcode) : Bool := op == 0x2#4 || op == 0x3#4

/-- From s to t, only what op uses has changed of the environment, the counters, the outputs, POS and the walk stack. -/
def UsesOnly (op : Opcode) (s t : State) : Prop :=
  t.env = { s.env with
      bin := t.env.bin, sin := t.env.sin, boutTaken := t.env.boutTaken, soutTaken := t.env.soutTaken } ∧
    (readsBin op = false → t.env.bin = s.env.bin ∧ t.bitsIn = s.bitsIn) ∧
    (readsSin op = false → t.env.sin = s.env.sin ∧ t.symsIn = s.symsIn) ∧
    (writesBout op = false → t.env.boutTaken = s.env.boutTaken ∧ t.bitsOut = s.bitsOut ∧
      t.boutValid = s.boutValid ∧ t.boutBit = s.boutBit) ∧
    (writesSout op = false → t.env.soutTaken = s.env.soutTaken ∧ t.symsOut = s.symsOut ∧
      t.soutValid = s.soutValid ∧ t.soutData = s.soutData ∧ t.pos = s.pos) ∧
    (usesStack op = false → t.stack = s.stack)

namespace UsesOnly

theorem refl (op : Opcode) (s : State) : UsesOnly op s s :=
  ⟨rfl, fun _ => ⟨rfl, rfl⟩, fun _ => ⟨rfl, rfl⟩, fun _ => ⟨rfl, rfl, rfl, rfl⟩,
    fun _ => ⟨rfl, rfl, rfl, rfl, rfl⟩, fun _ => rfl⟩

theorem trans (h : UsesOnly op s t) (h' : UsesOnly op t u) : UsesOnly op s u := by
  obtain ⟨henv, hbin, hsin, hbout, hsout, hstack⟩ := h
  obtain ⟨henv', hbin', hsin', hbout', hsout', hstack'⟩ := h'
  refine ⟨henv'.trans (by rw [henv]), fun hu => ?_, fun hu => ?_, fun hu => ?_, fun hu => ?_,
    fun hu => (hstack' hu).trans (hstack hu)⟩
  · simp only [hbin hu, hbin' hu, and_self]
  · simp only [hsin hu, hsin' hu, and_self]
  · simp only [hbout hu, hbout' hu, and_self]
  · simp only [hsout hu, hsout' hu, and_self]

variable (s)

theorem takeBit (h : readsBin op = true) : UsesOnly op s s.takeBit := by simp [UsesOnly, h]

theorem takeSym (h : readsSin op = true) : UsesOnly op s s.takeSym := by simp [UsesOnly, h]

theorem offerBit (h : writesBout op = true) (b : Bool) : UsesOnly op s (s.offerBit b) := by simp [UsesOnly, h]

theorem sendBit (h : writesBout op = true) : UsesOnly op s s.sendBit := by simp [UsesOnly, h]

theorem offerSym (h : writesSout op = true) (v : Byte) : UsesOnly op s (s.offerSym v) := by simp [UsesOnly, h]

theorem sendSym (h : writesSout op = true) : UsesOnly op s s.sendSym := by simp [UsesOnly, h]

theorem setPos (h : writesSout op = true) (i : NodeIdx) : UsesOnly op s { s with pos := i } := by simp [UsesOnly, h]

theorem setStack (h : usesStack op = true) (fs : List Frame) : UsesOnly op s { s with stack := fs } := by
  simp [UsesOnly, h]

end UsesOnly

/-! ## Where a command can be -/

/-- The command that waits for the bits of a ReadBits. -/
def Reader.command : Reader → Opcode
  | .tag => 0x2#4
  | .symbol _ => 0x2#4
  | .code => 0x5#4
  | .magic => 0x7#4

/-- Whether the program point belongs to the pseudocode of op; Complete belongs to every command's. -/
def Point.partOf (op : Opcode) : Point → Bool
  | .clear => op == 0x1#4
  | .load => op == 0x2#4
  | .recv _ _ who => op == who.command
  | .starved who => op == who.command
  | .parseRet _ => op == 0x2#4
  | .walk _ _ => op == 0x2#4
  | .walkRet => op == 0x2#4
  | .loadDone => op == 0x2#4
  | .emitRoot => op == 0x3#4
  | .emit _ => op == 0x3#4
  | .emitRet => op == 0x3#4
  | .send _ next => writesBout op && next.partOf op
  | .drain _ next => writesBout op && next.partOf op
  | .encode => op == 0x4#4
  | .gotSym _ => op == 0x4#4
  | .decode => op == 0x5#4
  | .put _ => op == 0x5#4
  | .drainSym => op == 0x5#4
  | .hdrWrite => op == 0x6#4
  | .hdrCheck => op == 0x7#4
  | .finish => true

/-- The command op has ended, or is at a point of its own. -/
def InCommand (op : Opcode) (s : State) : Prop := s.eng = .idle ∨ ∃ k, s.eng = .run op k ∧ k.partOf op = true

/-- In the next state, if there is one, op has ended or is at a point of its own, and only what it uses has changed. -/
def Goes (op : Opcode) (s : State) : Res → Prop
  | .next t => InCommand op t ∧ UsesOnly op s t
  | _ => True

theorem goes_goto (he : u.eng = .run op j) (hu : UsesOnly op s u) (hk : k.partOf op = true) :
    Goes op s (.next (u.goto k)) := ⟨.inr ⟨k, by simp [he], hk⟩, hu⟩

theorem goes_idle (he : t.eng = .idle) (hu : UsesOnly op s t) : Goes op s (.next t) := ⟨.inl he, hu⟩

theorem goes_stay (he : s.eng = .run op k) (hk : k.partOf op = true) : Goes op s (.next s) :=
  ⟨.inr ⟨k, he, hk⟩, .refl op s⟩

theorem setNode?_some {i : NodeIdx} {e : Node} (h : s.setNode? i e = some t) : ∃ m, t = { s with ns := m } := by
  unfold State.setNode? at h
  split at h
  · exact ⟨_, (Option.some.inj h).symm⟩
  · cases h

theorem setCode?_some {sym : Symbol} {p : Bits} (h : s.setCode? sym p = some t) : ∃ m, t = { s with ct := m } := by
  unfold State.setCode? at h
  split at h
  · exact ⟨_, (Option.some.inj h).symm⟩
  · cases h

/-! ## The actions of each command -/

section
variable (he : s.eng = .run op k)
include he

theorem actRecvBit_goes (hk : k.partOf op = true) {n : Nat} {v : Word} {who : Reader} (hw : op = who.command) :
    Goes op s (actRecvBit n v who s) := by
  have hr : readsBin op = true := by
    rw [hw]
    cases who <;> rfl
  unfold actRecvBit
  split
  · exact goes_stay he hk
  · exact goes_goto he (.refl op s) (by simpa [Point.partOf] using hw)
  · exact goes_goto (u := s.takeBit) he (.takeBit s hr) (by simpa [Point.partOf] using hw)

theorem actSend_goes {bits : Bits} {next : Point} (hb : writesBout op = true) (hn : next.partOf op = true) :
    Goes op s (actSend bits next s) := by
  cases bits with
  | nil => exact goes_goto he (.refl op s) hn
  | cons b rest =>
    exact goes_goto (u := s.offerBit b) (k := .drain rest next) he (.offerBit s hb b) (by simp [Point.partOf, hb, hn])

theorem actDrain_goes (hk : k.partOf op = true) {rest : Bits} {next : Point} (hb : writesBout op = true)
    (hn : next.partOf op = true) : Goes op s (actDrain rest next s) := by
  unfold actDrain
  split
  · exact goes_goto (u := s.sendBit) (k := .send rest next) he (.sendBit s hb) (by simp [Point.partOf, hb, hn])
  · exact goes_stay he hk

end

section
variable (he : s.eng = .run 0x2#4 k)
include he

theorem actTag_goes (b : Bool) : Goes 0x2#4 s (actTag b s) := by
  have hu : UsesOnly 0x2#4 s { s with alloc := s.alloc + 1 } := .refl _ s
  unfold actTag
  split
  · exact goes_idle rfl (.refl _ s)
  · split
    · exact goes_goto he hu rfl
    · exact goes_goto he hu rfl

theorem actSymbol_goes (idx : NodeIdx) (v : Symbol) : Goes 0x2#4 s (actSymbol idx v s) := by
  unfold actSymbol
  split
  · exact goes_idle rfl (.refl _ s)
  · split
    · trivial
    · rename_i t ht
      obtain ⟨m, rfl⟩ := setNode?_some ht
      exact goes_goto he (.refl _ s) rfl

theorem actParseRight_goes (idx : NodeIdx) : Goes 0x2#4 s (actParseRight idx s) :=
  goes_goto he (.setStack s rfl _) rfl

theorem actParseRet_goes (idx : NodeIdx) : Goes 0x2#4 s (actParseRet idx s) := by
  unfold actParseRet
  split
  · split
    · exact goes_goto he (.refl _ s) rfl
    · exact actParseRight_goes he idx
  · rename_i f fs _
    split
    · split
      · trivial
      · rename_i t ht
        obtain ⟨m, rfl⟩ := setNode?_some ht
        exact goes_goto he (.setStack s rfl fs) rfl
    · exact actParseRight_goes he idx

theorem actWalk_goes (i : NodeIdx) (p : Bits) : Goes 0x2#4 s (actWalk i p s) := by
  unfold actWalk
  split
  · trivial
  · split
    · trivial
    · rename_i t ht
      obtain ⟨m, rfl⟩ := setCode?_some ht
      exact goes_goto he (.refl _ s) rfl
  · exact goes_goto he (.setStack s rfl _) rfl

theorem actWalkRet_goes : Goes 0x2#4 s (actWalkRet s) := by
  unfold actWalkRet
  split
  · exact goes_goto he (.refl _ s) rfl
  · exact goes_goto he (.setStack s rfl _) rfl

end

section
variable (he : s.eng = .run 0x3#4 k)
include he

theorem actEmit_goes (i : NodeIdx) : Goes 0x3#4 s (actEmit i s) := by
  unfold actEmit
  split
  · trivial
  · exact goes_goto he (.refl _ s) rfl
  · exact goes_goto he (.setStack s rfl _) rfl

theorem actEmitRet_goes : Goes 0x3#4 s (actEmitRet s) := by
  unfold actEmitRet
  split
  · exact goes_goto he (.refl _ s) rfl
  · exact goes_goto he (.setStack s rfl _) rfl

end

section
variable (he : s.eng = .run 0x4#4 k)
include he

theorem actReadSym_goes (hk : k.partOf 0x4#4 = true) : Goes 0x4#4 s (actReadSym s) := by
  unfold actReadSym
  split
  · exact goes_stay he hk
  · exact goes_goto he (.refl _ s) rfl
  · exact goes_goto (u := s.takeSym) he (.takeSym s rfl) rfl

theorem actEmitCode_goes (sym : Symbol) {next : Point} (hn : next.partOf 0x4#4 = true) :
    Goes 0x4#4 s (actEmitCode sym next s) := by
  unfold actEmitCode
  split
  · exact goes_goto he (.refl _ s) hn
  · exact goes_idle rfl (.refl _ s)

theorem actGotSym_goes (b : Option Byte) : Goes 0x4#4 s (actGotSym b s) := by
  cases b with
  | none => exact actEmitCode_goes he _ rfl
  | some v => exact actEmitCode_goes he _ rfl

end

section
variable (he : s.eng = .run 0x5#4 k)
include he

theorem actDecode_goes : Goes 0x5#4 s (actDecode s) := by
  have hu : UsesOnly 0x5#4 s { s with pos := 0 } := .setPos s rfl 0
  unfold actDecode
  dsimp only
  split
  · trivial
  · split
    · exact goes_goto he hu rfl
    · exact goes_idle rfl hu
  · exact goes_goto he hu rfl

theorem actCodeBit_goes (b : Bool) : Goes 0x5#4 s (actCodeBit b s) := by
  unfold actCodeBit
  split
  · trivial
  · trivial
  · rename_i l r _
    have hu : UsesOnly 0x5#4 s { s with pos := if b then r else l } := .setPos s rfl _
    unfold actArrive
    split
    · trivial
    · split
      · exact goes_goto he hu rfl
      · exact goes_goto he hu rfl
    · exact goes_goto he hu rfl

theorem actDrainSym_goes (hk : k.partOf 0x5#4 = true) : Goes 0x5#4 s (actDrainSym s) := by
  unfold actDrainSym
  split
  · exact goes_goto (u := s.sendSym) he (.sendSym s rfl) rfl
  · exact goes_stay he hk

end

theorem actMagic_goes (he : s.eng = .run 0x7#4 k) (v : Word) : Goes 0x7#4 s (actMagic v s) := by
  unfold actMagic
  split
  · exact goes_goto he (.refl _ s) rfl
  · exact goes_idle rfl (.refl _ s)

theorem actReceived_goes {who : Reader} (he : s.eng = .run op k) (hw : op = who.command) (v : Word) :
    Goes op s (actReceived v who s) := by
  subst hw
  cases who with
  | tag => exact actTag_goes he _
  | symbol idx => exact actSymbol_goes he idx _
  | code => exact actCodeBit_goes he _
  | magic => exact actMagic_goes he v

/-! ## Every action, run and command -/

theorem act_goes (he : s.eng = .run op k) (hk : k.partOf op = true) : Goes op s (act k s) := by
  cases k with
  | recv left v who =>
    have hw : op = who.command := eq_of_beq hk
    cases left with
    | zero => exact actReceived_goes he hw v
    | succ n => exact actRecvBit_goes he hk hw
  | starved who => cases who <;> exact goes_idle rfl (.refl op s)
  | send bits next =>
    obtain ⟨hb, hn⟩ : writesBout op = true ∧ next.partOf op = true := Bool.and_eq_true_iff.mp hk
    exact actSend_goes he hb hn
  | drain rest next =>
    obtain ⟨hb, hn⟩ : writesBout op = true ∧ next.partOf op = true := Bool.and_eq_true_iff.mp hk
    exact actDrain_goes he hk hb hn
  | finish => exact goes_idle rfl (.refl op s)
  | clear =>
    obtain rfl : op = 0x1#4 := eq_of_beq hk
    exact goes_goto (u := s.dropTree.leaveError) he (.refl _ s) rfl
  | load =>
    obtain rfl : op = 0x2#4 := eq_of_beq hk
    exact goes_goto (u := { s.dropTree with alloc := 0, stack := [] }) he (.setStack s rfl []) rfl
  | loadDone =>
    obtain rfl : op = 0x2#4 := eq_of_beq hk
    exact goes_goto (u := { s with nodeCount := s.alloc, treeValid := true }) he (.refl _ s) rfl
  | parseRet idx =>
    obtain rfl : op = 0x2#4 := eq_of_beq hk
    exact actParseRet_goes he idx
  | walk i p =>
    obtain rfl : op = 0x2#4 := eq_of_beq hk
    exact actWalk_goes he i p
  | walkRet =>
    obtain rfl : op = 0x2#4 := eq_of_beq hk
    exact actWalkRet_goes he
  | emitRoot =>
    obtain rfl : op = 0x3#4 := eq_of_beq hk
    exact goes_goto he (.setStack s rfl []) rfl
  | emit i =>
    obtain rfl : op = 0x3#4 := eq_of_beq hk
    exact actEmit_goes he i
  | emitRet =>
    obtain rfl : op = 0x3#4 := eq_of_beq hk
    exact actEmitRet_goes he
  | encode =>
    obtain rfl : op = 0x4#4 := eq_of_beq hk
    exact actReadSym_goes he hk
  | gotSym b =>
    obtain rfl : op = 0x4#4 := eq_of_beq hk
    exact actGotSym_goes he b
  | decode =>
    obtain rfl : op = 0x5#4 := eq_of_beq hk
    exact actDecode_goes he
  | put v =>
    obtain rfl : op = 0x5#4 := eq_of_beq hk
    exact goes_goto (u := s.offerSym v) he (.offerSym s rfl v) rfl
  | drainSym =>
    obtain rfl : op = 0x5#4 := eq_of_beq hk
    exact actDrainSym_goes he hk
  | hdrWrite =>
    obtain rfl : op = 0x6#4 := eq_of_beq hk
    exact goes_goto he (.refl _ s) rfl
  | hdrCheck =>
    obtain rfl : op = 0x7#4 := eq_of_beq hk
    exact goes_goto he (.refl _ s) rfl

theorem engineStep_goes (h : InCommand op s) (ht : engineStep s = .next t) : InCommand op t ∧ UsesOnly op s t := by
  rcases h with he | ⟨k, he, hk⟩
  · rw [engineStep_idle he] at ht
    cases ht
    exact ⟨.inl he, .refl op s⟩
  · have hgoes := act_goes he hk
    rwa [← engineStep_run he, ht] at hgoes

theorem engineRun_usesOnly {n : Nat} (h : InCommand op s) (ht : engineRun n s = .next t) : UsesOnly op s t := by
  have hkeeps : ∀ u v, InCommand op u ∧ UsesOnly op s u → engineStep u = .next v →
      InCommand op v ∧ UsesOnly op s v := by
    intro u v ⟨hw, hu⟩ hv
    obtain ⟨hw', hu'⟩ := engineStep_goes hw hv
    exact ⟨hw', hu.trans hu'⟩
  obtain ⟨-, hu⟩ := engineRun_keeps hkeeps ⟨h, .refl op s⟩ ht
  exact hu

/-- A command on an idle block without an error, from its acceptance on: it starts, or has no tree. -/
theorem request_usesOnly (hi : s.eng = .idle) (herr : s.err = false) (h0 : op ≠ 0x0#4) (hk : k.partOf op = true)
    (ht : afterEvent (s.request op true k) = .next t) : UsesOnly op (s.begun op) t := by
  rcases request_cases s op true k with ⟨-, hx⟩ | ⟨-, -, -, hx⟩ | ⟨-, -, -, hx⟩ | ⟨hr, -⟩ | ⟨hr, -⟩
  · simp [hi, herr] at hx
  · exact absurd hx h0
  · cases hx
  · rw [hr] at ht
    exact engineRun_usesOnly (s := (s.begun op).raise .noTree 0 0) (.inl rfl) ht
  · rw [hr] at ht
    exact engineRun_usesOnly (s := { s.begun op with eng := .run op k }) (.inr ⟨k, rfl, hk⟩) ht

/-! ## What acceptance and the command leave -/

/-- TREE_EMIT and HDR_WRITE use no port but bout. -/
theorem UsesOnly.only_bout (h : UsesOnly op (s.begun op) t) (hbin : readsBin op = false) (hsin : readsSin op = false)
    (hsout : writesSout op = false) :
    t.env = { s.env with boutTaken := t.env.boutTaken } ∧ t.bitsIn = 0#32 ∧ t.symsIn = 0#32 ∧ t.symsOut = 0#32 ∧
      t.pos = s.pos ∧ t.soutValid = s.soutValid ∧ t.soutData = s.soutData := by
  obtain ⟨henv, hb, hs, -, ho, -⟩ := h
  obtain ⟨hbin', hbits⟩ := hb hbin
  obtain ⟨hsin', hsyms⟩ := hs hsin
  obtain ⟨htaken, hcount, hvalid, hdata, hpos⟩ := ho hsout
  rw [hbin', hsin', htaken] at henv
  exact ⟨henv, hbits, hsyms, hcount, hpos, hvalid, hdata⟩

/-- HDR_CHECK, TREE_LOAD and CLEAR use no port but bin. -/
theorem UsesOnly.only_bin (h : UsesOnly op (s.begun op) t) (hsin : readsSin op = false) (hbout : writesBout op = false)
    (hsout : writesSout op = false) :
    t.env = { s.env with bin := t.env.bin } ∧ t.bitsOut = 0#32 ∧ t.symsIn = 0#32 ∧ t.symsOut = 0#32 ∧
      t.pos = s.pos ∧ t.boutValid = s.boutValid ∧ t.boutBit = s.boutBit ∧ t.soutValid = s.soutValid ∧
      t.soutData = s.soutData := by
  obtain ⟨henv, -, hs, hb, ho, -⟩ := h
  obtain ⟨hsin', hsyms⟩ := hs hsin
  obtain ⟨hbits, hbcount, hbvalid, hbit⟩ := hb hbout
  obtain ⟨hbytes, hcount, hvalid, hdata, hpos⟩ := ho hsout
  rw [hsin', hbits, hbytes] at henv
  exact ⟨henv, hbcount, hsyms, hcount, hpos, hbvalid, hbit, hvalid, hdata⟩

/-- Settles O59: what each command uses, after its acceptance has cleared the four counters. -/
theorem commandsUseTheirPorts : Obligations.CommandsUseTheirPorts := by
  intro i s t hi herr ht
  refine ⟨?_, ?_, ?_, ?_, ?_⟩
  · rintro (rfl | rfl)
    · have h := request_usesOnly (op := 0x3#4) (k := .emitRoot) hi herr (by decide) rfl ht
      obtain ⟨henv, hbits, hsyms, hcount, hpos, hvalid, hdata⟩ := h.only_bout rfl rfl rfl
      exact ⟨henv, hbits, hsyms, hcount, hpos, hvalid, hdata, nofun⟩
    · have h := request_usesOnly (op := 0x6#4) (k := .hdrWrite) hi herr (by decide) rfl ht
      obtain ⟨henv, hbits, hsyms, hcount, hpos, hvalid, hdata⟩ := h.only_bout rfl rfl rfl
      obtain ⟨-, -, -, -, -, hstack⟩ := h
      exact ⟨henv, hbits, hsyms, hcount, hpos, hvalid, hdata, fun _ => hstack rfl⟩
  · rintro rfl
    obtain ⟨henv, hb, -, -, ho, hstack⟩ :=
      request_usesOnly (op := 0x4#4) (k := .encode) hi herr (by decide) rfl ht
    obtain ⟨hbin, hbits⟩ := hb rfl
    obtain ⟨htaken, hcount, hvalid, hdata, hpos⟩ := ho rfl
    rw [hbin, htaken] at henv
    exact ⟨henv, hbits, hcount, hpos, hstack rfl, hvalid, hdata⟩
  · rintro rfl
    obtain ⟨henv, -, hs, hb, -, hstack⟩ :=
      request_usesOnly (op := 0x5#4) (k := .decode) hi herr (by decide) rfl ht
    obtain ⟨hsin, hsyms⟩ := hs rfl
    obtain ⟨htaken, hcount, hvalid, hbit⟩ := hb rfl
    rw [hsin, htaken] at henv
    exact ⟨henv, hcount, hsyms, hstack rfl, hvalid, hbit⟩
  · rintro (rfl | rfl)
    · have h := request_usesOnly (op := 0x7#4) (k := .hdrCheck) hi herr (by decide) rfl ht
      obtain ⟨henv, hcount, hsyms, hsout, hpos, hbv, hbit, hsv, hdata⟩ := h.only_bin rfl rfl rfl
      obtain ⟨-, -, -, -, -, hstack⟩ := h
      exact ⟨henv, hcount, hsyms, hsout, hpos, hbv, hbit, hsv, hdata, fun _ => hstack rfl⟩
    · have h := request_usesOnly (op := 0x2#4) (k := .load) hi herr (by decide) rfl ht
      obtain ⟨henv, hcount, hsyms, hsout, hpos, hbv, hbit, hsv, hdata⟩ := h.only_bin rfl rfl rfl
      exact ⟨henv, hcount, hsyms, hsout, hpos, hbv, hbit, hsv, hdata, nofun⟩
  · rintro rfl
    have h := request_usesOnly (op := 0x1#4) (k := .clear) hi herr (by decide) rfl ht
    obtain ⟨henv, hcount, hsyms, hsout, hpos, hbv, hbit, hsv, hdata⟩ := h.only_bin rfl rfl rfl
    obtain ⟨-, hb, -, -, -, hstack⟩ := h
    obtain ⟨hbin, hbits⟩ := hb rfl
    rw [hbin] at henv
    exact ⟨henv, hbits, hcount, hsyms, hsout, hpos, hstack rfl, hbv, hbit, hsv, hdata⟩

end Sys2Proof.Machine
end

section
/-! PROOFS. The command word (spec/30_encoding.md R111-R114): a word and its two fields determine each other, so decoding
and encoding are inverse to each other. Then the step at a CMD write, and the error entry of an illegal command. -/

namespace Sys2Proof.Machine

/-! ## Words and their fields -/

/-- R111: RSVD and OP are all of a word. -/
@[simp] theorem rsvdField_append_opField (w : Word) : rsvdField w ++ opField w = w := by
  simp only [rsvdField, opField]
  exact (BitVec.extractLsb'_append_extractLsb'_eq_extractLsb' rfl).trans BitVec.extractLsb'_eq_self

/-- R85: the four byte lanes are all of a word. -/
@[simp] theorem decodeBytes_wordLanes (w : Word) : decodeBytes (wordLanes w) = .ok (decodeWord w) := by
  have hw : w.extractLsb' 24 8 ++ w.extractLsb' 16 8 ++ w.extractLsb' 8 8 ++ w.extractLsb' 0 8 = w := by
    rw [BitVec.extractLsb'_append_extractLsb'_eq_extractLsb' (start₁ := 16) (len₁ := 8) rfl,
      BitVec.extractLsb'_append_extractLsb'_eq_extractLsb' (start₁ := 8) (len₁ := 8) rfl,
      BitVec.extractLsb'_append_extractLsb'_eq_extractLsb' (start₁ := 0) (len₁ := 8) rfl]
    exact BitVec.extractLsb'_eq_self
  rw [wordLanes, decodeBytes, hw]

/-- The word of a command carries the command's own fields. -/
theorem fields_encode (i : Instr) : opField (encode i) = i.opcode ∧ rsvdField (encode i) = i.reserved := by
  cases i with
  | nop => exact Laws.CommandFields.nop
  | clear => exact Laws.CommandFields.clear
  | treeLoad => exact Laws.CommandFields.treeLoad
  | treeEmit => exact Laws.CommandFields.treeEmit
  | encode => exact Laws.CommandFields.encode
  | decode => exact Laws.CommandFields.decode
  | hdrWrite => exact Laws.CommandFields.hdrWrite
  | hdrCheck => exact Laws.CommandFields.hdrCheck
  | illegal op rsvd => exact Laws.CommandFields.illegal op rsvd

/-! ## What decodeWord answers -/

theorem wf_illegal_iff (op : Opcode) (rsvd : BitVec 28) :
    (Instr.illegal op rsvd).wf = true ↔ rsvd ≠ 0#28 ∨ 8 ≤ op.toNat := by
  simp [Instr.wf, or_comm]

/-- R113, R114: the words with RSVD not 0 or OP 8..15 are illegal. -/
theorem decodeWord_illegal {w : Word} (h : rsvdField w ≠ 0 ∨ 8 ≤ (opField w).toNat) :
    decodeWord w = .illegal (opField w) (rsvdField w) := by
  unfold decodeWord
  by_cases hr : rsvdField w = 0
  · have hop : 8 ≤ (opField w).toNat := h.resolve_left (· hr)
    rw [if_neg (· hr)]
    split
    case h_9 => rfl
    all_goals omega
  · rw [if_pos hr]

/-- A word with the fields of a well-formed command decodes to it. -/
theorem decodeWord_of_fields {w : Word} {i : Instr} (hwf : i.wf = true) (hop : opField w = i.opcode)
    (hr : rsvdField w = i.reserved) : decodeWord w = i := by
  cases i with
  | illegal op rsvd =>
    obtain rfl : opField w = op := hop
    obtain rfl : rsvdField w = rsvd := hr
    exact decodeWord_illegal ((wf_illegal_iff _ _).mp hwf)
  | _ => rw [decodeWord, hop, hr]; rfl

/-- R112-R114: every OP and RSVD are the fields of a well-formed command. -/
theorem exists_wf_of_fields (op : Opcode) (rsvd : BitVec 28) :
    ∃ i : Instr, i.wf = true ∧ op = i.opcode ∧ rsvd = i.reserved := by
  by_cases h : rsvd ≠ 0#28 ∨ 8 ≤ op.toNat
  · exact ⟨.illegal op rsvd, (wf_illegal_iff op rsvd).mpr h, rfl, rfl⟩
  · obtain ⟨hr, hop⟩ : rsvd = 0#28 ∧ op.toNat < 8 := by simpa using h
    subst hr
    have hlegal : ∀ o : Opcode, o.toNat < 8 →
        ∃ i ∈ [Instr.nop, .clear, .treeLoad, .treeEmit, .encode, .decode, .hdrWrite, .hdrCheck],
          i.wf = true ∧ o = i.opcode ∧ 0#28 = i.reserved := by decide
    obtain ⟨i, -, hi⟩ := hlegal op hop
    exact ⟨i, hi⟩

/-- R112-R114: a word decodes to the well-formed command with its fields, and to no other. -/
theorem decodeWord_eq_iff {w : Word} {i : Instr} :
    decodeWord w = i ↔ i.wf = true ∧ opField w = i.opcode ∧ rsvdField w = i.reserved := by
  constructor
  · rintro rfl
    obtain ⟨i, hwf, hop, hr⟩ := exists_wf_of_fields (opField w) (rsvdField w)
    rw [decodeWord_of_fields hwf hop hr]
    exact ⟨hwf, hop, hr⟩
  · rintro ⟨hwf, hop, hr⟩
    exact decodeWord_of_fields hwf hop hr

/-- A decoded command is well formed and has the fields of its word. -/
theorem decodeWord_fields (w : Word) :
    (decodeWord w).wf = true ∧ opField w = (decodeWord w).opcode ∧ rsvdField w = (decodeWord w).reserved :=
  decodeWord_eq_iff.mp rfl

theorem decodeWord_encode {i : Instr} (h : i.wf = true) : decodeWord (encode i) = i :=
  decodeWord_eq_iff.mpr ⟨h, fields_encode i⟩

theorem encode_decodeWord (w : Word) : encode (decodeWord w) = w := by
  obtain ⟨-, hop, hr⟩ := decodeWord_fields w
  rw [encode, ← hop, ← hr, rsvdField_append_opField]

/-! ## A CMD write, and the error entry at acceptance -/

/-- R124, R150: a 32-bit write to CMD is the command of the word written. -/
theorem step_cmdWrite {s : State} {w : Word} (h : s.env.hostProg[s.env.hostPc]? = some (.wr .word 0x0C#8 w)) :
    step s = exec (decodeWord w) s.advanceHost := by
  have hf : fetch s = .command (decodeWord w) := by simp [fetch, h, classify, offCmd]
  rw [step, hf]

/-- R305: where no command runs, the error entry changes ERR, DONE and ERRINFO alone. -/
theorem raise_of_idle {s : State} (hi : s.eng = .idle) (e : Cause) (sub : BitVec 4) (esym : Symbol) :
    s.raise e sub esym = s.failed (errinfoWord e.code s.op sub esym) := by
  simp only [State.raise, State.failed, ← hi]

/-- R46: ERRINFO of a command error without SUB and ESYM. -/
theorem errinfoWord_cause_eop (c : BitVec 4) (op : Opcode) :
    errinfoWord c op 0 0 = c.setWidth 32 ||| op.setWidth 32 <<< 4 := by
  simp [errinfoWord]

/-- R151: what an illegal command's write does on an idle block without an error. -/
theorem request_illegal {s : State} (hi : s.eng = .idle) (he : s.err = false) (op : Opcode) (start : Point) :
    s.request op false start = (s.begun op).raise .illegalCommand 0 0 := by
  rcases request_cases s op false start with ⟨-, hx⟩ | ⟨-, -, hx, -⟩ | ⟨hr, -⟩ | ⟨-, -, -, hx, -⟩ | ⟨-, -, hx, -⟩
  · simp [hi, he] at hx
  · cases hx
  · exact hr
  · cases hx
  · cases hx

/-! ## The obligations about the encoding -/

/-- Settles O1: the word of a command has the command's fields, and its byte lanes are that word. -/
theorem decodeOfEncode : Obligations.DecodeOfEncode := by
  intro i h
  have hd : decodeWord (encode i) = i := decodeWord_encode h
  exact ⟨hd, by rw [decodeBytes_wordLanes, hd]⟩

/-- Settles O2: a decoded command has the fields of its word. -/
theorem encodeOfDecode : Obligations.EncodeOfDecode := by
  intro w
  obtain ⟨hwf, -⟩ := decodeWord_fields w
  exact ⟨hwf, encode_decodeWord w⟩

/-- Settles O4: `decodeWord_eq_iff` at an illegal command. -/
theorem illegalWordsAreTheRest : Obligations.IllegalWordsAreTheRest := by
  intro w op rsvd
  rw [decodeWord_eq_iff, wf_illegal_iff]
  constructor
  · rintro ⟨hwf, hop, hr⟩
    exact ⟨hop.symm, hr.symm, hwf⟩
  · rintro ⟨hop, hr, hwf⟩
    exact ⟨hwf, hop.symm, hr.symm⟩

/-- Settles O3: twelve fixed words. -/
theorem tableWordsDecode : Obligations.TableWordsDecode := by
  unfold Obligations.TableWordsDecode
  decide

/-- Settles O5: the command is that of the word written, and a command's own word decodes to it. -/
theorem stepRunsDecodedCommand : Obligations.StepRunsDecodedCommand := by
  intro s
  refine ⟨fun w h => step_cmdWrite h, fun i hwf h => ?_⟩
  rw [step_cmdWrite h, decodeWord_encode hwf]

/-- Settles O10: acceptance enters the error state, and the idle engine takes no action after it. -/
theorem illegalCommandEntersError : Obligations.IllegalCommandEntersError := by
  intro op rsvd s hi he
  have hidle : (s.begun op).eng = .idle := hi
  have hentry : (s.begun op).raise .illegalCommand 0 0 =
      (s.begun op).failed (0x00000008#32 ||| (op.setWidth 32 <<< 4)) := by
    rw [raise_of_idle hidle, errinfoWord_cause_eop]
    rfl
  calc exec (.illegal op rsvd) s
      = afterEvent (s.request op false .finish) := rfl
    _ = afterEvent ((s.begun op).failed (0x00000008#32 ||| (op.setWidth 32 <<< 4))) := by
        rw [request_illegal hi he, hentry]
    _ = .next ((s.begun op).failed (0x00000008#32 ||| (op.setWidth 32 <<< 4))) :=
        engineRun_idle (s := (s.begun op).failed _) hidle _

end Sys2Proof.Machine
end

section
/-! PROOFS. The control of the engine: what the event of a CMD write leaves unchanged, the commands that end in it,
CLEAR, and how an engine action ends a command (spec/40_control.md R150-R153, R160, R161, R163). -/

namespace Sys2Proof.Machine

variable {s t u : State} {op : Opcode} {legal : Bool} {k : Point}

/-! ## The event of a CMD write -/

/-- The registers that only the host's own writes and a reset change (spec/10_state.md R35, R47, R50, R52), and
MAGIC_RESET. -/
def State.settings (s : State) :=
  (s.magic, s.magicReset, s.ieDone, s.ieErr, s.nodeSel, s.ctSelSym, s.ctSelWord)

/-- Dropped, ended at once or started, a command's own event leaves the settings, the tree and what belongs to its
commands, and the environment. -/
theorem request_leaves (s : State) (op : Opcode) (legal : Bool) (k : Point) :
    (s.request op legal k).settings = s.settings ∧ (s.request op legal k).view = s.view ∧
      (s.request op legal k).env = s.env := by
  rcases request_cases s op legal k with ⟨hr, -⟩ | ⟨hr, -⟩ | ⟨hr, -⟩ | ⟨hr, -⟩ | ⟨hr, -⟩ <;> rw [hr] <;>
    exact ⟨rfl, rfl, rfl⟩

theorem request_busy (hb : s.busy = true) (op : Opcode) (legal : Bool) (k : Point) :
    s.request op legal k = { s with drop := true } := if_pos hb

theorem request_nop (hi : s.eng = .idle) (k : Point) : s.request 0x0#4 true k = s := by
  simp [State.request, hi]

/-- In the error state only NOP and CLEAR are not dropped. -/
theorem request_errorState (herr : s.err = true)
    (hop : ¬(legal = true ∧ (op = 0x0#4 ∨ op = 0x1#4))) (k : Point) :
    s.request op legal k = { s with drop := true } := by
  rcases request_cases s op legal k with
    ⟨hr, -⟩ | ⟨-, -, hl, h0⟩ | ⟨-, -, hx, -⟩ | ⟨-, -, hx, -⟩ | ⟨-, -, hl, -, h1, -⟩
  · exact hr
  · exact absurd ⟨hl, .inl h0⟩ hop
  · simp [herr] at hx
  · simp [herr] at hx
  · exact absurd ⟨hl, .inr (h1 herr)⟩ hop

theorem request_noTree (hi : s.eng = .idle) (herr : s.err = false) (hneed : needsTree op = true)
    (htv : s.treeValid = false) (k : Point) : s.request op true k = (s.begun op).raise .noTree 0 0 := by
  rcases request_cases s op true k with ⟨-, hx⟩ | ⟨-, -, -, h0⟩ | ⟨-, -, -, hx⟩ | ⟨hr, -⟩ | ⟨-, -, -, -, -, hx⟩
  · simp [hi, herr] at hx
  · rw [h0] at hneed
    cases hneed
  · cases hx
  · exact hr
  · simp [hx hneed] at htv

/-- CLEAR starts in the error state too. -/
theorem request_clear (hi : s.eng = .idle) (k : Point) :
    s.request 0x1#4 true k = { s.begun 0x1#4 with eng := .run 0x1#4 k } := by
  rcases request_cases s 0x1#4 true k with
    ⟨-, hx⟩ | ⟨-, -, -, hx⟩ | ⟨-, -, -, hx⟩ | ⟨-, -, -, -, hx, -⟩ | ⟨hr, -⟩
  · simp [hi] at hx
  · cases hx
  · cases hx
  · cases hx
  · exact hr

/-! ## Commands that end in the event of their CMD write -/

/-- No engine action follows an event that leaves the engine idle. -/
theorem afterEvent_idle (hi : s.eng = .idle) : afterEvent s = .next s := engineRun_idle hi _

/-- A command without the tree that it needs ends in NO_TREE, which is cause 7 (spec/60_exceptions.md R300). -/
theorem afterEvent_noTree (hi : s.eng = .idle) (herr : s.err = false) (hneed : needsTree op = true)
    (htv : s.treeValid = false) (k : Point) :
    afterEvent (s.request op true k) = .next ((s.begun op).failed (0x00000007#32 ||| op.setWidth 32 <<< 4)) := by
  have hidle : (s.begun op).eng = .idle := hi
  rw [request_noTree hi herr hneed htv, raise_of_idle hidle, errinfoWord_cause_eop]
  exact afterEvent_idle hidle

/-! ## What an engine action leaves, and how it ends a command -/

/-- The points at which TREE_LOAD's Parse writes NS or the allocation counter (spec/42_tree_codec.md R200, R201). -/
def Point.parses : Point → Bool
  | .load => true
  | .recv _ _ .tag => true
  | .recv _ _ (.symbol _) => true
  | .parseRet _ => true
  | _ => false

/-- From s to t the settings are the same; so is DROP, but for CLEAR's updates, and so are NS and the allocation
counter, but for Parse. -/
def Point.Leaves (k : Point) (s t : State) : Prop :=
  t.settings = s.settings ∧ (k ≠ .clear → t.drop = s.drop) ∧ (k.parses = false → t.ns = s.ns ∧ t.alloc = s.alloc)

theorem Point.leaves_of_eq (k : Point) (hs : t.settings = s.settings := by rfl) (hd : t.drop = s.drop := by rfl)
    (hn : t.ns = s.ns := by rfl) (ha : t.alloc = s.alloc := by rfl) : k.Leaves s t :=
  ⟨hs, fun _ => hd, fun _ => ⟨hn, ha⟩⟩

theorem Point.leaves_of_parses (hk : k.parses = true) (hs : t.settings = s.settings := by rfl)
    (hd : t.drop = s.drop := by rfl) : k.Leaves s t := ⟨hs, fun _ => hd, by simp [hk]⟩

/-- The next state, if there is one, differs from s only as point k allows, and a command that has ended in it has ended
with an error: DONE = 0 and ERR = 1. -/
def Proceeds (k : Point) (s : State) : Res → Prop
  | .next t => k.Leaves s t ∧ (t.eng = .idle → t.done = false ∧ t.err = true)
  | _ => True

theorem proceeds_goto (he : s.eng = .run op k) (hu : k.Leaves s u) {next : Point} (heng : u.eng = s.eng := by rfl) :
    Proceeds k s (.next (u.goto next)) := ⟨hu, fun hi => by simp [heng, he] at hi⟩

theorem proceeds_stay (he : s.eng = .run op k) : Proceeds k s (.next s) :=
  ⟨k.leaves_of_eq, fun hi => by simp [he] at hi⟩

theorem proceeds_raise (hu : k.Leaves s u) (e : Cause) (sub : BitVec 4) (esym : Symbol) :
    Proceeds k s (.next (u.raise e sub esym)) := ⟨hu, fun _ => ⟨rfl, rfl⟩⟩

section
variable (he : s.eng = .run op k)
include he

theorem actRecvBit_proceeds {n : Nat} {v : Word} {who : Reader} : Proceeds k s (actRecvBit n v who s) := by
  unfold actRecvBit
  split
  · exact proceeds_stay he
  · exact proceeds_goto he k.leaves_of_eq
  · exact proceeds_goto he k.leaves_of_eq

theorem actTag_proceeds (hk : k.parses = true) (b : Bool) : Proceeds k s (actTag b s) := by
  unfold actTag
  split
  · exact proceeds_raise k.leaves_of_eq _ _ _
  · split
    · exact proceeds_goto he (Point.leaves_of_parses hk)
    · exact proceeds_goto he (Point.leaves_of_parses hk)

theorem actSymbol_proceeds (hk : k.parses = true) (idx : NodeIdx) (v : Symbol) : Proceeds k s (actSymbol idx v s) := by
  unfold actSymbol
  split
  · exact proceeds_raise k.leaves_of_eq _ _ _
  · split
    · trivial
    · rename_i t ht
      obtain ⟨m, rfl⟩ := setNode?_some ht
      exact proceeds_goto he (Point.leaves_of_parses hk)

theorem actParseRight_proceeds (idx : NodeIdx) : Proceeds k s (actParseRight idx s) :=
  proceeds_goto he k.leaves_of_eq

theorem actParseRet_proceeds (hk : k.parses = true) (idx : NodeIdx) : Proceeds k s (actParseRet idx s) := by
  unfold actParseRet
  split
  · split
    · exact proceeds_goto he k.leaves_of_eq
    · exact actParseRight_proceeds he idx
  · split
    · split
      · trivial
      · rename_i t ht
        obtain ⟨m, rfl⟩ := setNode?_some ht
        exact proceeds_goto he (Point.leaves_of_parses hk)
    · exact actParseRight_proceeds he idx

theorem actWalk_proceeds (i : NodeIdx) (p : Bits) : Proceeds k s (actWalk i p s) := by
  unfold actWalk
  split
  · trivial
  · split
    · trivial
    · rename_i t ht
      obtain ⟨m, rfl⟩ := setCode?_some ht
      exact proceeds_goto he k.leaves_of_eq
  · exact proceeds_goto he k.leaves_of_eq

theorem actEmit_proceeds (i : NodeIdx) : Proceeds k s (actEmit i s) := by
  unfold actEmit
  split
  · trivial
  · exact proceeds_goto he k.leaves_of_eq
  · exact proceeds_goto he k.leaves_of_eq

theorem actEmitCode_proceeds (sym : Symbol) (next : Point) : Proceeds k s (actEmitCode sym next s) := by
  unfold actEmitCode
  split
  · exact proceeds_goto he k.leaves_of_eq
  · exact proceeds_raise k.leaves_of_eq _ _ _

theorem actDecode_proceeds : Proceeds k s (actDecode s) := by
  unfold actDecode
  dsimp only
  split
  · trivial
  · split
    · exact proceeds_goto he k.leaves_of_eq
    · exact proceeds_raise k.leaves_of_eq _ _ _
  · exact proceeds_goto he k.leaves_of_eq

theorem actCodeBit_proceeds (b : Bool) : Proceeds k s (actCodeBit b s) := by
  unfold actCodeBit
  split
  · trivial
  · trivial
  · unfold actArrive
    split
    · trivial
    · split
      · exact proceeds_goto he k.leaves_of_eq
      · exact proceeds_goto he k.leaves_of_eq
    · exact proceeds_goto he k.leaves_of_eq

theorem actMagic_proceeds (v : Word) : Proceeds k s (actMagic v s) := by
  unfold actMagic
  split
  · exact proceeds_goto he k.leaves_of_eq
  · exact proceeds_raise k.leaves_of_eq _ _ _

end

/-- Every action but Complete goes on, waits, or ends its command with an error. -/
theorem act_proceeds (he : s.eng = .run op k) (hk : k ≠ .finish) : Proceeds k s (act k s) := by
  cases k with
  | recv left v who =>
    cases left with
    | succ n => exact actRecvBit_proceeds he
    | zero =>
      cases who with
      | tag => exact actTag_proceeds he rfl _
      | symbol idx => exact actSymbol_proceeds he rfl idx _
      | code => exact actCodeBit_proceeds he _
      | magic => exact actMagic_proceeds he v
  | starved who => cases who <;> exact proceeds_raise (Point.leaves_of_eq _) _ _ _
  | clear => exact proceeds_goto (u := s.dropTree.leaveError) he ⟨rfl, fun hc => absurd rfl hc, fun _ => ⟨rfl, rfl⟩⟩
  | load => exact proceeds_goto (u := { s.dropTree with alloc := 0, stack := [] }) he (Point.leaves_of_parses rfl)
  | parseRet idx => exact actParseRet_proceeds he rfl idx
  | walk i p => exact actWalk_proceeds he i p
  | emit i => exact actEmit_proceeds he i
  | decode => exact actDecode_proceeds he
  | gotSym b => cases b <;> exact actEmitCode_proceeds he _ _
  | send bits next =>
    cases bits with
    | nil => exact proceeds_goto he (Point.leaves_of_eq _)
    | cons b rest => exact proceeds_goto he (Point.leaves_of_eq _)
  | drain rest next =>
    simp only [act, actDrain]
    split
    · exact proceeds_goto he (Point.leaves_of_eq _)
    · exact proceeds_stay he
  | put v => exact proceeds_goto he (Point.leaves_of_eq _)
  | drainSym =>
    simp only [act, actDrainSym]
    split
    · exact proceeds_goto he (Point.leaves_of_eq _)
    · exact proceeds_stay he
  | encode =>
    simp only [act, actReadSym]
    split
    · exact proceeds_stay he
    · exact proceeds_goto he (Point.leaves_of_eq _)
    · exact proceeds_goto he (Point.leaves_of_eq _)
  | walkRet | emitRet =>
    simp only [act, actWalkRet, actEmitRet]
    split
    · exact proceeds_goto he (Point.leaves_of_eq _)
    · exact proceeds_goto he (Point.leaves_of_eq _)
  | loadDone | emitRoot | hdrWrite | hdrCheck => exact proceeds_goto he (Point.leaves_of_eq _)
  | finish => exact absurd rfl hk

theorem engineStep_finish (he : s.eng = .run op .finish) : engineStep s = .next s.complete := engineStep_run he

/-- What an engine action leaves, Complete too. -/
theorem engineStep_leaves (he : s.eng = .run op k) (ht : engineStep s = .next t) : k.Leaves s t := by
  by_cases hk : k = .finish
  · subst hk
    rw [engineStep_finish he] at ht
    cases ht
    exact Point.leaves_of_eq _
  · have hp := act_proceeds he hk
    rw [← engineStep_run he, ht] at hp
    exact hp.1

/-- A command that ends by another action than Complete ends with an error. -/
theorem engineStep_ends (he : s.eng = .run op k) (hk : k ≠ .finish) (ht : engineStep s = .next t)
    (hi : t.eng = .idle) : t.done = false ∧ t.err = true := by
  have hp := act_proceeds he hk
  rw [← engineStep_run he, ht] at hp
  exact hp.2 hi

/-! ## The obligations about the control of the engine -/

/-- Settles O53: Complete sets DONE where ERR is 0, and every other end is an error entry. -/
theorem commandEndsOnce : Obligations.CommandEndsOnce := by
  intro s t h hb ht hi
  cases he : s.eng with
  | idle => simp [he] at hb
  | run op k =>
    by_cases hk : k = .finish
    · subst hk
      obtain ⟨-, -, -, herr, -⟩ := h.runs he nofun
      rw [engineStep_finish he] at ht
      cases ht
      simp [herr]
    · obtain ⟨hd, herr⟩ := engineStep_ends he hk ht hi
      rw [hd, herr]
      rfl

/-- Settles O7: the event of the CMD write sets DROP alone. -/
theorem busyCommandIsDropped : Obligations.BusyCommandIsDropped := by
  intro i s hb
  obtain ⟨op, legal, k, hx, -⟩ := exec_cases i s
  rw [hx, request_busy hb]
  rfl

/-- Settles O8: the command is no legal one with the OP of NOP or CLEAR. -/
theorem errorStateDropsCommands : Obligations.ErrorStateDropsCommands := by
  intro i s hi herr hnop hclear
  obtain ⟨op, legal, k, hx, hcase⟩ := exec_cases i s
  have hop : ¬(legal = true ∧ (op = 0x0#4 ∨ op = 0x1#4)) := by
    rcases hcase with ⟨hc, -⟩ | ⟨hc, -⟩ | ⟨-, rfl, -⟩ | ⟨-, rfl, -⟩ | ⟨-, rfl, -⟩ | ⟨-, rfl, -⟩ | ⟨-, rfl, -⟩ |
      ⟨-, rfl, -⟩ | ⟨rsvd, -, hl, -⟩
    · exact absurd hc hnop
    · exact absurd hc hclear
    iterate 6 simp
    · simp [hl]
  rw [hx, request_errorState herr hop]
  exact afterEvent_idle (s := { s with drop := true }) hi

/-- Settles O9: the event leaves the state as it is, and the engine idle. -/
theorem nopCompletes : Obligations.NopCompletes := by
  intro s hi
  calc exec .nop s
      = afterEvent (s.request 0x0#4 true .finish) := rfl
    _ = .next s := by rw [request_nop hi, afterEvent_idle hi]

/-- Settles O11: `afterEvent_noTree` for the three commands that need a tree. -/
theorem commandWithoutTreeEntersError : Obligations.CommandWithoutTreeEntersError := by
  intro s hi herr htv
  exact ⟨afterEvent_noTree hi herr rfl htv _, afterEvent_noTree hi herr rfl htv _, afterEvent_noTree hi herr rfl htv _⟩

/-- Settles O12: CLEAR's updates, then Complete. -/
theorem clearCompletes : Obligations.ClearCompletes := by
  intro s hi hp
  have h1 : engineStep (s.request 0x1#4 true .clear) =
      .next ({ s.begun 0x1#4 with eng := .run 0x1#4 .clear }.dropTree.leaveError.goto .finish) := by
    rw [request_clear hi]
    rfl
  have h2 := run_finish (s := { s.begun 0x1#4 with eng := .run 0x1#4 .clear }.dropTree.leaveError.goto .finish) rfl
  obtain ⟨-, -, henv⟩ := request_leaves s 0x1#4 true .clear
  have hrun := afterEvent_ends (engineRun_then (engineRun_one h1) h2) rfl (by rwa [henv])
  rw [exec, execClear, hrun]
  simp [State.complete, State.leaveError, State.dropTree, State.goto, hi]

/-- Settles O56: before Complete no output beat is pending, and after it the engine waits on no input. -/
theorem completeEndsCommand : Obligations.CompleteEndsCommand := by
  intro s op h he
  obtain ⟨hb, ho⟩ := h.ports he
  exact ⟨engineStep_finish he, hb, ho, rfl, rfl⟩

/-- Settles O57: `request_leaves`, field by field. -/
theorem requestEventKeepsTree : Obligations.RequestEventKeepsTree := by
  intro s op legal k
  obtain ⟨hset, hview, henv⟩ := request_leaves s op legal k
  simp only [State.settings, State.view, Prod.mk.injEq] at hset hview
  obtain ⟨hmagic, -, hdone, herr, -⟩ := hset
  obtain ⟨hns, hct, htv, hnc, -⟩ := hview
  exact ⟨hns, hct, hnc, htv, hmagic, hdone, herr, henv⟩

end Sys2Proof.Machine
end

section
/-! PROOFS. What CLEAR and TREE_LOAD leave unchanged, however far they get: TREE_LOAD writes no entry of NS from its
allocation counter on (spec/40_control.md R161, spec/42_tree_codec.md R200, R201). -/

namespace Sys2Proof.Machine

variable {s t u : State} {op : Opcode} {k : Point}

/-! ## Runs of engine actions -/

/-- A predicate that every action of a running command keeps holds after a run: an idle engine takes none. -/
theorem engineRun_keeps_running {P : State → Prop}
    (hP : ∀ u v op k, P u → u.eng = .run op k → engineStep u = .next v → P v) {n : Nat} (hs : P s)
    (ht : engineRun n s = .next t) : P t := by
  refine engineRun_keeps (fun u v hu hv => ?_) hs ht
  cases he : u.eng with
  | idle =>
    rw [engineStep_idle he] at hv
    cases hv
    exact hu
  | run op k => exact hP u v op k hu he hv

/-- The host's settings outlast every run of engine actions (spec/10_state.md R35, R47, R50, R52). -/
theorem engineRun_settings {n : Nat} (ht : engineRun n s = .next t) : t.settings = s.settings := by
  refine engineRun_keeps_running (P := fun u => u.settings = s.settings) (fun u v op k hu he hv => ?_) rfl ht
  obtain ⟨hset, -⟩ := engineStep_leaves he hv
  exact hset.trans hu

/-- So they outlast every command. -/
theorem exec_settings {i : Instr} (ht : exec i s = .next t) : t.settings = s.settings := by
  obtain ⟨op, legal, k, hx, -⟩ := exec_cases i s
  rw [hx] at ht
  obtain ⟨hset, -⟩ := request_leaves s op legal k
  exact (engineRun_settings ht).trans hset

/-- Only CLEAR has the point of CLEAR's updates. -/
theorem ne_clear_of_partOf (hop : op ≠ 0x1#4) (hk : k.partOf op = true) : k ≠ .clear := by
  rintro rfl
  exact hop (eq_of_beq hk)

/-- Only TREE_LOAD has the points of Parse. -/
theorem parses_of_partOf (hop : op ≠ 0x2#4) (hk : k.partOf op = true) : k.parses = false := by
  cases k with
  | load | parseRet => exact absurd (eq_of_beq hk) hop
  | recv left v who =>
    cases who with
    | tag | symbol => exact absurd (eq_of_beq hk) hop
    | code | magic => rfl
  | _ => rfl

/-- While a command goes on, DROP changes only in CLEAR, and NS and the allocation counter only in TREE_LOAD. -/
theorem engineRun_leaves {n : Nat} (h : InCommand op s) (ht : engineRun n s = .next t) :
    (op ≠ 0x1#4 → t.drop = s.drop) ∧ (op ≠ 0x2#4 → t.ns = s.ns ∧ t.alloc = s.alloc) := by
  refine (engineRun_keeps_running (P := fun u => InCommand op u ∧ (op ≠ 0x1#4 → u.drop = s.drop) ∧
    (op ≠ 0x2#4 → u.ns = s.ns ∧ u.alloc = s.alloc)) ?_ ⟨h, fun _ => rfl, fun _ => ⟨rfl, rfl⟩⟩ ht).2
  rintro u v op' k ⟨hin, hdrop, hmem⟩ he hv
  obtain ⟨hin', -⟩ := engineStep_goes hin hv
  obtain ⟨k', he', hk⟩ := hin.resolve_left (by simp [he])
  obtain ⟨-, hdrop', hmem'⟩ := engineStep_leaves he' hv
  refine ⟨hin', fun hop => (hdrop' (ne_clear_of_partOf hop hk)).trans (hdrop hop), fun hop => ?_⟩
  obtain ⟨hns, halloc⟩ := hmem hop
  obtain ⟨hns', halloc'⟩ := hmem' (parses_of_partOf hop hk)
  exact ⟨hns'.trans hns, halloc'.trans halloc⟩

/-! ## TREE_LOAD writes below its allocation counter -/

/-- The nodes of the parser's stack are below n: each frame's node comes before its right subtree, and that starts at n
or before (spec/42_tree_codec.md R201). This is what `ParseStack` says without the subtrees. -/
def FramesBelow : List Frame → Nat → Prop
  | [], _ => True
  | f :: fs, n => f.node.toNat < f.right.toNat ∧ f.right.toNat ≤ n ∧ FramesBelow fs f.node.toNat

theorem FramesBelow.mono {fs : List Frame} {n m : Nat} (h : FramesBelow fs n) (hnm : n ≤ m) : FramesBelow fs m := by
  cases fs with
  | nil => trivial
  | cons f fs =>
    obtain ⟨hnode, hright, hfs⟩ := h
    exact ⟨hnode, hright.trans hnm, hfs⟩

/-- The index before a left child's is above the stack too (log 6). -/
theorem FramesBelow.pred {fs : List Frame} {n : Nat} (h : FramesBelow fs n) (hn : parseBase fs ≠ n) :
    FramesBelow fs (n - 1) := by
  cases fs with
  | nil => trivial
  | cons f fs =>
    obtain ⟨hnode, hright, hfs⟩ := h
    simp only [parseBase] at hn
    exact ⟨hnode, by omega, hfs⟩

theorem FramesBelow.base_le {fs : List Frame} {n : Nat} (h : FramesBelow fs n) : parseBase fs ≤ n := by
  cases fs with
  | nil => exact Nat.zero_le n
  | cons f fs =>
    obtain ⟨-, hright, -⟩ := h
    exact hright

/-- What holds at the points of TREE_LOAD about the indices that it writes next; s is the state it started from. -/
def LoadPoint (s u : State) : Point → Prop
  | .load => u.ns = s.ns
  | .recv _ _ .tag => u.alloc.toNat ≤ 513 ∧ FramesBelow u.stack u.alloc.toNat
  | .recv _ _ (.symbol idx) =>
    u.alloc.toNat ≤ 513 ∧ idx.toNat < u.alloc.toNat ∧ FramesBelow u.stack idx.toNat
  | .parseRet idx => u.alloc.toNat ≤ 513 ∧ idx.toNat < u.alloc.toNat ∧ FramesBelow u.stack idx.toNat
  | .starved _ | .walk _ _ | .walkRet | .loadDone | .finish => True
  | _ => False

/-- NS is in canonical form, and reads as it did in s from u's allocation counter on. -/
def KeepsAbove (s u : State) : Prop :=
  Memory.wf Node.unwritten u.ns = true ∧
    ∀ a, u.alloc.toNat ≤ a → Memory.read Node.unwritten u.ns a = Memory.read Node.unwritten s.ns a

/-- TREE_LOAD, started from s, has got to u. -/
def LoadsTo (s u : State) : Prop := KeepsAbove s u ∧ ∀ op k, u.eng = .run op k → LoadPoint s u k

/-- The next state, if there is one, is a state that TREE_LOAD gets to. -/
def LoadsOn (s : State) : Res → Prop
  | .next t => LoadsTo s t
  | _ => True

theorem KeepsAbove.write (h : KeepsAbove s u) {i : NodeIdx} (hi : i.toNat < u.alloc.toNat) (e : Node) :
    KeepsAbove s { u with ns := Memory.write Node.unwritten u.ns i.toNat e } := by
  obtain ⟨hw, habove⟩ := h
  refine ⟨Memory.wf_write hw _ _, fun a ha => ?_⟩
  have ha' : u.alloc.toNat ≤ a := ha
  rw [Memory.read_write_other hw (by omega), habove a ha']

theorem loadsOn_goto (hu : KeepsAbove s u) (he : u.eng = .run op k) {next : Point}
    (hk : LoadPoint s (u.goto next) next) : LoadsOn s (.next (u.goto next)) := by
  refine ⟨hu, fun op' k' h => ?_⟩
  obtain ⟨-, rfl⟩ : op = op' ∧ next = k' := by simpa [he] using h
  exact hk

theorem loadsOn_raise (hu : KeepsAbove s u) (e : Cause) (sub : BitVec 4) (esym : Symbol) :
    LoadsOn s (.next (u.raise e sub esym)) := ⟨hu, nofun⟩

section
variable (hu : KeepsAbove s u) (he : u.eng = .run op k)
include hu he

theorem actRecvBit_loadsOn {n : Nat} {v : Word} {who : Reader} (hk : LoadsTo s u)
    (hnext : ∀ w, LoadPoint s u (.recv n w who)) : LoadsOn s (actRecvBit n v who u) := by
  unfold actRecvBit
  split
  · exact hk
  · exact loadsOn_goto hu he trivial
  · rename_i b _
    have hp := hnext (shiftIn v b)
    cases who with
    | tag | symbol => exact loadsOn_goto (u := u.takeBit) hu he hp
    | code | magic => cases hp

theorem actTag_loadsOn (ha : u.alloc.toNat ≤ 513) (hfs : FramesBelow u.stack u.alloc.toNat) (b : Bool) :
    LoadsOn s (actTag b u) := by
  unfold actTag
  split
  · exact loadsOn_raise hu _ _ _
  have hne : u.alloc.toNat ≠ 513 := ‹_›
  have hsucc := toNat_succ10 (n := u.alloc) (by omega)
  have hfits : (u.alloc + 1).toNat ≤ 513 := by omega
  obtain ⟨hw, habove⟩ := hu
  have hu' : KeepsAbove s { u with alloc := u.alloc + 1 } := ⟨hw, fun a (hle : (u.alloc + 1).toNat ≤ a) =>
    habove a (by omega)⟩
  split
  · have hfs' : FramesBelow u.stack (u.alloc + 1).toNat := hfs.mono (by omega)
    exact loadsOn_goto (next := parsePoint) hu' he ⟨hfits, hfs'⟩
  · have hidx : u.alloc.toNat < (u.alloc + 1).toNat := by omega
    exact loadsOn_goto (next := .recv 9 0 (.symbol u.alloc)) hu' he ⟨hfits, hidx, hfs⟩

theorem actSymbol_loadsOn {idx : NodeIdx} (ha : u.alloc.toNat ≤ 513) (hidx : idx.toNat < u.alloc.toNat)
    (hfs : FramesBelow u.stack idx.toNat) (v : Symbol) : LoadsOn s (actSymbol idx v u) := by
  unfold actSymbol
  split
  · exact loadsOn_raise hu _ _ _
  · rw [setNode?_eq rfl (by omega)]
    exact loadsOn_goto (next := .parseRet idx) (hu.write hidx _) he ⟨ha, hidx, hfs⟩

theorem actParseRight_loadsOn {idx : NodeIdx} (ha : u.alloc.toNat ≤ 513) (hidx : idx.toNat < u.alloc.toNat)
    (hfs : FramesBelow u.stack idx.toNat) (hbase : parseBase u.stack ≠ idx.toNat) :
    LoadsOn s (actParseRight idx u) := by
  have hle := hfs.base_le
  have hpred : (idx - 1).toNat = idx.toNat - 1 := by bv_omega
  have hstack : FramesBelow (⟨idx - 1, u.alloc, []⟩ :: u.stack) u.alloc.toNat :=
    ⟨by simp only; omega, le_rfl, hpred.symm ▸ hfs.pred hbase⟩
  exact loadsOn_goto (u := { u with stack := ⟨idx - 1, u.alloc, []⟩ :: u.stack }) (next := parsePoint) hu he
    ⟨ha, hstack⟩

theorem actParseRet_loadsOn {idx : NodeIdx} (ha : u.alloc.toNat ≤ 513) (hidx : idx.toNat < u.alloc.toNat)
    (hfs : FramesBelow u.stack idx.toNat) : LoadsOn s (actParseRet idx u) := by
  have hright := actParseRight_loadsOn hu he ha hidx hfs
  unfold actParseRet
  split
  · rename_i hst
    split
    · exact loadsOn_goto hu he trivial
    · rename_i h0
      exact hright (by rw [hst]; exact fun hc => h0 (BitVec.eq_of_toNat_eq hc.symm))
  · rename_i f fs hst
    split
    · rename_i hr
      rw [hst] at hfs
      obtain ⟨hnode, hle, hfs⟩ := hfs
      rw [setNode?_eq rfl (by omega)]
      have hbelow : f.node.toNat < u.alloc.toNat := by omega
      have hu' := hu.write hbelow (.internal (f.node + 1) idx)
      exact loadsOn_goto (u := { u with ns := _, stack := fs }) (next := .parseRet f.node) hu' he ⟨ha, hbelow, hfs⟩
    · rename_i hr
      exact hright (by rw [hst]; exact fun hc => hr (BitVec.eq_of_toNat_eq hc.symm))

/-- Once Parse has returned, NS is only read. -/
theorem actWalk_loadsOn (i : NodeIdx) (p : Bits) : LoadsOn s (actWalk i p u) := by
  unfold actWalk
  split
  · trivial
  · split
    · trivial
    · rename_i t ht
      obtain ⟨m, rfl⟩ := setCode?_some ht
      exact loadsOn_goto hu he trivial
  · rename_i l r _
    exact loadsOn_goto (u := { u with stack := ⟨r, 0, p ++ [true]⟩ :: u.stack }) (next := .walk _ _) hu he trivial

end

/-- The actions of TREE_LOAD, point by point. -/
theorem act_loadsOn (h : LoadsTo s u) (he : u.eng = .run op k) : LoadsOn s (act k u) := by
  obtain ⟨hu, hpoint⟩ := id h
  have hk := hpoint op k he
  cases k with
  | load =>
    have hns : u.ns = s.ns := hk
    obtain ⟨hw, -⟩ := hu
    have hu' : KeepsAbove s { u.dropTree with alloc := 0, stack := [] } := ⟨hw, fun a _ => by rw [← hns]; rfl⟩
    exact loadsOn_goto (next := parsePoint) hu' he ⟨Nat.zero_le _, trivial⟩
  | recv left v who =>
    cases left with
    | succ n => cases who <;> exact actRecvBit_loadsOn hu he h fun _ => hk
    | zero =>
      cases who with
      | tag =>
        obtain ⟨ha, hfs⟩ := hk
        exact actTag_loadsOn hu he ha hfs _
      | symbol idx =>
        obtain ⟨ha, hidx, hfs⟩ := hk
        exact actSymbol_loadsOn hu he ha hidx hfs _
      | code | magic => cases hk
  | starved who => cases who <;> exact loadsOn_raise hu _ _ _
  | parseRet idx =>
    obtain ⟨ha, hidx, hfs⟩ := hk
    exact actParseRet_loadsOn hu he ha hidx hfs
  | walk i p => exact actWalk_loadsOn hu he i p
  | walkRet =>
    simp only [act, actWalkRet]
    split
    · exact loadsOn_goto hu he trivial
    · rename_i f fs _
      exact loadsOn_goto (u := { u with stack := fs }) (next := .walk f.node f.path) hu he trivial
  | loadDone => exact loadsOn_goto (u := { u with nodeCount := u.alloc, treeValid := true }) hu he trivial
  | finish => exact ⟨hu, nofun⟩
  | _ => cases hk

theorem engineRun_loadsTo {n : Nat} (h : LoadsTo s u) (ht : engineRun n u = .next t) : LoadsTo s t := by
  refine engineRun_keeps_running (fun v w op k hv he hw => ?_) h ht
  have hon := act_loadsOn hv he
  rwa [← engineStep_run he, hw] at hon

/-! ## The obligation about the two commands -/

/-- CLEAR uses neither NS nor the allocation counter nor the walk stack (spec/40_control.md R161). -/
theorem clear_leaves (hi : s.eng = .idle) (ht : exec .clear s = .next t) :
    t.ns = s.ns ∧ t.alloc = s.alloc ∧ t.stack = s.stack := by
  have hrun : afterEvent { s.begun 0x1#4 with eng := .run 0x1#4 .clear } = .next t := by
    rw [← request_clear hi]
    exact ht
  have hin : InCommand 0x1#4 { s.begun 0x1#4 with eng := .run 0x1#4 .clear } := .inr ⟨.clear, rfl, rfl⟩
  obtain ⟨-, hmem⟩ := engineRun_leaves hin hrun
  obtain ⟨hns, halloc⟩ := hmem (by decide)
  obtain ⟨-, -, -, -, -, hstack⟩ := engineRun_usesOnly hin hrun
  exact ⟨hns, halloc, hstack rfl⟩

/-- TREE_LOAD that is not dropped leaves DROP, and NS from its allocation counter on (spec/42_tree_codec.md R200). -/
theorem treeLoad_leaves (hi : s.eng = .idle) (herr : s.err = false) (hw : Memory.wf Node.unwritten s.ns = true)
    (ht : exec .treeLoad s = .next t) : KeepsAbove s t ∧ t.drop = s.drop := by
  have hrun : afterEvent { s.begun 0x2#4 with eng := .run 0x2#4 .load } = .next t := by
    rw [← request_runs .load hi (by decide) herr fun hc => absurd hc (by decide)]
    exact ht
  have hstart : LoadsTo s { s.begun 0x2#4 with eng := .run 0x2#4 .load } := by
    refine ⟨⟨hw, fun _ _ => rfl⟩, fun op k he => ?_⟩
    cases he
    rfl
  obtain ⟨habove, -⟩ := engineRun_loadsTo hstart hrun
  obtain ⟨hdrop, -⟩ := engineRun_leaves (op := 0x2#4) (.inr ⟨.load, rfl, rfl⟩) hrun
  exact ⟨habove, hdrop (by decide)⟩

/-- Settles O60: the settings outlast every command, and a TREE_LOAD in the error state is dropped. -/
theorem treeCommandsFrame : Obligations.TreeCommandsFrame := by
  intro i s t hcase hi hw ht
  have hset := exec_settings ht
  simp only [State.settings, Prod.mk.injEq] at hset
  obtain ⟨hmagic, hreset, hdone, herr, hnode, hsym, hword⟩ := hset
  refine ⟨hmagic, hreset, hdone, herr, hnode, hsym, hword, ?_, ?_⟩
  · rintro rfl
    exact clear_leaves hi ht
  · rintro rfl
    cases he : s.err with
    | true =>
      rw [errorStateDropsCommands .treeLoad s hi he nofun nofun] at ht
      cases ht
      exact ⟨fun _ _ => rfl, nofun⟩
    | false =>
      obtain ⟨⟨-, habove⟩, hdrop⟩ := treeLoad_leaves hi he hw ht
      exact ⟨habove, fun _ => hdrop⟩

end Sys2Proof.Machine
end

section
/-! PROOFS. The tree the host builds (spec/41_tree_builder_host.md): insertion and merging only permute the leaf symbols
in the queue (R183), so the leaves are one per table entry and the sentinel (R182), and the tree fits the node store
(R188). -/

namespace Sys2Proof.Machine

/-! ## Leaf symbols of a tree -/

@[simp] theorem HTree.symbols_leaf (x : Symbol) : (HTree.leaf x).symbols = [x] := rfl
@[simp] theorem HTree.symbols_node (l r : HTree) : (HTree.node l r).symbols = l.symbols ++ r.symbols := rfl

theorem HTree.symbols_length (t : HTree) : t.symbols.length = t.leaves := by
  induction t with
  | leaf _ => rfl
  | node l r hl hr => simp [HTree.leaves, hl, hr]

theorem HTree.legal_iff (t : HTree) : t.legal = true ↔ ∀ x ∈ t.symbols, x.toNat ≤ 256 := by
  induction t with
  | leaf _ => simp [HTree.legal]
  | node l r hl hr => simp [HTree.legal, hl, hr, or_imp, forall_and]

/-! ## The symbol of a byte -/

theorem symOfByte_toNat (b : Byte) : (symOfByte b).toNat = b.toNat :=
  BitVec.toNat_setWidth_of_le (by decide)

theorem symOfByte_lt (b : Byte) : (symOfByte b).toNat < 256 := by
  rw [symOfByte_toNat]
  exact b.isLt

theorem symOfByte_injective : Function.Injective symOfByte := fun a b h =>
  BitVec.eq_of_toNat_eq (by rw [← symOfByte_toNat a, h, symOfByte_toNat b])

theorem symOfByte_ne_sentinel (b : Byte) : symOfByte b ≠ Config.sentinel := fun h =>
  absurd (symOfByte_lt b) (by rw [h]; decide)

/-! ## The priority queue -/

/-- The leaf symbols of all trees in a queue. -/
def queueSymbols (q : List QueueElem) : List Symbol := q.flatMap fun e => e.tree.symbols

@[simp] theorem queueSymbols_nil : queueSymbols [] = [] := rfl
@[simp] theorem queueSymbols_cons (e : QueueElem) (q : List QueueElem) :
    queueSymbols (e :: q) = e.tree.symbols ++ queueSymbols q := rfl

theorem queueSymbols_perm {p q : List QueueElem} (h : p.Perm q) : (queueSymbols p).Perm (queueSymbols q) :=
  h.flatMap_right _

theorem insertElem_perm (e : QueueElem) (q : List QueueElem) : (insertElem e q).Perm (e :: q) := by
  induction q with
  | nil => exact .refl _
  | cons x q ih =>
    rw [insertElem]
    split
    · exact .refl _
    · exact (ih.cons x).trans (.swap e x q)

/-- Inserting one after another adds exactly the inserted elements (R183). -/
theorem foldl_insertElem_perm (es q : List QueueElem) :
    (es.foldl (fun q e => insertElem e q) q).Perm (es ++ q) := by
  induction es generalizing q with
  | nil => exact .refl _
  | cons e es ih => exact (ih _).trans (((insertElem_perm e q).append_left es).trans List.perm_middle)

/-- Merging loses no leaf and adds none: with fuel for the whole queue, the result has the queue's leaf symbols
(R183). -/
theorem mergeQueue_symbols {n seq : Nat} {q : List QueueElem} (hne : q ≠ []) (hlen : q.length ≤ n + 1) :
    (mergeQueue n seq q).symbols.Perm (queueSymbols q) := by
  induction n generalizing seq q with
  | zero =>
    obtain ⟨a, rfl⟩ := List.length_eq_one_iff.mp (le_antisymm hlen (List.length_pos_iff.mpr hne))
    simp [mergeQueue]
  | succ n ih =>
    match q, hne, hlen with
    | [a], _, _ => simp [mergeQueue]
    | a :: b :: q, _, hlen =>
      have hins := insertElem_perm ⟨a.freq + b.freq, seq, .node a.tree b.tree⟩ q
      have hlen' := hins.length_eq
      simp only [List.length_cons] at hlen hlen'
      refine (ih (List.ne_nil_of_length_pos (by omega)) (by omega)).trans ?_
      simpa using queueSymbols_perm hins

@[simp] theorem leafQueue_length (seq : Nat) (f : List (Byte × Nat)) : (leafQueue seq f).length = f.length + 1 := by
  induction f generalizing seq with
  | nil => rfl
  | cons x f ih => simp [leafQueue, ih]

theorem queueSymbols_leafQueue (seq : Nat) (f : List (Byte × Nat)) :
    queueSymbols (leafQueue seq f) = (f.map Prod.fst).map symOfByte ++ [Config.sentinel] := by
  induction f generalizing seq with
  | nil => rfl
  | cons x f ih => simp [leafQueue, ih]

/-- The leaves of a built tree are one per table entry and the sentinel's (R182). -/
theorem build_symbols (f : List (Byte × Nat)) :
    (build f).symbols.Perm ((f.map Prod.fst).map symOfByte ++ [Config.sentinel]) := by
  have hq := foldl_insertElem_perm (leafQueue 0 f) []
  rw [List.append_nil] at hq
  have hlen := hq.length_eq
  rw [leafQueue_length] at hlen
  rw [← queueSymbols_leafQueue 0 f]
  exact (mergeQueue_symbols (List.ne_nil_of_length_pos (by omega)) (by omega)).trans (queueSymbols_perm hq)

/-- A tree built from L entries has L + 1 leaves, so 2 L + 1 nodes. -/
theorem build_size (f : List (Byte × Nat)) : (build f).size = 2 * f.length + 1 := by
  have hleaves : (build f).leaves = f.length + 1 := by
    rw [← HTree.symbols_length, (build_symbols f).length_eq]
    simp
  have := HTree.size_leaves (build f)
  omega

/-! ## The counting pass -/

/-- The table's bytes are the byte values that occur, in ascending order (R181). -/
theorem freqTable_bytes (S : List Byte) :
    (freqTable S).map Prod.fst = ((List.range 256).map (BitVec.ofNat 8)).filter (· ∈ S) := by
  rw [freqTable, List.map_filterMap, List.filter_map, ← List.filterMap_eq_map, ← List.filterMap_eq_filter,
    List.filterMap_filterMap]
  refine List.filterMap_congr fun k _ => ?_
  by_cases h : BitVec.ofNat 8 k ∈ S <;> simp [Option.guard, List.count_eq_zero, h]

/-- There are 256 byte values, so the table has at most 256 entries (R181). -/
theorem freqTable_length_le (S : List Byte) : (freqTable S).length ≤ 256 :=
  (List.length_filterMap_le _ _).trans_eq List.length_range

theorem mem_freqTable_bytes (S : List Byte) (b : Byte) : b ∈ (freqTable S).map Prod.fst ↔ b ∈ S := by
  have hrange : b ∈ (List.range 256).map (BitVec.ofNat 8) :=
    List.mem_map.mpr ⟨b.toNat, List.mem_range.mpr b.isLt, by simp⟩
  simp [freqTable_bytes, hrange, -List.mem_map]

theorem freqTable_bytes_nodup (S : List Byte) : ((freqTable S).map Prod.fst).Nodup := by
  have hrange : ((List.range 256).map (BitVec.ofNat 8)).Nodup := by
    refine List.Nodup.map_on (fun i hi j hj hij => ?_) List.nodup_range
    have hval := congrArg BitVec.toNat hij
    rwa [BitVec.toNat_ofNat, BitVec.toNat_ofNat, Nat.mod_eq_of_lt (List.mem_range.mp hi),
      Nat.mod_eq_of_lt (List.mem_range.mp hj)] at hval
  rw [freqTable_bytes]
  exact hrange.filter _

theorem mem_symbols_build (S : List Byte) (x : Symbol) :
    x ∈ (build (freqTable S)).symbols ↔ x = Config.sentinel ∨ ∃ b ∈ S, x = symOfByte b := by
  rw [(build_symbols (freqTable S)).mem_iff, List.mem_append, List.mem_singleton, List.mem_map, or_comm]
  simp only [mem_freqTable_bytes, eq_comm]

theorem symbols_build_nodup (S : List Byte) : (build (freqTable S)).symbols.Nodup := by
  have hbytes := (freqTable_bytes_nodup S).map symOfByte_injective
  have hsentinel : Config.sentinel ∉ ((freqTable S).map Prod.fst).map symOfByte := by
    rw [List.mem_map]
    rintro ⟨b, -, hb⟩
    exact symOfByte_ne_sentinel b hb
  exact (build_symbols (freqTable S)).nodup_iff.mpr
    (hbytes.append (List.nodup_singleton _) (List.disjoint_singleton.mpr hsentinel))

theorem legal_build (S : List Byte) : (build (freqTable S)).legal = true := by
  rw [HTree.legal_iff]
  intro x hx
  obtain rfl | ⟨b, -, rfl⟩ := (mem_symbols_build S x).mp hx
  · decide
  · exact (symOfByte_lt b).le

theorem size_build_le (S : List Byte) : (build (freqTable S)).size ≤ 513 := by
  have := freqTable_length_le S
  rw [build_size]
  omega

/-! ## The obligation about built trees -/

/-- Settles O29: merging permutes the leaf symbols, and the counting pass lists each byte that occurs once. -/
theorem builtTreesFit : Obligations.BuiltTreesFit := fun S =>
  ⟨symbols_build_nodup S, mem_symbols_build S, legal_build S, size_build_le S⟩

end Sys2Proof.Machine
end

section
/-! PROOFS. The codes of a tree (spec/42_tree_codec.md R203, R204): the code table is the writes of the leaves in
pre-order, so a later leaf of the same symbol wins; and a path that ends at a leaf goes no further. -/

namespace Sys2Proof.Machine

/-! ## The code table -/

/-- Walk's write for a leaf with symbol c.1 and path c.2 (R203). -/
def writeCode (ct : Memory CodeEntry) (c : Symbol × Bits) : Memory CodeEntry :=
  Memory.write CodeEntry.unwritten ct c.1.toNat ⟨true, c.2⟩

/-- The writes of Walk are those of the leaves, in pre-order (R203). -/
theorem HTree.record_eq_foldl (t : HTree) (p : Bits) (ct : Memory CodeEntry) :
    t.record p ct = (t.codesFrom p).foldl writeCode ct := by
  induction t generalizing p ct with
  | leaf sym => rfl
  | node l r ihl ihr => rw [record, codesFrom, List.foldl_append, ihl, ihr]

theorem codeIn_writeCode {ct : Memory CodeEntry} (hw : Memory.wf CodeEntry.unwritten ct = true) (c : Symbol × Bits)
    (sym : Symbol) : codeIn (writeCode ct c) sym = if c.1 = sym then some c.2 else codeIn ct sym := by
  by_cases h : c.1 = sym
  · subst h
    simp [codeIn, writeCode, Memory.read_write_same hw]
  · have hne : sym.toNat ≠ c.1.toNat := fun he => h (BitVec.eq_of_toNat_eq he.symm)
    simp [codeIn, writeCode, Memory.read_write_other hw hne, h]

/-- After a list of writes a symbol's code is the last one written for it, or the one it had. -/
theorem codeIn_foldl_writeCode (cs : List (Symbol × Bits)) (sym : Symbol) {ct : Memory CodeEntry}
    (hw : Memory.wf CodeEntry.unwritten ct = true) :
    codeIn (cs.foldl writeCode ct) sym = ((cs.filter fun c => c.1 == sym).getLast?.map Prod.snd).or (codeIn ct sym) := by
  induction cs generalizing ct with
  | nil => rfl
  | cons c cs ih =>
    rw [List.foldl_cons, ih (ct := writeCode ct c) (Memory.wf_write hw _ _), codeIn_writeCode hw]
    by_cases h : c.1 = sym
    · cases hl : (cs.filter fun c => c.1 == sym).getLast? <;> simp [h, List.getLast?_cons, hl]
    · simp [h]

theorem codeIn_codeTable (t : HTree) (sym : Symbol) :
    codeIn t.codeTable sym = (t.codes.filter fun c => c.1 == sym).getLast?.map Prod.snd := by
  rw [HTree.codeTable, HTree.record_eq_foldl, codeIn_foldl_writeCode _ _ Memory.wf_nil, ← HTree.codes]
  simp [codeIn, CodeEntry.unwritten]

/-- Settles O30: the last write of the symbol is the last of its leaves in pre-order. -/
theorem codeTableHoldsLastLeaf : Obligations.CodeTableHoldsLastLeaf := by
  intro t sym p
  rw [codeIn_codeTable, Option.map_eq_some_iff]
  constructor
  · rintro ⟨⟨x, q⟩, hc, rfl⟩
    have hx : x = sym := by simpa using (List.mem_filter.mp (List.mem_of_getLast? hc)).2
    rwa [← hx] at hc ⊢
  · exact fun hc => ⟨_, hc, rfl⟩

/-! ## Paths of a tree -/

/-- Every code in the table is the path of a leaf. -/
theorem mem_codes_of_codeIn {t : HTree} {x : Symbol} {p : Bits} (h : codeIn t.codeTable x = some p) : (x, p) ∈ t.codes :=
  List.mem_of_mem_filter (List.mem_of_getLast? ((codeTableHoldsLastLeaf t x p).mp h))

theorem HTree.codesFrom_symbols (t : HTree) (p : Bits) : (t.codesFrom p).map Prod.fst = t.symbols := by
  induction t generalizing p with
  | leaf sym => rfl
  | node l r ihl ihr => simp [codesFrom, ihl, ihr]

/-- Below the path p, each listed code is p and then the way to its leaf. -/
theorem HTree.follow_of_mem_codesFrom {t : HTree} {p q : Bits} {x : Symbol} (h : (x, q) ∈ t.codesFrom p) :
    ∃ d, q = p ++ d ∧ t.follow d = some (.leaf x) := by
  induction t generalizing p with
  | leaf sym =>
    obtain ⟨rfl, rfl⟩ : x = sym ∧ q = p := by simpa [codesFrom] using h
    exact ⟨[], by simp, rfl⟩
  | node l r ihl ihr =>
    obtain hl | hr := List.mem_append.mp h
    · obtain ⟨d, rfl, hd⟩ := ihl hl
      exact ⟨false :: d, by simp, hd⟩
    · obtain ⟨d, rfl, hd⟩ := ihr hr
      exact ⟨true :: d, by simp, hd⟩

/-- A code is the path to a leaf of its symbol (R204). -/
theorem follow_of_codeIn {t : HTree} {x : Symbol} {p : Bits} (h : codeIn t.codeTable x = some p) :
    t.follow p = some (.leaf x) := by
  obtain ⟨d, rfl, hd⟩ := HTree.follow_of_mem_codesFrom (mem_codes_of_codeIn h)
  exact hd

/-- Each bit of a path passes an Internal node and the subtree not taken, so two nodes at least. -/
theorem HTree.follow_size {t u : HTree} {p : Bits} (h : t.follow p = some u) : 2 * p.length + u.size ≤ t.size := by
  induction p generalizing t with
  | nil =>
    obtain rfl : t = u := by simpa [follow] using h
    simp
  | cons b p ih =>
    cases t with
    | leaf sym => simp [follow] at h
    | node l r =>
      have hl := l.size_pos
      have hr := r.size_pos
      rw [List.length_cons, size]
      cases b with
      | false => have := ih (t := l) h; omega
      | true => have := ih (t := r) h; omega

theorem HTree.follow_append (t : HTree) (p d : Bits) : t.follow (p ++ d) = (t.follow p).bind (·.follow d) := by
  induction p generalizing t with
  | nil => cases t <;> rfl
  | cons b p ih =>
    cases t with
    | leaf sym => rfl
    | node l r => cases b <;> exact ih _

/-- A leaf has no path below it, so no path to a leaf goes on from the path to another (R204). -/
theorem HTree.eq_of_follow_isPrefix {t : HTree} {x y : Symbol} {p q : Bits} (hx : t.follow p = some (.leaf x))
    (hy : t.follow q = some (.leaf y)) (hpq : p <+: q) : x = y := by
  obtain ⟨d, rfl⟩ := hpq
  have hd : (HTree.leaf x).follow d = some (.leaf y) := by simpa [follow_append, hx] using hy
  cases d with
  | nil => simpa [follow] using hd
  | cons b d => simp [follow] at hd

theorem codeIn_isSome_iff (t : HTree) (x : Symbol) : (codeIn t.codeTable x).isSome = true ↔ x ∈ t.symbols := by
  rw [codeIn_codeTable, Option.isSome_map, List.getLast?_isSome, ← t.codesFrom_symbols []]
  simp [HTree.codes]

/-- Settles O31: a code is the path to a leaf, and below a leaf there is no path. -/
theorem codesArePrefixFree : Obligations.CodesArePrefixFree := by
  refine fun t _ => ⟨fun _ _ => follow_of_codeIn, fun x p hsize hp => ?_, fun x y p q hp hq => ?_, codeIn_isSome_iff t⟩
  · have := HTree.follow_size (follow_of_codeIn hp)
    have := (HTree.leaf x).size_pos
    omega
  · exact HTree.eq_of_follow_isPrefix (follow_of_codeIn hp) (follow_of_codeIn hq)

end Sys2Proof.Machine
end

section
/-! PROOFS. TREE_LOAD of the serialization of a tree and TREE_EMIT of a loaded one, from acceptance to Complete
(spec/42_tree_codec.md R200, R203, R210). -/

namespace Sys2Proof.Machine

variable {s : State} {op : Opcode}

/-- A command whose actions reach an end state within the pace. -/
theorem afterEvent_request_ends {legal : Bool} {k : Point} {m : Nat} {t : State}
    (h : engineRun m (s.request op legal k) = .next t) (ht : t.eng = .idle) (hp : m ≤ s.env.pace) :
    afterEvent (s.request op legal k) = .next t :=
  afterEvent_ends h ht (by rwa [(request_leaves s op legal k).2.2])

/-! ## TREE_LOAD -/

/-- TREE_LOAD when its CMD write is accepted and the previous tree is discarded: Parse is entered (R200). -/
def State.loadBegun (s : State) : State :=
  { (s.begun 0x2#4).dropTree with alloc := 0, stack := [], eng := .run 0x2#4 parsePoint }

theorem run_load (hi : s.eng = .idle) (he : s.err = false) :
    engineRun 1 (s.request 0x2#4 true .load) = .next s.loadBegun := by
  rw [request_runs .load hi (by decide) he (by simp [needsTree])]
  rfl

theorem HTree.parseTurns_leaves (t : HTree) : t.parseTurns + 4 = 16 * t.leaves := by
  induction t with
  | leaf _ => rfl
  | node l r ihl ihr => simp only [parseTurns, leaves]; omega

theorem HTree.walkTurns_leaves (t : HTree) : t.walkTurns + 2 = 3 * t.leaves := by
  induction t with
  | leaf _ => rfl
  | node l r ihl ihr => simp only [walkTurns, leaves]; omega

theorem HTree.emitTurns_leaves (t : HTree) : t.emitTurns + 5 = 27 * t.leaves := by
  induction t with
  | leaf _ => rfl
  | node l r ihl ihr => simp only [emitTurns, leaves]; omega

/-- Parse has returned the root: the code table is built, the tree becomes valid and TREE_LOAD completes (R200). -/
theorem run_buildTable {t : HTree} (he : s.eng = .run op (.parseRet 0)) (hs : s.stack = []) (ht : Laid s.ns 0 t)
    (hsize : t.size ≤ 513) :
    engineRun (t.walkTurns + 4) s = .next { s with
      ct := t.record [] s.ct, nodeCount := s.alloc, treeValid := true, done := true, eng := .idle } := by
  have hret : engineStep s = .next { s with eng := .run op (.walk 0 []) } := by
    simp [engineStep_run he, act, actParseRet, hs, State.goto, he]
  have hwalk := run_walk t 0 [] op { s with eng := .run op (.walk 0 []) } rfl ht (by omega)
  have hend : engineRun 3 { s with ct := t.record [] s.ct, eng := .run op .walkRet } = .next { s with
      ct := t.record [] s.ct, nodeCount := s.alloc, treeValid := true, done := true, eng := .idle } := by
    simp [engineRun_succ, engineStep, act, actWalkRet, actLoadDone, hs, State.goto, Engine.goto, State.complete]
  rw [show t.walkTurns + 4 = t.walkTurns + 3 + 1 from rfl, engineRun_step hret]
  exact (engineRun_trans hwalk 3).trans hend

/-- The state in which TREE_LOAD of Ser(t) ends: t is the loaded tree, the bin producer is q (R200, R207). -/
def State.treeLoaded (s : State) (t : HTree) (ns : Memory Node) (q : Source Bool) : State :=
  { s.begun 0x2#4 with
    done := true, treeValid := true, nodeCount := BitVec.ofNat 10 t.size, ns := ns, ct := t.codeTable,
    bitsIn := BitVec.ofNat 32 t.ser.length, stack := [], alloc := BitVec.ofNat 10 t.size, eng := .idle,
    env := { s.env with bin := q } }

/-- TREE_LOAD with Ser(t) on offer, from its acceptance to its end (R200, R212 (b)). -/
theorem run_treeLoad {t : HTree} {q : Source Bool} (hlegal : t.legal = true) (hsize : t.size ≤ 513) (hi : s.eng = .idle)
    (he : s.err = false) (hw : Memory.wf Node.unwritten s.ns = true) (hb : OffersBits s.env.bin t.ser q) :
    ∃ ns, engineRun (19 * t.leaves - 1) (s.request 0x2#4 true .load) = .next (s.treeLoaded t ns q) ∧ Laid ns 0 t ∧
      ∀ a, t.size ≤ a → Memory.read Node.unwritten ns a = Memory.read Node.unwritten s.ns a := by
  obtain ⟨ns, hparse, hlaid, -, hframe⟩ :=
    run_parse t hlegal 0 (by omega) q 0x2#4 s.loadBegun rfl hb rfl hw (Nat.zero_le _)
  have hbuild := run_buildTable (t := t) (op := 0x2#4) (s := { s.loadBegun with
    bitsIn := s.loadBegun.bitsIn + BitVec.ofNat 32 t.ser.length, env := { s.env with bin := q }, ns := ns,
    alloc := BitVec.ofNat 10 (0 + t.size), eng := .run 0x2#4 (.parseRet 0) }) rfl rfl hlaid hsize
  refine ⟨ns, ?_, hlaid, fun a ha => hframe a (.inr (by omega))⟩
  have hp := t.parseTurns_leaves
  have hk := t.walkTurns_leaves
  rw [show 19 * t.leaves - 1 = 1 + (t.parseTurns + (t.walkTurns + 4)) by omega, engineRun_trans (run_load hi he)]
  refine ((engineRun_trans hparse _).trans hbuild).trans ?_
  simp [State.treeLoaded, State.loadBegun, HTree.codeTable]

/-- Settles O17: Parse lays the tree out, Walk builds its table. -/
theorem treeLoadCompletes : Obligations.TreeLoadCompletes := by
  intro t q s hlegal hsize hi he hw hb hpace
  obtain ⟨ns, hrun, hlaid, hframe⟩ := run_treeLoad hlegal hsize hi he hw hb
  refine ⟨ns, ?_, hlaid, hframe⟩
  rw [exec, execTreeLoad, afterEvent_request_ends hrun rfl (by omega)]
  simp [State.treeLoaded, hi]

/-! ## TREE_EMIT -/

/-- Settles O19: Emit of the root gives Ser(t), which is not empty. -/
theorem treeEmitCompletes : Obligations.TreeEmitCompletes := by
  rintro t s ⟨hlaid, hsize, -, -, htv⟩ ⟨hi, hbv, -⟩ he hready hpace
  have hroot : engineStep { s.begun 0x3#4 with eng := .run 0x3#4 .emitRoot } =
      .next { s.begun 0x3#4 with stack := [], eng := .run 0x3#4 (.emit 0) } := rfl
  have hemit := run_emit t 0 0x3#4 { s.begun 0x3#4 with stack := [], eng := .run 0x3#4 (.emit 0) } rfl hlaid
    (by rwa [Nat.zero_add]) hready hbv
  have hend (u : State) (hu : u.eng = .run 0x3#4 .emitRet) (hs : u.stack = []) :
      engineRun 2 u = .next u.complete := by
    simp [engineRun_succ, engineStep, hu, act, actEmitRet, hs, State.goto, State.complete]
  have hrun := engineRun_then (engineRun_one hroot) (engineRun_then hemit (hend _ rfl rfl))
  rw [← request_runs .emitRoot hi (by decide) he fun _ => htv] at hrun
  have hturns := t.emitTurns_leaves
  rw [exec, execTreeEmit, afterEvent_request_ends hrun rfl (by omega)]
  cases t <;> simp [State.complete, HTree.ser, hi, List.getLast?_cons]

end Sys2Proof.Machine
end

section
/-! PROOFS. Parse as a function on the offered bits and the engine's Parse stop at the same bit (spec/42_tree_codec.md
R201, R202). -/

namespace Sys2Proof.Machine

variable {s t u : State} {op : Opcode}

/-! ## Consuming bits -/

/-- From s to u the engine takes at most eight actions a bit and consumes the bits x. It changes nothing but the
parser's own state, bin and its counter. -/
structure Consumes (s u : State) (x : Bits) : Prop where
  run : ∃ m, engineRun m s = .next u ∧ x.length ≤ m ∧ m ≤ 8 * x.length
  offers : OffersBits s.env.bin x u.env.bin
  frame : u = { s with
    bitsIn := s.bitsIn + BitVec.ofNat 32 x.length, env := { s.env with bin := u.env.bin }, ns := u.ns,
    stack := u.stack, alloc := u.alloc, eng := u.eng }

theorem Consumes.refl (s : State) : Consumes s s [] := ⟨⟨0, rfl, by simp⟩, rfl, by simp⟩

theorem Consumes.trans {x y : Bits} (h : Consumes s t x) (h' : Consumes t u y) : Consumes s u (x ++ y) := by
  obtain ⟨⟨m, hm, hlo, hhi⟩, hoff, hf⟩ := h
  obtain ⟨⟨m', hm', hlo', hhi'⟩, hoff', hf'⟩ := h'
  refine ⟨⟨m + m', engineRun_then hm hm', ?_, ?_⟩, Source.offers_append.mpr ⟨_, hoff, hoff'⟩, ?_⟩
  · rw [List.length_append]; omega
  · rw [List.length_append]; omega
  · rw [hf', hf]
    simp [BitVec.ofNat_add, BitVec.add_assoc]

/-- ReadBits with the bits x on offer and n more to read: x is consumed. -/
theorem consumes_recv {who : Reader} (x : Bits) (n : Nat) (v : Word) {q : Source Bool}
    (he : s.eng = .run op (.recv (x.length + n) v who)) (hb : OffersBits s.env.bin x q) :
    Consumes s { s with
      bitsIn := s.bitsIn + BitVec.ofNat 32 x.length, env := { s.env with bin := q },
      eng := .run op (.recv n (x.foldl shiftIn v) who) } x := by
  induction x generalizing s v with
  | nil =>
    obtain rfl : s.env.bin = q := hb
    simp only [List.length_nil, Nat.zero_add] at he
    simpa [← he] using Consumes.refl s
  | cons b x ih =>
    obtain ⟨hb, hq⟩ := hb
    have hs : engineStep s = .next (s.takeBit.goto (.recv (x.length + n) (shiftIn v b) who)) := by
      rw [List.length_cons, Nat.add_right_comm] at he
      simp [engineStep_run he, act, actRecv, actRecvBit, State.binBeat, hb]
    have h1 : Consumes s (s.takeBit.goto (.recv (x.length + n) (shiftIn v b) who)) [b] :=
      ⟨⟨1, engineRun_one hs, by simp⟩, by simp [hb], by simp [State.takeBit, State.goto]⟩
    have h2 := h1.trans (ih (shiftIn v b) (by simp [he]) hq)
    simpa [State.takeBit, State.goto, he, count_succ] using h2

/-- Parse is entered with n nodes allocated (R201). -/
structure ParsesFrom (s : State) (op : Opcode) (n : Nat) : Prop where
  eng : s.eng = .run op parsePoint
  alloc : s.alloc = BitVec.ofNat 10 n
  nsWf : Memory.wf Node.unwritten s.ns = true
  base : parseBase s.stack ≤ n

theorem ParsesFrom.alloc_toNat {n : Nat} (h : ParsesFrom s op n) (hn : n ≤ 513) : s.alloc.toNat = n := by
  rw [h.alloc, toNat_ofNat10 hn]

theorem engineStep_tag {b : Bool} (he : s.eng = .run op parsePoint)
    (hb : s.env.bin.beat Config.endlessBit = .beat b) :
    engineStep s = .next (s.takeBit.goto (.recv 0 (shiftIn 0 b) .tag)) := by
  simp [engineStep_run he, parsePoint, act, actRecv, actRecvBit, State.binBeat, hb]

/-- Parse reads the tag of a leaf and goes on to its symbol field (R201). -/
theorem consumes_tagLeaf {n : Nat} (h : ParsesFrom s op n) (hn : n < 513)
    (hb : s.env.bin.beat Config.endlessBit = .beat false) :
    ∃ u i, Consumes s u [false] ∧ u.eng = .run op (.recv 9 0 (.symbol i)) ∧ u.env.bin = s.env.bin.drop := by
  have hfield : engineStep (s.takeBit.goto (.recv 0 (shiftIn 0 false) .tag)) = .next
      ({ s.takeBit with alloc := s.alloc + 1 }.goto (.recv 9 0 (.symbol s.alloc))) := by
    have hcap : s.alloc.toNat ≠ 513 := by rw [h.alloc_toNat hn.le]; omega
    rw [engineStep_run (op := op) (k := .recv 0 (shiftIn 0 false) .tag) (by simp [h.eng])]
    simp [act, actRecv, actReceived, actTag, hcap, State.goto, h.eng]
  exact ⟨_, s.alloc, ⟨⟨2, engineRun_then (engineRun_one (engineStep_tag h.eng hb)) (engineRun_one hfield), by simp⟩,
    by simp [hb], by simp [State.takeBit, State.goto]⟩, by simp [State.goto, h.eng], by simp [State.goto]⟩

/-- Parse reads the tag of an Internal node and enters its left subtree (R201). -/
theorem consumes_tagNode {n : Nat} (h : ParsesFrom s op n) (hn : n < 513)
    (hb : s.env.bin.beat Config.endlessBit = .beat true) :
    ∃ u, Consumes s u [true] ∧ ParsesFrom u op (n + 1) ∧ u.env.bin = s.env.bin.drop ∧ u.stack = s.stack := by
  have hrun := run_tagNode h.eng hb (by rw [h.alloc_toNat hn.le]; omega)
  exact ⟨_, ⟨⟨2, hrun, by simp⟩, by simp [hb], by simp⟩,
    ⟨rfl, by simp [h.alloc, BitVec.ofNat_add], h.nsWf, Nat.le_succ_of_le h.base⟩, rfl, rfl⟩

/-- The left subtree of an Internal node is parsed and the right one is entered (R201). -/
theorem consumes_left {l : HTree} {n : Nat} {q : Source Bool} (h : ParsesFrom s op n) (hB : parseBase s.stack < n)
    (hlegal : l.legal = true) (hn : n + l.size ≤ 513) (hb : OffersBits s.env.bin l.ser q) :
    ∃ u, Consumes s u l.ser ∧ ParsesFrom u op (n + l.size) ∧ u.env.bin = q := by
  obtain ⟨ns, hparse, -, hwf, -⟩ := run_parse l hlegal n hn q op s h.eng hb h.alloc h.nsWf h.base
  have hright := step_retLeft (s := { s with
    bitsIn := s.bitsIn + BitVec.ofNat 32 l.ser.length, env := { s.env with bin := q }, ns := ns,
    alloc := BitVec.ofNat 10 (n + l.size), eng := .run op (.parseRet (BitVec.ofNat 10 n)) }) rfl
    (by rw [toNat_ofNat10 (by omega)]; exact hB.ne)
  have hturns := l.parseTurns_leaves
  have hlen := l.ser_length
  have hleaves := l.size_leaves
  have hpos := l.size_pos
  exact ⟨_, ⟨⟨_, engineRun_then hparse (engineRun_one hright), by omega, by omega⟩, hb, rfl⟩,
    ⟨rfl, rfl, hwf, (toNat_ofNat10 hn).le⟩, rfl⟩

/-! ## Where Parse stops -/

/-- The bits Parse leaves. -/
def ParseResult.rest : ParseResult → Bits
  | .parsed _ rest => rest
  | .exhausted => []
  | .badSymbol _ rest => rest
  | .overflow rest => rest

/-- The error entry of a Parse that fails (R202), from the state it stops in. -/
def ParseResult.raise (s : State) : ParseResult → State
  | .parsed _ _ => s
  | .exhausted => s.raise .malformedTree 0 0
  | .badSymbol v _ => s.raise .malformedTree 1 v
  | .overflow _ => s.raise .treeOverflow 0 0

/-- Parse waits for a bit of a tag or of a leaf's symbol field. -/
def State.awaitsBit (s : State) (op : Opcode) : Prop :=
  ∃ n v who, s.eng = .run op (.recv (n + 1) v who) ∧ (who = .tag ∨ ∃ i, who = .symbol i)

/-- The state in which a Parse that fails has consumed its bits: it needs one bit more, or raises its error next. -/
def ParseResult.StopsAt (r : ParseResult) (op : Opcode) (s : State) : Prop :=
  (r = .exhausted ∧ s.awaitsBit op) ∨ (r ≠ .exhausted ∧ engineStep s = .next (r.raise s))

/-- Parse reads the tag of a node too many (R202 (d)). -/
theorem stops_overflow {b : Bool} (h : ParsesFrom s op 513) (hb : s.env.bin.beat Config.endlessBit = .beat b)
    (rest : Bits) : ∃ u, Consumes s u [b] ∧ (ParseResult.overflow rest).StopsAt op u := by
  have hs := engineStep_tag h.eng hb
  refine ⟨_, ⟨⟨1, engineRun_one hs, by simp⟩, by simp [hb], by simp [State.takeBit, State.goto]⟩, .inr ⟨nofun, ?_⟩⟩
  rw [engineStep_run (op := op) (k := .recv 0 (shiftIn 0 b) .tag) (by simp [h.eng])]
  simp [act, actRecv, actReceived, actTag, h.alloc_toNat, ParseResult.raise]

/-- Parse reads the tag of a leaf, and the stream ends in its symbol field (R202 (b)). -/
theorem stops_shortField {x : Bits} {q : Source Bool} {n : Nat} (h : ParsesFrom s op n) (hn : n < 513)
    (hb : OffersBits s.env.bin (false :: x) q) (hx : x.length < 9) :
    ∃ u, Consumes s u (false :: x) ∧ ParseResult.exhausted.StopsAt op u := by
  obtain ⟨hb, hq⟩ := hb
  obtain ⟨t, i, htag, ht, hbin⟩ := consumes_tagLeaf h hn hb
  have hfield := consumes_recv x (8 - x.length + 1) 0 (by rw [ht]; congr 2; omega) (hbin ▸ hq)
  exact ⟨_, htag.trans hfield, .inl ⟨rfl, _, _, _, rfl, .inr ⟨i, rfl⟩⟩⟩

/-- Parse reads a leaf's symbol field with a value above 256 (R202 (c)). -/
theorem stops_badSymbol {x : Bits} {q : Source Bool} {n : Nat} (h : ParsesFrom s op n) (hn : n < 513)
    (hb : OffersBits s.env.bin (false :: x) q) (hx : x.length = 9) (hv : 256 < (fieldValue x).toNat) (rest : Bits) :
    ∃ u, Consumes s u (false :: x) ∧ (ParseResult.badSymbol (fieldValue x) rest).StopsAt op u := by
  obtain ⟨hb, hq⟩ := hb
  obtain ⟨t, i, htag, ht, hbin⟩ := consumes_tagLeaf h hn hb
  have hfield := consumes_recv x 0 0 (by rw [ht, hx]) (hbin ▸ hq)
  refine ⟨_, htag.trans hfield, .inr ⟨nofun, ?_⟩⟩
  rw [engineStep_run (op := op) (k := .recv 0 (x.foldl shiftIn 0) (.symbol i)) rfl]
  exact if_pos hv

/-- A Parse that fails stops at the same bit as the function does (R201, R202). -/
theorem parse_stops {fuel n : Nat} {bits : Bits} {q : Source Bool} (hfuel : bits.length < fuel) (hn : n ≤ 513)
    (h : ParsesFrom s op n) (hb : OffersBits s.env.bin bits q)
    (hf : ∀ t rest, parseBits fuel n bits ≠ .parsed t rest) :
    ∃ x u, bits = x ++ (parseBits fuel n bits).rest ∧ Consumes s u x ∧ (parseBits fuel n bits).StopsAt op u := by
  fun_induction parseBits fuel n bits generalizing s with
  | case1 => omega
  | case2 => exact ⟨[], s, rfl, .refl s, .inl ⟨rfl, 0, 0, .tag, h.eng, .inl rfl⟩⟩
  | case3 _ bs =>
    obtain ⟨u, hu⟩ := stops_overflow h hb.1 bs
    exact ⟨[true], u, rfl, hu⟩
  | case4 => exact absurd rfl (hf _ _)
  | case5 fuel n bs hcap l rest hl hr ihl ihr =>
    have hlt : n < 513 := lt_of_le_of_ne hn hcap
    obtain ⟨rfl, hlegal, hsize⟩ := parseBits_parsed hlt hl
    obtain ⟨m, hbl, hbr⟩ := Source.offers_append.mp hb.2
    obtain ⟨s₁, htag, h₁, hbin, hstack⟩ := consumes_tagNode h hlt hb.1
    rw [← hbin] at hbl
    obtain ⟨s₂, hleft, h₂, rfl⟩ := consumes_left h₁ (hstack ▸ Nat.lt_succ_of_le h.base) hlegal hsize hbl
    simp only [List.length_cons, List.length_append] at hfuel
    obtain ⟨x, u, hx, hu, hstop⟩ := ihr (by omega) hsize h₂ hbr hf
    exact ⟨true :: (l.ser ++ x), u, by simp [← hx], (htag.trans hleft).trans hu, hstop⟩
  | case6 fuel n bs hcap hl ihl =>
    have hlt : n < 513 := lt_of_le_of_ne hn hcap
    obtain ⟨s₁, htag, h₁, hbin, -⟩ := consumes_tagNode h hlt hb.1
    obtain ⟨x, u, hx, hu, hstop⟩ := ihl (Nat.lt_of_succ_lt_succ hfuel) hlt h₁ (hbin ▸ hb.2) hf
    exact ⟨true :: x, u, by simp [← hx], htag.trans hu, hstop⟩
  | case7 _ bs =>
    obtain ⟨u, hu⟩ := stops_overflow h hb.1 bs
    exact ⟨[false], u, rfl, hu⟩
  | case8 _ n bs hcap hlen =>
    obtain ⟨u, hu⟩ := stops_shortField h (lt_of_le_of_ne hn hcap) hb hlen
    exact ⟨false :: bs, u, by simp [ParseResult.rest], hu⟩
  | case9 _ n bs hcap hlen hv =>
    rw [← List.take_append_drop 9 bs, ← List.cons_append] at hb
    obtain ⟨m, hfield, -⟩ := Source.offers_append.mp hb
    obtain ⟨u, hu⟩ := stops_badSymbol h (lt_of_le_of_ne hn hcap) hfield (by simp; omega) hv (bs.drop 9)
    exact ⟨false :: bs.take 9, u, by simp [ParseResult.rest], hu⟩
  | case10 => exact absurd rfl (hf _ _)

end Sys2Proof.Machine
end

section
/-! PROOFS. TREE_LOAD on every bit stream (spec/42_tree_codec.md R200-R202, R207, R212): it ends as Parse does on the
bits offered, and what it consumed is what TREE_EMIT gives back. -/

namespace Sys2Proof.Machine

variable {s t u : State} {op : Opcode} {x rest : Bits} {q : Source Bool}

/-! ## A Parse that fails -/

theorem loadBegun_parsesFrom (hw : Memory.wf Node.unwritten s.ns = true) : ParsesFrom s.loadBegun 0x2#4 0 :=
  ⟨rfl, rfl, hw, Nat.zero_le _⟩

/-- A bit Parse awaits never comes: it sees the end of the stream and raises its error (R202 (a), (b)). -/
theorem run_awaitsBit_ended (h : s.awaitsBit op) (hb : s.binBeat = .ended) :
    engineRun 2 s = .next (s.raise .malformedTree 0 0) := by
  obtain ⟨n, v, who, he, hwho⟩ := h
  have hs : engineStep s = .next (s.goto (.starved who)) := by
    simp [engineStep_run he, act, actRecv, actRecvBit, hb]
  have hraise : engineStep (s.goto (.starved who)) = .next (s.raise .malformedTree 0 0) := by
    rw [engineStep_run (op := op) (k := .starved who) (by simp [he])]
    obtain rfl | ⟨i, rfl⟩ := hwho <;> rfl
  exact engineRun_then (engineRun_one hs) (engineRun_one hraise)

/-- A bit Parse awaits is not offered yet: the engine waits. -/
theorem engineStep_awaitsBit_waiting (h : s.awaitsBit op) (hb : s.binBeat = .waiting) : engineStep s = .next s := by
  obtain ⟨n, v, who, he, -⟩ := h
  simp [engineStep_run he, act, actRecv, actRecvBit, hb]

theorem ParseResult.raise_idle (r : ParseResult) (hf : ∀ t rest, r ≠ .parsed t rest) :
    (r.raise s).eng = .idle ∧ (r.raise s).done = false := by
  cases r with
  | parsed t rest => exact absurd rfl (hf t rest)
  | _ => exact ⟨rfl, rfl⟩

/-- The error entry of a Parse that fails comes at most two actions after it stops. -/
theorem run_stopsAt {r : ParseResult} (h : r.StopsAt op s) (hend : r = .exhausted → s.binBeat = .ended)
    (hf : ∀ t rest, r ≠ .parsed t rest) : engineRun 2 s = .next (r.raise s) := by
  obtain ⟨rfl, hwait⟩ | ⟨-, hraise⟩ := h
  · exact run_awaitsBit_ended hwait (hend rfl)
  · rw [engineRun_step hraise, engineRun_idle (r.raise_idle hf).1]

/-- Parse has consumed the bits x of a finite stream, and the others are still offered. -/
theorem Consumes.bin_eq (h : Consumes s.loadBegun u x) (hb : s.env.bin = ⟨x ++ rest, .fin⟩) :
    u.env.bin = ⟨rest, .fin⟩ := by
  have hoff : OffersBits s.env.bin x u.env.bin := h.offers
  rw [hb] at hoff
  obtain ⟨rest', hx, hu⟩ := Source.offers_fin.mp hoff
  rw [hu, List.append_cancel_left hx]

/-- The error entry of TREE_LOAD when Parse has consumed the bits x of a finite stream (R202, R207): there is no tree. -/
theorem Consumes.raise_loadBegun (h : Consumes s.loadBegun u x) (hb : s.env.bin = ⟨x ++ rest, .fin⟩) (e : Cause)
    (sub : BitVec 4) (v : Symbol) :
    (u.raise e sub v).op = 0x2#4 ∧ NoTree (u.raise e sub v) ∧
      (u.raise e sub v).errinfo = errinfoWord e.code 0x2#4 sub v ∧
      (u.raise e sub v).env = { s.env with bin := ⟨rest, .fin⟩ } ∧
      (u.raise e sub v).bitsIn = BitVec.ofNat 32 ((x ++ rest).length - rest.length) := by
  rw [h.frame, h.bin_eq hb]
  exact ⟨rfl, ⟨rfl, rfl, rfl⟩, rfl, rfl, by simp [State.loadBegun]⟩

/-- TREE_LOAD on a finite stream that Parse rejects ends in the error entry of Parse (R202, R207). -/
theorem treeLoad_fails {r : ParseResult} {e : Cause} {sub : BitVec 4} {v : Symbol} (hi : s.eng = .idle)
    (he : s.err = false) (hw : Memory.wf Node.unwritten s.ns = true) (hb : s.env.bin = ⟨x, .fin⟩)
    (hpace : 8 * (x.length + 1) ≤ s.env.pace) (hr : parseStream x = r) (hf : ∀ t rest, r ≠ .parsed t rest)
    (hraise : ∀ u, r.raise u = u.raise e sub v) :
    ∃ u, exec .treeLoad s = .next u ∧ u.eng = .idle ∧ u.op = 0x2#4 ∧ NoTree u ∧ u.done = false ∧ u.err = true ∧
      u.errinfo = errinfoWord e.code 0x2#4 sub v ∧ u.env = { s.env with bin := ⟨r.rest, .fin⟩ } ∧
      u.bitsIn = BitVec.ofNat 32 (x.length - r.rest.length) := by
  subst hr
  have hoff : OffersBits s.loadBegun.env.bin x ⟨[], .fin⟩ := hb ▸ Source.offers_all x .fin
  obtain ⟨y, u, hx, hu, hstop⟩ :=
    parse_stops (Nat.lt_succ_self _) (Nat.zero_le _) (loadBegun_parsesFrom hw) hoff hf
  rw [← parseStream] at hx hstop
  have hb' : s.env.bin = ⟨y ++ (parseStream x).rest, .fin⟩ := by rw [hb, ← hx]
  have hend : parseStream x = .exhausted → u.binBeat = .ended := by
    intro hr
    have hbin := hu.bin_eq hb'
    rw [hr] at hbin
    rw [State.binBeat, hbin]
    rfl
  obtain ⟨m, hm, -, hle⟩ := hu.run
  have hlen := congrArg List.length hx
  rw [List.length_append] at hlen
  have hrun := engineRun_then (run_load hi he) (engineRun_then hm (run_stopsAt hstop hend hf))
  rw [hraise] at hrun
  obtain ⟨hop, hno, herr, henv, hbits⟩ := hu.raise_loadBegun hb' e sub v
  rw [← hx] at hbits
  exact ⟨_, afterEvent_request_ends hrun rfl (by omega), rfl, hop, hno, rfl, rfl, herr, henv, hbits⟩

/-! ## TREE_LOAD and Parse -/

/-- Settles O18: the engine's Parse and the function stop at the same bit, or both succeed. -/
theorem treeLoadFollowsParse : Obligations.TreeLoadFollowsParse := by
  intro s x hi he hw hb hpace
  cases hp : parseStream x with
  | parsed t rest =>
    obtain ⟨rfl, hlegal, hsize⟩ := parseBits_parsed (Nat.zero_le 513) hp
    rw [Nat.zero_add] at hsize
    have hoff : OffersBits s.env.bin t.ser ⟨rest, .fin⟩ := hb ▸ Source.offers_items t.ser rest .fin
    obtain ⟨ns, hrun, hlaid, -⟩ := run_treeLoad hlegal hsize hi he hw hoff
    have hlen := t.ser_length
    rw [List.length_append] at hpace
    refine ⟨_, afterEvent_request_ends hrun rfl (by omega), rfl, rfl, ⟨hlaid, hsize, rfl, rfl, rfl⟩, rfl, he, rfl,
      rfl, ?_⟩
    simp [State.treeLoaded]
  | exhausted => exact treeLoad_fails hi he hw hb hpace hp nofun fun _ => rfl
  | badSymbol v rest => exact treeLoad_fails hi he hw hb hpace hp nofun fun _ => rfl
  | overflow rest => exact treeLoad_fails hi he hw hb hpace hp nofun fun _ => rfl

/-! ## A TREE_LOAD that succeeded -/

/-- Two runs of any lengths that end idle end in the same state. -/
theorem eq_of_runs_idle {m n : Nat} (ht : engineRun m s = .next t) (hti : t.eng = .idle) (hu : engineRun n s = .next u)
    (hui : u.eng = .idle) : t = u := by
  have h := engineRun_ends ht hti (Nat.le_max_left m n)
  rw [engineRun_ends hu hui (Nat.le_max_right m n)] at h
  simpa using h.symm

/-- A producer offers n beats, or fewer and then shows no beat. -/
theorem Source.offers_upto {α : Type} {gen : Nat → Nat → α} (p : Source α) (n : Nat) :
    ∃ xs q, p.Offers gen xs q ∧ (xs.length = n ∨ q.beat gen = .waiting ∨ q.beat gen = .ended) := by
  induction n generalizing p with
  | zero => exact ⟨[], p, rfl, .inl rfl⟩
  | succ n ih =>
    cases hb : p.beat gen with
    | waiting => exact ⟨[], p, rfl, .inr (.inl hb)⟩
    | ended => exact ⟨[], p, rfl, .inr (.inr hb)⟩
    | beat x =>
      obtain ⟨xs, q, hoff, hlen⟩ := ih p.drop
      exact ⟨x :: xs, q, ⟨hb, hoff⟩, hlen.imp_left (congrArg (· + 1))⟩

theorem Source.Offers.unique {α : Type} {gen : Nat → Nat → α} {p q q' : Source α} {xs : List α} (h : p.Offers gen xs q)
    (h' : p.Offers gen xs q') : q = q' := by
  induction xs generalizing p with
  | nil => exact h.symm.trans h'
  | cons x xs ih => exact ih h.2 h'.2

/-- A TREE_LOAD that ends with DONE has parsed a tree from the bits its producer offered: a Parse that fails would wait
for ever or raise its error (R200, R202). -/
theorem parsed_of_treeLoad_done (hi : s.eng = .idle) (he : s.err = false)
    (hw : Memory.wf Node.unwritten s.ns = true) (hexec : exec .treeLoad s = .next u) (hui : u.eng = .idle)
    (hdone : u.done = true) :
    ∃ xs q t rest, OffersBits s.env.bin xs q ∧ parseStream xs = .parsed t rest := by
  obtain ⟨xs, q, hoff, hlong⟩ := s.env.bin.offers_upto (gen := Config.endlessBit) s.env.pace
  refine ⟨xs, q, ?_⟩
  by_contra hnot
  have hf : ∀ t rest, parseStream xs ≠ .parsed t rest := fun t rest h => hnot ⟨t, rest, hoff, h⟩
  obtain ⟨y, v, hx, hv, hstop⟩ :=
    parse_stops (Nat.lt_succ_self _) (Nat.zero_le _) (loadBegun_parsesFrom hw) hoff hf
  rw [← parseStream] at hx hstop
  obtain ⟨m, hm, hge, -⟩ := hv.run
  have hrun := engineRun_then (run_load hi he) hm
  have hend : engineRun s.env.pace (s.request 0x2#4 true .load) = .next u := by
    rwa [exec, execTreeLoad, afterEvent, (request_leaves s _ _ _).2.2] at hexec
  have hnever : ¬(parseStream xs = .exhausted → v.binBeat = .ended) := by
    intro h
    obtain ⟨hidle, hnotDone⟩ := ParseResult.raise_idle (s := v) _ hf
    rw [eq_of_runs_idle (engineRun_then hrun (run_stopsAt hstop h hf)) hidle hend hui, hdone] at hnotDone
    cases hnotDone
  obtain ⟨hr, hbeat⟩ := Classical.not_imp.mp hnever
  have hwait : v.awaitsBit 0x2#4 := hstop.elim And.right fun h => absurd hr h.1
  have hstuck {n : Nat} (hn : s.env.pace ≤ n) : engineRun n (s.request 0x2#4 true .load) ≠ .next v := by
    intro h
    obtain ⟨k, w, who, hrecv, -⟩ := hwait
    rw [engineRun_ends hend hui hn] at h
    cases h
    rw [hui] at hrecv
    cases hrecv
  obtain rfl : xs = y := by rw [hx, hr]; exact List.append_nil y
  rw [State.binBeat, hv.offers.unique hoff] at hbeat
  obtain hlen | hwaiting | hended := hlong
  · exact hstuck (by omega) hrun
  · have hstep : engineStep v = .next v :=
      engineStep_awaitsBit_waiting hwait (by rwa [State.binBeat, hv.offers.unique hoff])
    exact hstuck (Nat.le_add_left _ _) (engineRun_then hrun (engineRun_of_stays hstep s.env.pace))
  · exact hbeat hended

/-- Settles O20: the bits consumed are Ser of the loaded tree, which TREE_EMIT gives. -/
theorem emitGivesBackLoadedBits : Obligations.EmitGivesBackLoadedBits := by
  rintro s u ⟨hi, hbv, hsv⟩ he hw hexec hui hdone
  obtain ⟨xs, q, t, rest, hoff, hp⟩ := parsed_of_treeLoad_done hi he hw hexec hui hdone
  obtain ⟨rfl, hlegal, hsize⟩ := parseBits_parsed (Nat.zero_le 513) hp
  rw [Nat.zero_add] at hsize
  obtain ⟨m, hser, -⟩ := Source.offers_append.mp hoff
  obtain ⟨ns, hrun, hlaid, -⟩ := run_treeLoad hlegal hsize hi he hw hser
  obtain rfl : s.treeLoaded t ns m = u := eq_of_runs_idle hrun rfl hexec hui
  refine ⟨t.ser, hser, rfl, fun e hready hpace => ?_⟩
  have hloaded : Loaded { s.treeLoaded t ns m with env := e } t := ⟨hlaid, hsize, rfl, rfl, rfl⟩
  have hlen := t.ser_length
  exact ⟨_, treeEmitCompletes t _ hloaded ⟨rfl, hbv, hsv⟩ he hready (by simp only; omega), rfl, he, rfl, rfl⟩

end Sys2Proof.Machine
end

section
/-! PROOFS. ENCODE from acceptance to Complete, or to the LOOKUP_ERROR of a symbol without a code
(spec/43_stream_encoder.md R240, R241, R242). -/

namespace Sys2Proof.Machine

variable {s : State} {op : Opcode} {sym : Symbol}

/-! ## Codes -/

theorem codeIn_eq_some_iff {p : Bits} : codeIn s.ct sym = some p ↔ s.code sym = ⟨true, p⟩ := by
  rw [codeIn, State.code]
  cases Memory.read CodeEntry.unwritten s.ct sym.toNat
  simp

theorem codeIn_eq_none_iff : codeIn s.ct sym = none ↔ (s.code sym).valid = false := by simp [codeIn, State.code]

theorem payload_eq_some_iff {ct : Memory CodeEntry} {bytes : List Byte} {p : Bits} :
    payload ct bytes = some p ↔ ∃ c d, codesOf ct bytes = some c ∧ codeIn ct 256#9 = some d ∧ c ++ d = p := by
  rw [payload, Config.sentinel]
  cases codesOf ct bytes <;> cases codeIn ct 256#9 <;> simp

theorem actEmitCode_code {p : Bits} (h : codeIn s.ct sym = some p) (next : Point) :
    actEmitCode sym next s = .next (s.goto (.send p next)) := by simp [actEmitCode, codeIn_eq_some_iff.mp h]

/-- R242: a symbol without a code raises LOOKUP_ERROR. -/
theorem actEmitCode_noCode (h : codeIn s.ct sym = none) (next : Point) :
    actEmitCode sym next s = .next (s.raise .lookupError 0 sym) := by simp [actEmitCode, codeIn_eq_none_iff.mp h]

/-- The symbol whose code answers ReadSym: the byte's, or at EOS the sentinel (R240). -/
def symbolRead (x : Option Byte) : Symbol := x.elim Config.sentinel symOfByte

theorem actGotSym_eq (x : Option Byte) (s : State) :
    ∃ next, actGotSym x s = actEmitCode (symbolRead x) next s := by
  cases x with
  | none => exact ⟨.finish, rfl⟩
  | some b => exact ⟨.encode, rfl⟩

theorem engineStep_gotSym_noCode {x : Option Byte} (he : s.eng = .run op (.gotSym x))
    (h : codeIn s.ct (symbolRead x) = none) : engineStep s = .next (s.raise .lookupError 0 (symbolRead x)) := by
  obtain ⟨next, hx⟩ := actGotSym_eq x s
  rw [engineStep_run he, act, hx, actEmitCode_noCode h]

/-! ## The loop over the bytes -/

/-- The registers and the environment once ENCODE has taken n bytes, its producer is q and the bits p are on bout. -/
def State.encoded (s : State) (q : Source Byte) (n : Nat) (p : Bits) : State :=
  { s.begun 0x4#4 with
    symsIn := BitVec.ofNat 32 n, bitsOut := BitVec.ofNat 32 p.length, boutBit := p.getLastD s.boutBit,
    env := { s.env with sin := q, boutTaken := s.env.boutTaken ++ p } }

/-- ENCODE is at program point k after n bytes. -/
def State.encodesAt (s : State) (q : Source Byte) (n : Nat) (p : Bits) (k : Point) : State :=
  { s.encoded q n p with eng := .run 0x4#4 k }

/-- ReadSym at the end marker answers EOS (R91, R240). -/
theorem readSym_fin (n : Nat) (p : Bits) :
    engineStep (s.encodesAt ⟨[], .fin⟩ n p .encode) = .next (s.encodesAt ⟨[], .fin⟩ n p (.gotSym none)) := rfl

/-- ReadSym takes the offered byte and counts it (R91, R240). -/
theorem readSym_beat {q : Source Byte} {b : Byte} (n : Nat) (p : Bits) (hb : q.beat Config.endlessByte = .beat b) :
    engineStep (s.encodesAt q n p .encode) = .next (s.encodesAt q.drop (n + 1) p (.gotSym (some b))) := by
  have hbeat : (s.encodesAt q n p .encode).sinBeat = .beat b := hb
  rw [engineStep_run (s := s.encodesAt q n p .encode) rfl, act, actReadSym, hbeat]
  simp [State.encodesAt, State.encoded, State.takeSym, State.goto, BitVec.ofNat_add]

/-- Bytes that all have a code, from acceptance to the next ReadSym (R240). -/
theorem run_encodeBytes {bytes : List Byte} {q : Source Byte} {p : Bits} (hq : s.quiet) (he : s.err = false)
    (htv : s.treeValid = true) (hb : OffersBytes s.env.sin bytes q) (hp : codesOf s.ct bytes = some p)
    (hready : s.env.boutReady = true) :
    engineRun (3 * bytes.length + 2 * p.length) (s.request 0x4#4 true .encode) =
      .next (s.encodesAt q bytes.length p .encode) := by
  obtain ⟨hi, hbv, -⟩ := hq
  rw [request_runs .encode hi (by decide) he fun _ => htv]
  refine (run_encode bytes q p 0x4#4 { s.begun 0x4#4 with eng := .run 0x4#4 .encode } rfl hb hp hready hbv).trans ?_
  simp [State.encodesAt, State.encoded]

/-- The sentinel's code goes to bout and ENCODE completes (R240). -/
theorem run_encodeSentinel {q : Source Byte} {n : Nat} {c d : Bits} (hbv : s.boutValid = false)
    (hready : s.env.boutReady = true) (hd : codeIn s.ct 256#9 = some d) :
    engineRun (2 * d.length + 3) (s.encodesAt q n c (.gotSym none)) =
      .next (s.encodesAt q n (c ++ d) .finish).complete := by
  have hcode : engineStep (s.encodesAt q n c (.gotSym none)) = .next (s.encodesAt q n c (.send d .finish)) :=
    actEmitCode_code (s := s.encodesAt q n c (.gotSym none)) hd .finish
  have hsend := run_send d (s.encodesAt q n c (.send d .finish)) rfl hready hbv
  have hsent : engineRun (2 * d.length + 1) (s.encodesAt q n c (.send d .finish)) =
      .next (s.encodesAt q n (c ++ d) .finish) := by
    rw [hsend]
    simp [State.encodesAt, State.encoded, BitVec.ofNat_add]
  rw [engineRun_step hcode]
  exact (engineRun_trans hsent 1).trans (run_finish (s := s.encodesAt q n (c ++ d) .finish) rfl)

/-- ENCODE comes to ReadSym after m actions, and the symbol it reads has no code (R241, R242). -/
theorem encode_lookupError {q r : Source Byte} {m n n' : Nat} {p : Bits} {x : Option Byte} (hi : s.eng = .idle)
    (hbytes : engineRun m (s.request 0x4#4 true .encode) = .next (s.encodesAt q n p .encode))
    (hread : engineStep (s.encodesAt q n p .encode) = .next (s.encodesAt r n' p (.gotSym x)))
    (hno : codeIn s.ct (symbolRead x) = none) (hpace : m + 2 ≤ s.env.pace) :
    exec .encode s = .next ((s.encoded r n' p).failed (errinfoWord 4 0x4#4 0 (symbolRead x))) := by
  have hraise : engineStep (s.encodesAt r n' p (.gotSym x)) =
      .next ((s.encoded r n' p).raise .lookupError 0 (symbolRead x)) :=
    engineStep_gotSym_noCode (s := s.encodesAt r n' p (.gotSym x)) rfl hno
  have hrun := engineRun_then hbytes (engineRun_then (engineRun_one hread) (engineRun_one hraise))
  rw [exec, execEncode, afterEvent_request_ends hrun rfl hpace, raise_of_idle (s := s.encoded r n' p) hi]
  rfl

/-! ## The obligations about ENCODE -/

/-- Settles O21: the loop gives the bytes' codes, EOS the sentinel's. -/
theorem encodeCompletes : Obligations.EncodeCompletes := by
  intro s bytes p hq he htv hsin hp hready hpace
  obtain ⟨c, d, hc, hd, rfl⟩ := payload_eq_some_iff.mp hp
  have hbytes := run_encodeBytes hq he htv (hsin ▸ Source.offers_all bytes .fin) hc hready
  have heos := readSym_fin (s := s) bytes.length c
  obtain ⟨hi, hbv, -⟩ := hq
  have hrun := engineRun_then hbytes (engineRun_then (engineRun_one heos) (run_encodeSentinel hbv hready hd))
  rw [List.length_append] at hpace
  rw [exec, execEncode, afterEvent_request_ends hrun rfl (by omega)]
  simp [State.complete, State.encodesAt, State.encoded, hi]

/-- Settles O22: the byte is taken and counted, and has no code to send. -/
theorem encodeByteWithoutCode : Obligations.EncodeByteWithoutCode := by
  intro s pre b q p hq he htv hb hp hno hready hpace
  obtain ⟨m, hpre, hbeat, hdrop⟩ := Source.offers_append.mp hb
  obtain rfl : m.drop = q := hdrop
  have hbytes := run_encodeBytes hq he htv hpre hp hready
  rw [encode_lookupError hq.1 hbytes (readSym_beat pre.length p hbeat) hno hpace]
  simp [errinfoWord, symbolRead, symOfByte, State.encoded]

/-- Settles O23: EOS asks for the sentinel's code, and there is none. -/
theorem encodeWithoutSentinel : Obligations.EncodeWithoutSentinel := by
  intro s bytes p hq he htv hsin hp hno hready hpace
  have hbytes := run_encodeBytes hq he htv (hsin ▸ Source.offers_all bytes .fin) hp hready
  exact encode_lookupError hq.1 hbytes (readSym_fin bytes.length p) hno hpace

end Sys2Proof.Machine
end

section
/-! PROOFS. DECODE from acceptance to the sentinel, to the end of its stream or to the error of a one-leaf tree
(spec/44_stream_decoder.md R260-R263). -/

namespace Sys2Proof.Machine

variable {s : State}

/-! ## The loop over the codes -/

/-- The registers and the environment once DECODE has consumed the bits p and written the bytes bs, with POS at pos and
the bin producer q. -/
def State.decoded (s : State) (q : Source Bool) (p : Bits) (bs : List Byte) (pos : NodeIdx) : State :=
  { s.begun 0x5#4 with
    bitsIn := BitVec.ofNat 32 p.length, symsOut := BitVec.ofNat 32 bs.length, pos := pos,
    soutData := bs.getLastD s.soutData, env := { s.env with bin := q, soutTaken := s.env.soutTaken ++ bs } }

/-- DECODE is at program point k. -/
def State.decodesAt (s : State) (q : Source Bool) (p : Bits) (bs : List Byte) (pos : NodeIdx) (k : Point) : State :=
  { s.decoded q p bs pos with eng := .run 0x5#4 k }

/-- Codes of bytes and then the path to subtree u, from acceptance to the arrival at u (R260). -/
theorem run_decodeTo {l r u : HTree} {items : List (Byte × Bits)} {part : Bits} {q : Source Bool}
    (ht : Loaded s (.node l r)) (hq : s.quiet) (he : s.err = false)
    (hf : ∀ x ∈ items, (HTree.node l r).follow x.2 = some (.leaf (symOfByte x.1)))
    (hu : (HTree.node l r).follow part = some u) (hb : OffersBits s.env.bin (items.flatMap Prod.snd ++ part) q)
    (hready : s.env.soutReady = true) :
    ∃ j, engineRun (3 * items.length + 2 * (items.flatMap Prod.snd ++ part).length + 1)
        (s.request 0x5#4 true .decode) =
          .next (s.decodesAt q (items.flatMap Prod.snd ++ part) (items.map Prod.fst) (BitVec.ofNat 10 j) u.arrival) ∧
      Laid s.ns j u ∧ j + u.size ≤ 513 := by
  obtain ⟨hi, -, hsv⟩ := hq
  obtain ⟨hlaid, hsize, -, -, htv⟩ := ht
  obtain ⟨m, hbytes, hpart⟩ := Source.offers_append.mp hb
  obtain ⟨pos, hloop⟩ := run_decode items m l r 0x5#4 { s.begun 0x5#4 with eng := .run 0x5#4 .decode } rfl hlaid hsize
    hf hbytes hready hsv
  have hroot := step_decode (s := s.decodesAt m (items.flatMap Prod.snd) (items.map Prod.fst) pos .decode) rfl hlaid
  obtain ⟨j, hwalk, hju, hj⟩ := run_follow part q l r u 0 0x5#4
    (s.decodesAt m (items.flatMap Prod.snd) (items.map Prod.fst) 0#10 walkPoint) rfl rfl hlaid (by rwa [Nat.zero_add])
    hpart hu
  refine ⟨j, ?_, hju, hj⟩
  have hloop' : engineRun (3 * items.length + 2 * (items.flatMap Prod.snd).length) (s.request 0x5#4 true .decode) =
      .next (s.decodesAt m (items.flatMap Prod.snd) (items.map Prod.fst) pos .decode) := by
    rw [request_runs .decode hi (by decide) he fun _ => htv, hloop]
    simp [State.decodesAt, State.decoded]
  have hrun := engineRun_then hloop' (engineRun_then (engineRun_one hroot) hwalk)
  rw [List.length_append, show 3 * items.length + 2 * ((items.flatMap Prod.snd).length + part.length) + 1 =
    3 * items.length + 2 * (items.flatMap Prod.snd).length + (1 + 2 * part.length) by omega, hrun]
  simp [State.decodesAt, State.decoded, BitVec.ofNat_add]

/-- The walk needs a bit, and the stream has ended (R262). -/
theorem run_walk_ended (hi : s.eng = .idle) {p : Bits} {bs : List Byte} {pos : NodeIdx} :
    engineRun 2 (s.decodesAt ⟨[], .fin⟩ p bs pos walkPoint) =
      .next ((s.decoded ⟨[], .fin⟩ p bs pos).failed 0x00000053#32) := by
  have hraise : engineRun 2 (s.decodesAt ⟨[], .fin⟩ p bs pos walkPoint) =
      .next ((s.decoded ⟨[], .fin⟩ p bs pos).raise .truncatedStream 0 0) := rfl
  rw [hraise, raise_of_idle (s := s.decoded ⟨[], .fin⟩ p bs pos) hi]
  simp [State.decoded, errinfoWord, Cause.code]

/-- The loop's head finds a leaf at the root (R261). -/
theorem engineStep_decode_leaf {sym : Symbol} (he : s.eng = .run 0x5#4 .decode) (ht : Laid s.ns 0 (.leaf sym)) :
    engineStep s =
      if sym = 256#9 then .next { s with pos := 0#10, eng := .run 0x5#4 .finish }
      else .next ({ s with pos := 0#10 }.raise .degenerateTree 0 sym) := by
  have hnode : State.node? { s with pos := 0 } 0 = some (.leaf sym) :=
    node?_leaf (s := { s with pos := 0 }) ht (by decide)
  rw [engineStep_run he]
  simp only [act, actDecode, hnode]
  simp [Config.sentinel, State.goto, he]

/-! ## The obligations about DECODE -/

/-- Settles O24: the walk arrives at the sentinel's leaf. -/
theorem decodeCompletes : Obligations.DecodeCompletes := by
  intro s l r items last q ht hq he hf hlast hb hready hpace
  obtain ⟨j, hwalk, ⟨hleaf, -⟩, hj⟩ := run_decodeTo ht hq he hf hlast hb hready
  have hrun := engineRun_then hwalk (run_finish rfl)
  refine ⟨BitVec.ofNat 10 j, ?_, ?_⟩
  · rw [exec, execDecode, afterEvent_request_ends hrun rfl (by omega)]
    simp [State.complete, State.decodesAt, State.decoded, hq.1]
  · rwa [State.nodeData, toNat_ofNat10 (by omega)]

/-- Settles O25: the walk arrives at an Internal node, where it needs a bit more. -/
theorem decodeOfTruncatedStream : Obligations.DecodeOfTruncatedStream := by
  intro s l r l' r' items part ht hq he hf hpart hbin hready hpace
  obtain ⟨j, hwalk, -⟩ := run_decodeTo ht hq he hf hpart (hbin ▸ Source.offers_all _ .fin) hready
  have hrun := engineRun_then hwalk (run_walk_ended hq.1)
  refine ⟨BitVec.ofNat 10 j, ?_⟩
  rw [exec, execDecode, afterEvent_request_ends hrun hq.1 (by omega)]
  simp [State.decoded]

/-- Settles O26: the loop's head finds a leaf at the root. -/
theorem decodeOfOneLeafTree : Obligations.DecodeOfOneLeafTree := by
  rintro s sym ⟨hroot, -, -, -, htv⟩ hi he hpace
  have hstep := engineStep_decode_leaf (s := { s.begun 0x5#4 with eng := .run 0x5#4 .decode }) rfl hroot
  have hreq : s.request 0x5#4 true .decode = { s.begun 0x5#4 with eng := .run 0x5#4 .decode } :=
    request_runs .decode hi (by decide) he fun _ => htv
  rw [← hreq] at hstep
  split_ifs at hstep ⊢ with hsym
  · have hrun := engineRun_then (engineRun_one hstep) (run_finish (op := 0x5#4) rfl)
    rw [exec, execDecode, afterEvent_request_ends hrun rfl hpace, hreq]
    simp [State.complete, hi]
  · rw [exec, execDecode, afterEvent_request_ends (engineRun_one hstep) rfl (by omega), hreq]
    simp [State.raise, State.failed, errinfoWord, Cause.code, hi]

end Sys2Proof.Machine
end

section
/-! PROOFS. A payload is the codes of its bytes and of the sentinel, so DECODE gives the bytes back, and a payload cut
short ends inside a code or at the end of one (spec/44_stream_decoder.md R266, R267). -/

namespace Sys2Proof.Machine

/-! ## Payloads -/

/-- The bytes of a sequence that has codes, each with its code. -/
theorem exists_items_of_codesOf {ct : Memory CodeEntry} {S : List Byte} {c : Bits} (h : codesOf ct S = some c) :
    ∃ items : List (Byte × Bits), items.map Prod.fst = S ∧ items.flatMap Prod.snd = c ∧
      ∀ x ∈ items, codeIn ct (symOfByte x.1) = some x.2 := by
  induction S generalizing c with
  | nil => exact ⟨[], rfl, by simpa [codesOf] using h, by simp⟩
  | cons b S ih =>
    rw [codesOf] at h
    split at h
    case h_2 => cases h
    case h_1 p q hp hq =>
      obtain ⟨items, rfl, rfl, hcodes⟩ := ih hq
      exact ⟨(b, p) :: items, rfl, by simpa using h, by simpa [hp] using hcodes⟩

theorem exists_codesOf {ct : Memory CodeEntry} {S : List Byte} (h : ∀ b ∈ S, ∃ p, codeIn ct (symOfByte b) = some p) :
    ∃ c, codesOf ct S = some c := by
  induction S with
  | nil => exact ⟨[], rfl⟩
  | cons b S ih =>
    obtain ⟨⟨p, hp⟩, hS⟩ := List.forall_mem_cons.mp h
    obtain ⟨c, hc⟩ := ih hS
    exact ⟨p ++ c, by simp [codesOf, hp, hc]⟩

/-- A payload is a path to a leaf for each byte, then one to the sentinel's (R119, R204). -/
theorem exists_paths_of_payload {t : HTree} {S : List Byte} {P : Bits} (h : payload t.codeTable S = some P) :
    ∃ (items : List (Byte × Bits)) (last : Bits), items.map Prod.fst = S ∧ items.flatMap Prod.snd ++ last = P ∧
      (∀ x ∈ items, t.follow x.2 = some (.leaf (symOfByte x.1))) ∧ t.follow last = some (.leaf 256#9) := by
  obtain ⟨c, last, hc, hlast, rfl⟩ := payload_eq_some_iff.mp h
  obtain ⟨items, hS, rfl, hcodes⟩ := exists_items_of_codesOf hc
  exact ⟨items, last, hS, rfl, fun x hx => follow_of_codeIn (hcodes x hx), follow_of_codeIn hlast⟩

/-- With the host's tree for a byte sequence, the sequence has a payload (R182). -/
theorem exists_payload_build (S : List Byte) : ∃ P, payload (build (freqTable S)).codeTable S = some P := by
  have hcode {x : Symbol} (hx : x = Config.sentinel ∨ ∃ b ∈ S, x = symOfByte b) :
      ∃ p, codeIn (build (freqTable S)).codeTable x = some p :=
    Option.isSome_iff_exists.mp ((codeIn_isSome_iff _ _).mpr ((mem_symbols_build S x).mpr hx))
  obtain ⟨d, hd⟩ := hcode (.inl rfl)
  obtain ⟨c, hc⟩ := exists_codesOf fun b hb => hcode (.inr ⟨b, hb, rfl⟩)
  exact ⟨c ++ d, payload_eq_some_iff.mpr ⟨c, d, hc, hd, rfl⟩⟩

/-! ## Paths below a leaf, and paths cut short -/

/-- A leaf has no path below it. -/
theorem HTree.follow_leaf {x : Symbol} {u : HTree} {p : Bits} (h : (HTree.leaf x).follow p = some u) :
    p = [] ∧ u = .leaf x := by
  cases p with
  | nil => exact ⟨rfl, by simpa [follow] using h.symm⟩
  | cons b p => simp [follow] at h

/-- Short of its end, a path is at an Internal node. -/
theorem HTree.follow_prefix {t u : HTree} {p d : Bits} (h : t.follow (p ++ d) = some u) (hd : d ≠ []) :
    ∃ l r, t.follow p = some (.node l r) := by
  rw [follow_append, Option.bind_eq_some_iff] at h
  obtain ⟨v, hv, hu⟩ := h
  cases v with
  | leaf x => exact absurd (HTree.follow_leaf hu).1 hd
  | node l r => exact ⟨l, r, hv⟩

/-- A proper prefix of paths to leaves is some of the paths, and then part of the next one (R267). -/
theorem HTree.exists_cut {t : HTree} {y : Symbol} {items : List (Byte × Bits)} {last Q more : Bits}
    (hf : ∀ x ∈ items, t.follow x.2 = some (.leaf (symOfByte x.1))) (hlast : t.follow last = some (.leaf y))
    (h : items.flatMap Prod.snd ++ last = Q ++ more) (hmore : more ≠ []) :
    ∃ whole part l r, whole <+: items ∧ whole.flatMap Prod.snd ++ part = Q ∧ t.follow part = some (.node l r) := by
  induction items generalizing Q with
  | nil =>
    obtain rfl : last = Q ++ more := h
    obtain ⟨l, r, hQ⟩ := HTree.follow_prefix hlast hmore
    exact ⟨[], Q, l, r, List.nil_prefix, rfl, hQ⟩
  | cons x items ih =>
    obtain ⟨hx, hitems⟩ := List.forall_mem_cons.mp hf
    rw [List.flatMap_cons, List.append_assoc] at h
    by_cases hQ : x.2 <+: Q
    · obtain ⟨Q, rfl⟩ := hQ
      obtain ⟨whole, part, l, r, hwhole, rfl, hpart⟩ := ih hitems (by simpa using h)
      exact ⟨x :: whole, part, l, r, (List.prefix_cons_inj x).mpr hwhole, by simp, hpart⟩
    · have hcut : Q <+: x.2 :=
        (List.prefix_or_prefix_of_prefix ⟨_, h⟩ (List.prefix_append Q more)).resolve_left hQ
      obtain ⟨d, hd⟩ := hcut
      have hne : d ≠ [] := by
        rintro rfl
        exact hQ (by simp [← hd])
      obtain ⟨l, r, hpart⟩ := HTree.follow_prefix (hd ▸ hx) hne
      exact ⟨[], Q, l, r, List.nil_prefix, rfl, hpart⟩

/-! ## The obligations about payloads -/

/-- DECODE of a payload and any further bits writes its bytes and consumes exactly the payload (R263, R266). -/
theorem decode_payload {t : HTree} {s : State} {q : Source Bool} {S : List Byte} {P : Bits}
    (hP : payload t.codeTable S = some P) (ht : Loaded s t) (hq : s.quiet) (he : s.err = false)
    (hb : OffersBits s.env.bin P q) (hready : s.env.soutReady = true)
    (hpace : 3 * S.length + 2 * P.length + 2 ≤ s.env.pace) :
    ∃ u, exec .decode s = .next u ∧ u.eng = .idle ∧ u.done = true ∧ u.err = false ∧
      u.env.soutTaken = s.env.soutTaken ++ S ∧ u.env.bin = q ∧ u.bitsIn = BitVec.ofNat 32 P.length := by
  obtain ⟨items, last, rfl, rfl, hf, hlast⟩ := exists_paths_of_payload hP
  rw [List.length_map] at hpace
  cases t with
  | leaf x =>
    obtain ⟨rfl, hx⟩ := HTree.follow_leaf hlast
    cases hx
    obtain rfl : items = [] := List.eq_nil_iff_forall_not_mem.mpr fun y hy =>
      symOfByte_ne_sentinel y.1 (HTree.leaf.inj (HTree.follow_leaf (hf y hy)).2)
    have hrun := decodeOfOneLeafTree s 256#9 ht hq.1 he (by omega)
    rw [if_pos rfl] at hrun
    exact ⟨_, hrun, hq.1, rfl, he, by simp, hb, rfl⟩
  | node l r =>
    obtain ⟨pos, hrun, -⟩ := decodeCompletes s l r items last q ht hq he hf hlast hb hready hpace
    exact ⟨_, hrun, hq.1, rfl, he, rfl, rfl, rfl⟩

/-- Settles O27: the payload's codes are the paths to the leaves of its bytes. -/
theorem roundTripOfBytes : Obligations.RoundTripOfBytes := by
  intro S
  obtain ⟨P, hP⟩ := exists_payload_build S
  refine ⟨P, fun s q hi he hw hb hpace => ?_, fun s ht hq he hsin hready hpace => ?_, fun s q ht hq he hb hready hpace =>
    decode_payload hP ht hq he hb hready hpace⟩
  · have hsize := size_build_le S
    have hleaves := (build (freqTable S)).size_leaves
    obtain ⟨ns, hrun, hlaid, -⟩ := treeLoadCompletes _ q s (legal_build S) hsize hi he hw hb (by omega)
    exact ⟨_, hrun, hi, rfl, he, ⟨hlaid, hsize, rfl, rfl, rfl⟩, rfl⟩
  · obtain ⟨-, -, -, hct, htv⟩ := ht
    exact ⟨_, encodeCompletes s S P hq he htv hsin (hct ▸ hP) hready hpace, hq.1, rfl, he, rfl⟩

/-- Settles O28: a payload cut short ends at an Internal node. -/
theorem truncatedPayloadIsDetected : Obligations.TruncatedPayloadIsDetected := by
  intro S P Q more s hP hcut hmore ht hq he hbin hready hpace
  obtain ⟨items, last, rfl, rfl, hf, hlast⟩ := exists_paths_of_payload hP
  obtain ⟨whole, part, l', r', hwhole, rfl, hpart⟩ := HTree.exists_cut hf hlast hcut hmore
  have hlen := hwhole.length_le
  have hcutLen := congrArg List.length hcut
  rw [List.length_append (as := _ ++ part)] at hcutLen
  rw [List.length_map] at hpace
  cases hb : build (freqTable (items.map Prod.fst)) with
  | leaf x =>
    rw [hb] at hpart
    cases (HTree.follow_leaf hpart).2
  | node l r =>
    rw [hb] at ht hf hpart
    obtain ⟨pos, hrun⟩ := decodeOfTruncatedStream s l r l' r' whole part ht hq he
      (fun x hx => hf x (hwhole.subset hx)) hpart hbin hready (by omega)
    exact ⟨_, hrun, hq.1, rfl, rfl, rfl⟩

end Sys2Proof.Machine
end

section
/-! PROOFS. HDR_WRITE and HDR_CHECK from acceptance to Complete, or to the BAD_MAGIC of a stream that does not begin
with MAGIC (spec/45_container_header.md R280, R282, R283). -/

namespace Sys2Proof.Machine

variable {s : State} {q : Source Bool}

/-! ## HDR_WRITE -/

/-- WriteBits gives the least significant bit last (R122). -/
theorem bitsOf_getLastD (w : Word) (n : Nat) (b : Bool) : (bitsOf w (n + 1)).getLastD b = w.getLsbD 0 := by
  induction n generalizing b with
  | zero => rfl
  | succ n ih => rw [bitsOf, List.getLastD_cons, ih]

/-- Settles O13: WriteBits of the 32 bits of MAGIC, then Complete. -/
theorem hdrWriteCompletes : Obligations.HdrWriteCompletes := by
  rintro s ⟨hi, hbv, -⟩ he hready hpace
  have hstart : engineStep { s.begun 0x6#4 with eng := .run 0x6#4 .hdrWrite } =
      .next { s.begun 0x6#4 with eng := .run 0x6#4 (.send (bitsOf s.magic 32) .finish) } := rfl
  have hsend := run_send (bitsOf s.magic 32)
    { s.begun 0x6#4 with eng := .run 0x6#4 (.send (bitsOf s.magic 32) .finish) } rfl hready hbv
  have hrun := engineRun_then (engineRun_one hstart) (engineRun_then hsend (run_finish rfl))
  rw [← request_runs .hdrWrite hi (by decide) he (by simp [needsTree])] at hrun
  rw [exec, execHdrWrite, afterEvent_request_ends hrun rfl (by simpa using hpace), bitsOf_getLastD]
  simp [State.complete, hi]

/-! ## HDR_CHECK -/

/-- The registers and the environment once HDR_CHECK has consumed n bits and its producer is q. -/
def State.checked (s : State) (q : Source Bool) (n : Nat) : State :=
  { s.begun 0x7#4 with bitsIn := BitVec.ofNat 32 n, env := { s.env with bin := q } }

/-- HDR_CHECK is at program point k. -/
def State.checksAt (s : State) (q : Source Bool) (n : Nat) (k : Point) : State :=
  { s.checked q n with eng := .run 0x7#4 k }

/-- HDR_CHECK is accepted and calls ReadBits(32) (R282). -/
theorem run_hdrCheck (hi : s.eng = .idle) (he : s.err = false) :
    engineRun 1 (s.request 0x7#4 true .hdrCheck) = .next (s.checksAt s.env.bin 0 (.recv 32 0 .magic)) := by
  rw [request_runs .hdrCheck hi (by decide) he (by simp [needsTree])]
  rfl

/-- ReadBits(32) gives the word whose bits are offered, all of them consumed (R121, R282). -/
theorem run_readMagic {v : Word} (hi : s.eng = .idle) (he : s.err = false)
    (hb : OffersBits s.env.bin (bitsOf v 32) q) :
    engineRun 33 (s.request 0x7#4 true .hdrCheck) = .next (s.checksAt q 32 (.recv 0 v .magic)) := by
  have hrecv := run_recv (bitsOf v 32) q 0 (s.checksAt s.env.bin 0 (.recv 32 0 .magic))
    (by rw [bitsOf_length]; rfl) hb
  rw [foldl_bitsOf_32, bitsOf_length] at hrecv
  exact engineRun_then (run_hdrCheck hi he) hrecv

/-- The compare with MAGIC (R282). -/
theorem engineStep_magic (q : Source Bool) (n : Nat) (v : Word) :
    engineStep (s.checksAt q n (.recv 0 v .magic)) =
      if v = s.magic then .next (s.checksAt q n .finish) else .next ((s.checked q n).raise .badMagic 0 0) := rfl

/-- The error entry of HDR_CHECK (R305). -/
theorem raise_checked (hi : s.eng = .idle) (n : Nat) (sub : BitVec 4) :
    (s.checked q n).raise .badMagic sub 0 = (s.checked q n).failed (errinfoWord 1 0x7#4 sub 0) :=
  raise_of_idle (s := s.checked q n) hi .badMagic sub 0

/-- Settles O14: the word read is MAGIC. -/
theorem hdrCheckCompletes : Obligations.HdrCheckCompletes := by
  intro s q hi he hb hpace
  have hcompare := engineStep_magic (s := s) q 32 s.magic
  rw [if_pos rfl] at hcompare
  have hrun := engineRun_then (run_readMagic hi he hb) (engineRun_then (engineRun_one hcompare) (run_finish rfl))
  rw [exec, execHdrCheck, afterEvent_request_ends hrun rfl hpace]
  simp [State.complete, State.checksAt, State.checked, hi]

/-- Settles O15: the word read is not MAGIC. -/
theorem hdrCheckRejectsMismatch : Obligations.HdrCheckRejectsMismatch := by
  intro s v q hi he hv hb hpace
  have hcompare := engineStep_magic (s := s) q 32 v
  rw [if_neg hv, raise_checked hi] at hcompare
  have hrun := engineRun_then (run_readMagic hi he hb) (engineRun_one hcompare)
  rw [exec, execHdrCheck, afterEvent_request_ends hrun hi hpace]
  rfl

/-- Settles O16: ReadBits(32) meets the end of the stream. -/
theorem hdrCheckRejectsShortStream : Obligations.HdrCheckRejectsShortStream := by
  intro s x hi he hbin hx hpace
  have heos := run_recv_eos x 32 0 (s.checksAt s.env.bin 0 (.recv 32 0 .magic)) rfl hx hbin
  have hraise : engineStep (s.checksAt ⟨[], .fin⟩ x.length (.starved .magic)) =
      .next ((s.checked ⟨[], .fin⟩ x.length).raise .badMagic 1 0) := rfl
  rw [raise_checked hi] at hraise
  have hbits : (s.checksAt s.env.bin 0 (.recv 32 0 .magic)).bitsIn + BitVec.ofNat 32 x.length =
      BitVec.ofNat 32 x.length := BitVec.zero_add _
  rw [hbits] at heos
  have hrun := engineRun_then (run_hdrCheck hi he) (engineRun_then heos (engineRun_one hraise))
  rw [exec, execHdrCheck, afterEvent_request_ends hrun hi (by omega)]
  rfl

end Sys2Proof.Machine
end

section
/-! PROOFS. The error entry, with every field of ERRINFO at its place (spec/60_exceptions.md R300, R305,
spec/10_state.md R46). -/

namespace Sys2Proof.Machine

/-- R46: the four fields of ERRINFO meet nowhere, each between its reserved bits. -/
theorem errinfoWord_eq_append (cause : BitVec 4) (op : Opcode) (sub : BitVec 4) (esym : Symbol) :
    errinfoWord cause op sub esym = 0#7 ++ esym ++ 0#4 ++ sub ++ op ++ cause := by
  refine BitVec.eq_of_getLsbD_eq fun i hi => ?_
  simp only [errinfoWord, BitVec.getLsbD_or, BitVec.getLsbD_setWidth, BitVec.getLsbD_shiftLeft,
    BitVec.getLsbD_append, BitVec.getLsbD_zero]
  interval_cases i <;> simp

/-- R64: after the error entry no command waits for a bit. -/
@[simp] theorem State.raise_binReady (s : State) (e : Cause) (sub : BitVec 4) (esym : Symbol) :
    (s.raise e sub esym).binReady = false := rfl

/-- R64: after the error entry no command waits for a byte. -/
@[simp] theorem State.raise_sinReady (s : State) (e : Cause) (sub : BitVec 4) (esym : Symbol) :
    (s.raise e sub esym).sinReady = false := rfl

/-- Settles O55: the error entry as it is defined, with ERRINFO's word read field by field. -/
theorem errorEntry : Obligations.ErrorEntry := by
  intro s e sub esym
  refine ⟨?_, s.raise_binReady e sub esym, s.raise_sinReady e sub esym⟩
  rw [State.raise, errinfoWord_eq_append]
  cases e <;> rfl

end Sys2Proof.Machine
end

section
/-! PROOFS. The two reset events (spec/70_reset_and_hazards.md R340, R341), and an engine that waits at a stream port for
a producer or a consumer that never moves (R362). -/

namespace Sys2Proof.Machine

variable {s : State}

/-! ## Reset -/

/-- No engine action follows a reset: it leaves the engine idle. -/
theorem afterEvent_blockReset (s : State) : afterEvent s.blockReset = .next s.blockReset := afterEvent_idle rfl

/-- Settles O49: both events are the block's reset, in the write's case by SRST. -/
theorem resetEventsAgree : Obligations.ResetEventsAgree := by
  intro s w hw
  obtain ⟨-, hsrst⟩ := controlWrite s w
  obtain ⟨-, hwrite⟩ := registerAccessIsOneEvent s 0x08#8 w rfl
  have hreset : s.regWrite 0x08#8 w = s.blockReset := (hsrst hw).1
  refine ⟨afterEvent_blockReset s, ?_⟩
  rw [hwrite (by decide), hreset]
  exact afterEvent_blockReset s

/-! ## Waits -/

/-- bin_ready is 1 in ReadBit (spec/10_state.md R64). -/
theorem binReady_iff : s.binReady = true ↔ ∃ op n v who, s.eng = .run op (.recv (n + 1) v who) := by
  unfold State.binReady
  split
  · simp_all
  · rename_i hno
    simpa only [Bool.false_eq_true, false_iff, not_exists] using hno

/-- sin_ready is 1 in ReadSym (spec/10_state.md R64). -/
theorem sinReady_iff : s.sinReady = true ↔ ∃ op, s.eng = .run op .encode := by
  unfold State.sinReady
  split
  · simp_all
  · rename_i hno
    simpa only [Bool.false_eq_true, false_iff, not_exists] using hno

/-- The engine waits for a bit or a byte of a producer that shows neither a beat nor its end. -/
def State.unfed (s : State) : Prop :=
  (s.binReady = true ∧ s.env.bin = ⟨[], .more⟩) ∨ (s.sinReady = true ∧ s.env.sin = ⟨[], .more⟩)

theorem unfed_busy (h : s.unfed) : s.busy = true := by
  rcases h with ⟨hr, -⟩ | ⟨hr, -⟩
  · obtain ⟨op, n, v, who, he⟩ := binReady_iff.mp hr
    exact busy_of_run he
  · obtain ⟨op, he⟩ := sinReady_iff.mp hr
    exact busy_of_run he

/-- The engine waits for the producer (spec/20_memory.md R90, R91). -/
theorem engineStep_unfed (h : s.unfed) : engineStep s = .next s := by
  rcases h with ⟨hr, hbin⟩ | ⟨hr, hsin⟩
  · obtain ⟨op, n, v, who, he⟩ := binReady_iff.mp hr
    rw [readBitTransfers s op n v who he, hbin]
  · obtain ⟨op, he⟩ := sinReady_iff.mp hr
    rw [(byteTransfers s op).1 he, hsin]

/-- Settles O47: an engine that waits stays where it is in one action, and so in every number of them. -/
theorem waitingEngineHangs : Obligations.WaitingEngineHangs := by
  intro s n h
  obtain hunfed | hblocked : s.unfed ∨ s.blocked := or_assoc.mpr h
  · exact ⟨engineRun_of_stays (engineStep_unfed hunfed) n, unfed_busy hunfed⟩
  · exact ⟨engineRun_of_stays (engineStep_blocked hblocked) n, blocked_busy hblocked⟩

end Sys2Proof.Machine
end

section
/-! PROOFS. What the commands that only read the tree leave unchanged, however far they get: TREE_EMIT, ENCODE, DECODE,
HDR_WRITE and HDR_CHECK write neither NS nor CT, and ERRINFO only with an error (spec/42_tree_codec.md R210,
spec/43_stream_encoder.md R240, spec/44_stream_decoder.md R260, spec/45_container_header.md R280, R282,
spec/60_exceptions.md R305). -/

namespace Sys2Proof.Machine

variable {s t u : State} {op : Opcode} {k : Point}

/-! ## Actions that only read the tree -/

/-- From s to t the code table, TREE_VALID and NODE_COUNT are the same, and ERR and ERRINFO too unless the error state
was entered. NS and the allocation counter: `Point.Leaves`. -/
def KeepsTree (s t : State) : Prop :=
  (t.ct = s.ct ∧ t.treeValid = s.treeValid ∧ t.nodeCount = s.nodeCount) ∧
    (t.err = true ∨ (t.err = s.err ∧ t.errinfo = s.errinfo))

namespace KeepsTree

theorem refl (s : State) : KeepsTree s s := ⟨⟨rfl, rfl, rfl⟩, .inr ⟨rfl, rfl⟩⟩

theorem trans (h : KeepsTree s t) (h' : KeepsTree t u) : KeepsTree s u := by
  obtain ⟨⟨hct, htv, hnc⟩, herr⟩ := h
  obtain ⟨⟨hct', htv', hnc'⟩, herr'⟩ := h'
  refine ⟨⟨hct'.trans hct, htv'.trans htv, hnc'.trans hnc⟩, ?_⟩
  rcases herr' with hraised | ⟨hsame, hinfo⟩
  · exact .inl hraised
  · rw [hsame, hinfo]
    exact herr

theorem raise (h : KeepsTree s u) (e : Cause) (sub : BitVec 4) (esym : Symbol) : KeepsTree s (u.raise e sub esym) := by
  obtain ⟨htree, -⟩ := h
  exact ⟨htree, .inl rfl⟩

end KeepsTree

/-- The next state, if there is one, keeps the tree. -/
def AnswerKeepsTree (s : State) : Res → Prop
  | .next t => KeepsTree s t
  | _ => True

variable (s)

theorem actRecvBit_keepsTree (n : Nat) (v : Word) (who : Reader) : AnswerKeepsTree s (actRecvBit n v who s) := by
  unfold actRecvBit
  split <;> exact .refl s

theorem actEmit_keepsTree (i : NodeIdx) : AnswerKeepsTree s (actEmit i s) := by
  unfold actEmit
  split
  · trivial
  · exact .refl s
  · exact .refl s

theorem actEmitCode_keepsTree (sym : Symbol) (next : Point) : AnswerKeepsTree s (actEmitCode sym next s) := by
  unfold actEmitCode
  split
  · exact .refl s
  · exact (KeepsTree.refl s).raise _ _ _

theorem actDecode_keepsTree : AnswerKeepsTree s (actDecode s) := by
  have hu : KeepsTree s { s with pos := 0 } := .refl s
  unfold actDecode
  dsimp only
  split
  · trivial
  · split
    · exact hu
    · exact hu.raise _ _ _
  · exact hu

theorem actArrive_keepsTree : AnswerKeepsTree s (actArrive s) := by
  unfold actArrive
  split
  · trivial
  · split <;> exact .refl s
  · exact .refl s

theorem actCodeBit_keepsTree (b : Bool) : AnswerKeepsTree s (actCodeBit b s) := by
  unfold actCodeBit
  split
  · trivial
  · trivial
  · exact actArrive_keepsTree _

theorem actMagic_keepsTree (v : Word) : AnswerKeepsTree s (actMagic v s) := by
  unfold actMagic
  split
  · exact .refl s
  · exact (KeepsTree.refl s).raise _ _ _

/-- Every action of a command other than CLEAR and TREE_LOAD. -/
theorem act_keepsTree (h1 : op ≠ 0x1#4) (h2 : op ≠ 0x2#4) (hk : k.partOf op = true) :
    AnswerKeepsTree s (act k s) := by
  cases k with
  | clear => exact absurd (eq_of_beq hk) h1
  | load | parseRet | walk | walkRet | loadDone => exact absurd (eq_of_beq hk) h2
  | recv left v who =>
    cases left with
    | succ n => exact actRecvBit_keepsTree s n v who
    | zero =>
      cases who with
      | tag | symbol => exact absurd (eq_of_beq hk) h2
      | code => exact actCodeBit_keepsTree s _
      | magic => exact actMagic_keepsTree s v
  | starved who => cases who <;> exact (KeepsTree.refl s).raise _ _ _
  | emit i => exact actEmit_keepsTree s i
  | emitRet =>
    simp only [act, actEmitRet]
    split <;> exact .refl s
  | send bits next => cases bits <;> exact .refl s
  | drain rest next =>
    simp only [act, actDrain]
    split <;> exact .refl s
  | encode =>
    simp only [act, actReadSym]
    split <;> exact .refl s
  | gotSym b => cases b <;> exact actEmitCode_keepsTree s _ _
  | decode => exact actDecode_keepsTree s
  | drainSym =>
    simp only [act, actDrainSym]
    split <;> exact .refl s
  | emitRoot | put | hdrWrite | hdrCheck | finish => exact .refl s

variable {s}

theorem engineRun_keepsTree {n : Nat} (h1 : op ≠ 0x1#4) (h2 : op ≠ 0x2#4) (h : InCommand op s)
    (ht : engineRun n s = .next t) : KeepsTree s t := by
  refine (engineRun_keeps_running (P := fun u => InCommand op u ∧ KeepsTree s u) ?_ ⟨h, .refl s⟩ ht).2
  rintro u v op' k ⟨hin, hu⟩ he hv
  obtain ⟨hin', -⟩ := engineStep_goes hin hv
  obtain ⟨k', he', hk⟩ := hin.resolve_left (by simp [he])
  have hkeeps := act_keepsTree u h1 h2 hk
  rw [← engineStep_run he', hv] at hkeeps
  exact ⟨hin', hu.trans hkeeps⟩

/-! ## The event of the CMD write -/

/-- Dropped, ended at once or started, a command's own event keeps the tree. -/
theorem request_keepsTree (s : State) (op : Opcode) (legal : Bool) (k : Point) :
    KeepsTree s (s.request op legal k) := by
  rcases request_cases s op legal k with ⟨hr, -⟩ | ⟨hr, -⟩ | ⟨hr, -⟩ | ⟨hr, -⟩ | ⟨hr, -⟩ <;> rw [hr]
  · exact .refl s
  · exact .refl s
  · exact KeepsTree.raise (u := s.begun op) (.refl s) _ _ _
  · exact KeepsTree.raise (u := s.begun op) (.refl s) _ _ _
  · exact .refl s

/-- From an idle block a command does not start, or starts at a point of its own. -/
theorem request_inCommand (hi : s.eng = .idle) (hk : k.partOf op = true) (legal : Bool) :
    InCommand op (s.request op legal k) := by
  rcases request_cases s op legal k with ⟨hr, -⟩ | ⟨hr, -⟩ | ⟨hr, -⟩ | ⟨hr, -⟩ | ⟨hr, -⟩ <;> rw [hr]
  · exact .inl hi
  · exact .inl hi
  · exact .inl rfl
  · exact .inl rfl
  · exact .inr ⟨k, rfl, hk⟩

/-- No command is dropped by an idle block without an error (spec/40_control.md R150). -/
theorem request_drop (hi : s.eng = .idle) (herr : s.err = false) (op : Opcode) (legal : Bool) (k : Point) :
    (s.request op legal k).drop = s.drop := by
  rcases request_cases s op legal k with ⟨-, hx⟩ | ⟨hr, -⟩ | ⟨hr, -⟩ | ⟨hr, -⟩ | ⟨hr, -⟩
  · simp [hi, herr] at hx
  all_goals exact (congrArg State.drop hr :)

/-! ## The obligation about the five commands -/

/-- Each of the five commands starts at a point of its own, and is neither NOP nor CLEAR nor TREE_LOAD. -/
theorem exec_streamCommand {i : Instr} (h : i ∈ [.treeEmit, .encode, .decode, .hdrWrite, .hdrCheck]) (s : State) :
    ∃ op k, exec i s = afterEvent (s.request op true k) ∧ k.partOf op = true ∧
      op ≠ 0x0#4 ∧ op ≠ 0x1#4 ∧ op ≠ 0x2#4 := by
  simp only [List.mem_cons, List.not_mem_nil, or_false] at h
  rcases h with rfl | rfl | rfl | rfl | rfl <;> exact ⟨_, _, rfl, rfl, by decide, by decide, by decide⟩

/-- Settles O58: the settings outlast every command, the run keeps the rest, and a command in the error state is
dropped. -/
theorem streamCommandsFrame : Obligations.StreamCommandsFrame := by
  intro i s t hmem hi ht
  have hset := exec_settings ht
  simp only [State.settings, Prod.mk.injEq] at hset
  obtain ⟨hmagic, hreset, hdone, hie, hnode, hsym, hword⟩ := hset
  obtain ⟨op, k, hx, hk, h0, h1, h2⟩ := exec_streamCommand hmem s
  rw [hx] at ht
  have hin := request_inCommand hi hk true
  obtain ⟨-, hview, -⟩ := request_leaves s op true k
  simp only [State.view, Prod.mk.injEq] at hview
  obtain ⟨hns, -, -, -, -, halloc, -⟩ := hview
  obtain ⟨hdrop, hstore⟩ := engineRun_leaves hin ht
  obtain ⟨hns', halloc'⟩ := hstore h2
  obtain ⟨⟨hct, htv, hnc⟩, herrs⟩ := (request_keepsTree s op true k).trans (engineRun_keepsTree h1 h2 hin ht)
  refine ⟨hns'.trans hns, hct, hnc, htv, hmagic, hreset, hdone, hie, hnode, hsym, hword, halloc'.trans halloc,
    fun herr => (hdrop h1).trans (request_drop hi herr op true k), fun hsame => ?_⟩
  rcases herrs with hraised | ⟨-, hinfo⟩
  · have herr : s.err = true := hsame ▸ hraised
    rw [request_errorState herr (by simp [h0, h1]), afterEvent_idle (s := { s with drop := true }) hi] at ht
    cases ht
    rfl
  · exact hinfo

end Sys2Proof.Machine
end
